-- ==== Sys2Proof/Word.lean ====
section
/-! DEFINITION. The words of the block: binary64 patterns, the fields of a command, command and response
words, and the error codes. Only types and names stand here; every computation on them is in Machine/. -/

namespace Sys2Proof

/-- A binary64 value, held as its IEEE 754 bit pattern (00_scope.md R10, R13: bit 63 sign, bits 62:52 biased
exponent, bits 51:0 fraction). Registers keep all 64 bits, NaN payloads included (43_registers.md R190). -/
abbrev F64 := BitVec 64

/-- A note identifier, 7 bits (00_scope.md R11, 30_encoding.md R83). -/
abbrev Note := BitVec 7

/-- A velocity, 7 bits (00_scope.md R11, 30_encoding.md R83). -/
abbrev Velocity := BitVec 7

/-- A READ index, 8 bits (00_scope.md R11, 10_state.md R22). -/
abbrev RegIndex := BitVec 8

/-- A command word: OPC in bits 71:64, OPERAND in bits 63:0 (30_encoding.md R82). -/
abbrev Command := BitVec 72

/-- The ten error codes (60_exceptions.md R220). Code 0x00 is OK and no error. -/
inductive ErrorCode where
  | illegalOpcode
  | reservedOperand
  | noVoice
  | voiceBusy
  | noteMismatch
  | badFrequency
  | badSampleRate
  | badEnvParam
  | badOscsel
  | badRegIndex
deriving DecidableEq, Repr

end Sys2Proof
end

