-- ==== Sys2Proof/Config.lean ====
section
/-! DEFINITION. The configuration of one block (00_scope.md R7) and the model's three free values.
The spec's reference values of the parameters are `Config.reference`, in Machine/Reference.lean; what the spec
asks of any admissible configuration (R8, R9) is `Config.Admissible`, in Safety.lean. -/

namespace Sys2Proof

/-- The parameters of a block (00_scope.md R7). P_CMD_LATENCY and P_VOICES are left out: no rule depends on
them (70_reset_and_hazards.md R257, 00_scope.md R6; log entry 7). -/
structure Config where
  /-- P_GAIN, the fixed per-voice gain. -/
  gain : F64
  /-- P_SIN, the sine realisation (R8). A wavetable is one admissible value of it (20_memory.md R61). -/
  sin : F64 → F64
  /-- P_MTOF, the table of 128 frequencies, by note number (R9). -/
  mtof : Note → F64
  /-- P_FREQ_MAX, the largest accepted frequency. -/
  freqMax : F64
  /-- P_SR_MIN, the least accepted sample rate. -/
  srMin : F64
  /-- P_SR_MAX, the largest accepted sample rate. -/
  srMax : F64

/-- FREE VALUE. The sign and the payload of the NaN that an IEEE operation produces from the two operand
patterns; only those bits of it are used (`Machine.nanOf`). IEEE 754 leaves them open and the spec states none.
No run produces a NaN (10_state.md R29 I6, 60_exceptions.md R224). Log entry 5. -/
opaque Config.freeNan : F64 → F64 → F64

/-- FREE VALUE. The sine of the reference instance at an argument of magnitude 8 or more, an infinity or a NaN.
00_scope.md R8 constrains P_SIN only for `0 <= x < 6.3`, the only arguments a run produces. Log entry 4. -/
opaque Config.sineBeyond : F64 → F64

/-- FREE VALUE. The "floating tolerance" of property M2 of P_MTOF (00_scope.md R9), which the spec does not give, as
a distance in units of 2^-1074. Log entry 15. -/
opaque Config.mtofTolerance : Nat

end Sys2Proof
end

