-- ==== Sys2Proof/Machine/Float.lean ====
section
/-! DEFINITION. IEEE 754 binary64 arithmetic with round to nearest, ties to even, subnormals kept and no flags
(00_scope.md R10, R13). A finite value is a whole number of UNITS of 2^-1074, the least positive subnormal;
every operation is computed exactly in units and rounded once, by `roundDiv`. -/

namespace Sys2Proof.Machine

/-! ### Patterns -/

/-- The magnitude bits 62:0 of a pattern, as a number: it orders the non-negative patterns. -/
def magBits (x : F64) : Nat := x.toNat % 2 ^ 63

/-- The sign bit, bit 63. -/
def signBit (x : F64) : Bool := decide (2 ^ 63 ≤ x.toNat)

/-- The magnitude bits of an infinity: biased exponent 2047, fraction 0. -/
def infMag : Nat := 0x7FF * 2 ^ 52

/-- `isFinite(x)`: neither an infinity nor a NaN (R13). -/
def isFinite (x : F64) : Bool := decide (magBits x < infMag)

/-- A NaN: biased exponent 2047 and a fraction that is not zero. -/
def isNan (x : F64) : Bool := decide (infMag < magBits x)

/-- An infinity of either sign. -/
def isInf (x : F64) : Bool := magBits x == infMag

/-- The pattern with the given sign and magnitude bits. -/
def packBits (sign : Bool) (mag : Nat) : F64 :=
  BitVec.ofNat 64 ((if sign then 2 ^ 63 else 0) + mag)

/-- An infinity. -/
def infOf (sign : Bool) : F64 := packBits sign infMag

/-- A zero. -/
def zeroOf (sign : Bool) : F64 := packBits sign 0

/-- The quiet NaN an operation produces; its sign and payload are free (log entry 5). -/
def nanOf (a b : F64) : F64 :=
  (Config.freeNan a b &&& 0x8007FFFFFFFFFFFF#64) ||| 0x7FF8000000000000#64

/-! ### Values in units of 2^-1074 -/

/-- The magnitude, in units, of finite magnitude bits: subnormals have biased exponent 0, and a normal value's
fraction carries the hidden bit. -/
def unitsOfMag (mag : Nat) : Nat :=
  if mag / 2 ^ 52 = 0 then mag else (2 ^ 52 + mag % 2 ^ 52) * 2 ^ (mag / 2 ^ 52 - 1)

/-- The magnitude of a finite pattern in units. -/
def units (x : F64) : Nat := unitsOfMag (magBits x)

/-- The signed value of a finite pattern in units. -/
def signedUnits (x : F64) : Int := if signBit x then -(units x : Int) else (units x : Int)

/-- The number of units in 1.0. -/
def oneUnits : Nat := 2 ^ 1074

/-- The quotient `n / d` rounded to a whole number, ties to even. -/
def roundNat (n d : Nat) : Nat :=
  let q := n / d
  let r := n % d
  if 2 * r < d then q
  else if d < 2 * r then q + 1
  else q + q % 2

/-- The exponent at which a quotient whose whole part is `q` is rounded: 53 significant bits, and never finer
than one unit (gradual underflow). -/
def roundExp (q : Nat) : Nat := if q < 2 ^ 53 then 0 else q.log2 - 52

/-- The magnitude bits nearest to `n / d` units, ties to even; at or above the largest finite value's rounding
boundary, an infinity (R10: round to nearest even). -/
def roundDiv (n d : Nat) : Nat :=
  let k := roundExp (n / d)
  min (k * 2 ^ 52 + roundNat n (d * 2 ^ k)) infMag

/-! ### Comparisons (R13: false when either side is NaN; `+0.0 = -0.0`) -/

/-- The place of a pattern that is not a NaN in the order of the extended reals. -/
def orderKey (x : F64) : Int := if signBit x then -(magBits x : Int) else (magBits x : Int)

/-- IEEE `a < b`. -/
def flt (a b : F64) : Bool := !isNan a && !isNan b && decide (orderKey a < orderKey b)

/-- IEEE `a <= b`. -/
def fle (a b : F64) : Bool := !isNan a && !isNan b && decide (orderKey a ≤ orderKey b)

/-- IEEE `a = b`. -/
def feq (a b : F64) : Bool := !isNan a && !isNan b && decide (orderKey a = orderKey b)

/-! ### Arithmetic (R10, R13) -/

/-- The sign changed. -/
def fneg (x : F64) : F64 := packBits (!signBit x) (magBits x)

/-- The pattern nearest to a signed number of units that is not zero. -/
def roundInt (z : Int) : F64 := packBits (decide (z < 0)) (roundDiv z.natAbs 1)

/-- IEEE addition. An exact zero sum is +0.0 unless both operands are negative zeros. -/
def fadd (a b : F64) : F64 :=
  if isNan a || isNan b then nanOf a b
  else if isInf a then (if isInf b && signBit a != signBit b then nanOf a b else a)
  else if isInf b then b
  else
    let z := signedUnits a + signedUnits b
    if z = 0 then zeroOf (signBit a && signBit b) else roundInt z

/-- IEEE subtraction. -/
def fsub (a b : F64) : F64 :=
  if isNan a || isNan b then nanOf a b else fadd a (fneg b)

/-- IEEE multiplication. -/
def fmul (a b : F64) : F64 :=
  let s := signBit a != signBit b
  if isNan a || isNan b then nanOf a b
  else if isInf a then (if units b = 0 then nanOf a b else infOf s)
  else if isInf b then (if units a = 0 then nanOf a b else infOf s)
  else packBits s (roundDiv (units a * units b) oneUnits)

/-- IEEE division. -/
def fdiv (a b : F64) : F64 :=
  let s := signBit a != signBit b
  if isNan a || isNan b then nanOf a b
  else if isInf a then (if isInf b then nanOf a b else infOf s)
  else if isInf b then zeroOf s
  else if units b = 0 then (if units a = 0 then nanOf a b else infOf s)
  else packBits s (roundDiv (units a * oneUnits) (units b))

/-- The whole square root of `n`, for `n < 4 ^ fuel`, one base-4 digit of `n` at a time. -/
def isqrt : Nat → Nat → Nat
  | 0, _ => 0
  | fuel + 1, n =>
    let r := 2 * isqrt fuel (n / 4)
    if (r + 1) * (r + 1) ≤ n then r + 1 else r

/-- The magnitude bits nearest to the square root of `u` units. The square of the root, in square units, is
`n = u * 2^1074`; 81 or more leading bits of the root decide the rounding together with whether any bit follows
them. -/
def sqrtMag (u : Nat) : Nat :=
  let n := u * oneUnits
  let h := (n.log2 - 160) / 2
  let t := isqrt 82 (n / 4 ^ h)
  let more := if t * 2 ^ h * (t * 2 ^ h) = n then 0 else 1
  roundDiv ((2 * t + more) * 2 ^ h) 2

/-- IEEE square root, correctly rounded; a negative zero is its own root. -/
def fsqrt (x : F64) : F64 :=
  if isNan x then nanOf x x
  else if units x = 0 ∧ isFinite x then x
  else if signBit x then nanOf x x
  else if isInf x then x
  else packBits false (sqrtMag (units x))

/-- `floor(x)`, the largest integral value at most `x` (R13: exact). PRESUMED, from IEEE 754's rounding to an integral
value: a zero result keeps the sign of `x`, an infinity is its own floor, and the floor of a NaN is a NaN, whose sign
and payload are free (log entries 16 and 5). -/
def ffloor (x : F64) : F64 :=
  if isNan x then nanOf x x
  else if isInf x then x
  else
    let z := signedUnits x / (oneUnits : Int) * (oneUnits : Int)
    if z = 0 then zeroOf (signBit x) else roundInt z

/-! ### Constants -/

/-- +0.0 -/
def zero : F64 := 0x0000000000000000#64
/-- 0.5 -/
def half : F64 := 0x3FE0000000000000#64
/-- 1.0 -/
def one : F64 := 0x3FF0000000000000#64
/-- 5.0, the fixed LFO frequency in Hz (00_scope.md R7; 10_state.md R23). -/
def five : F64 := 0x4014000000000000#64
/-- 100.0, the vibrato divisor (00_scope.md R7). -/
def hundred : F64 := 0x4059000000000000#64
/-- TWO_PI, the binary64 nearest to 2π (00_scope.md R13). -/
def twoPi : F64 := 0x401921FB54442D18#64

end Sys2Proof.Machine
end

