-- ==== Sys2Proof/Syntax.lean ====
section
/-! DEFINITION. The commands of the block, one constructor per row of spec/opcode_table.json
(30_encoding.md R84), each with its decoded operands (R83). -/

namespace Sys2Proof

/-- The operand forms (30_encoding.md R83). -/
inductive Form where
  | f64
  | notev
  | note
  | sel
  | idx
  | none
deriving DecidableEq, Repr

/-- The thirteen commands (30_encoding.md R84). The operand types carry the widths of R83, so every value of
every field is an operand that some command word has; checks of operand VALUES belong to the commands. -/
inductive Instr where
  /-- NOP (42_voice.md R168). -/
  | nop
  /-- SET_FREQ f (40_oscillator.md R112). -/
  | setFreq (f : F64)
  /-- NOTE_ON note, velocity (42_voice.md R163). -/
  | noteOn (note : Note) (vel : Velocity)
  /-- NOTE_OFF note (41_envelope.md R136). -/
  | noteOff (note : Note)
  /-- TICK sr (42_voice.md R165). -/
  | tick (sr : F64)
  /-- PRUNE (42_voice.md R167). -/
  | prune
  /-- WR_ATTACK x (43_registers.md R190). -/
  | wrAttack (x : F64)
  /-- WR_DECAY x (43_registers.md R191). -/
  | wrDecay (x : F64)
  /-- WR_SUSTAIN x (43_registers.md R192). -/
  | wrSustain (x : F64)
  /-- WR_RELEASE x (43_registers.md R193). -/
  | wrRelease (x : F64)
  /-- WR_OSCSEL wave, carrier (43_registers.md R194); carrier 3 is an operand the command itself rejects. -/
  | wrOscsel (wave carrier : BitVec 2)
  /-- READ index (43_registers.md R196); an index above 0x14 is an operand the command itself rejects. -/
  | read (idx : RegIndex)
  /-- CLR_ERR (43_registers.md R197). -/
  | clrErr
deriving DecidableEq, Repr

end Sys2Proof
end

