-- ==== Sys2Proof/Machine/State.lean ====
section
/-! DEFINITION. The state of one block: the registers of 10_state.md R22, and the two ends of its port
(30_encoding.md R80). Everything is plain data. -/

namespace Sys2Proof.Machine

/-- The envelope stages, in the order of the source's state machine (10_state.md R26). -/
inductive Stage where
  | attack
  | decay
  | sustain
  | release
  | done
deriving DecidableEq, Repr

/-- A waveform with an output stage of its own (40_oscillator.md R104); also what a vibrato may carry
(10_state.md R25). -/
inductive BaseWave where
  | ramp
  | sine
  | square
deriving DecidableEq, Repr

/-- The four waveforms of the field WAVE (10_state.md R25). -/
inductive Wave where
  | plain (w : BaseWave)
  | vibrato
deriving DecidableEq, Repr

/-- CFG_OSCSEL and OSC_SEL (10_state.md R25). CARRIER = 3 is "never held", so the type has no value for it. -/
structure OscSel where
  wave : Wave
  carrier : BaseWave
deriving DecidableEq, Repr

/-- The registers of one block (10_state.md R21, R22). STATUS is held as its five fields (R24); the constants
LFO_FREQ and GAIN are no state (R23). -/
structure Regs where
  /-- STATUS.LIVE: a voice is present. -/
  live : Bool
  /-- STATUS.STAGE: the envelope stage. -/
  stage : Stage
  /-- STATUS.NOTE: the note the voice serves. -/
  note : Note
  /-- STATUS.ERR: an error occurred since the last clear. -/
  err : Bool
  /-- STATUS.ERR_CODE: the code of the first error since the last clear. -/
  errCode : BitVec 8
  /-- CFG_OSCSEL: waveform for the next construction. -/
  cfgOscsel : OscSel
  /-- CFG_ATTACK: staged attack, seconds, any bits. -/
  cfgAttack : F64
  /-- CFG_DECAY: staged decay, seconds, any bits. -/
  cfgDecay : F64
  /-- CFG_SUSTAIN: staged sustain level, any bits. -/
  cfgSustain : F64
  /-- CFG_RELEASE: staged release, seconds, any bits. -/
  cfgRelease : F64
  /-- OSC_SEL: waveform of the voice. -/
  oscSel : OscSel
  /-- BASE_FREQ: the frequency last set. -/
  baseFreq : F64
  /-- RAMP_FREQ: the frequency the ramp advances by. -/
  rampFreq : F64
  /-- RAMP_PHASE: phase ratio of the ramp. -/
  rampPhase : F64
  /-- LFO_PHASE: phase ratio of the 5 Hz LFO's ramp. -/
  lfoPhase : F64
  /-- ENV_ATTACK: latched attack. -/
  envAttack : F64
  /-- ENV_DECAY: latched decay. -/
  envDecay : F64
  /-- ENV_SUSTAIN: latched sustain level. -/
  envSustain : F64
  /-- ENV_RELEASE: latched release. -/
  envRelease : F64
  /-- ENV_VALUE: last emitted scalar. -/
  envValue : F64
  /-- ENV_TIME_LEFT: seconds left of a timed stage. -/
  envTimeLeft : F64
  /-- ENV_ATK_START: the attack's start value. -/
  envAtkStart : F64
  /-- ENV_REL_START: the release's start value. -/
  envRelStart : F64
deriving DecidableEq, Repr

/-- SINE with carrier SINE, the reset value 0x5 of CFG_OSCSEL and OSC_SEL (10_state.md R32). -/
def OscSel.reset : OscSel := { wave := .plain .sine, carrier := .sine }

/-- Every register at its reset value (10_state.md R32, 70_reset_and_hazards.md R250). -/
def Regs.reset : Regs where
  live := false
  stage := .done
  note := 0#7
  err := false
  errCode := 0x00#8
  cfgOscsel := OscSel.reset
  cfgAttack := 0x3FF0000000000000#64
  cfgDecay := 0x4000000000000000#64
  cfgSustain := 0x3FE8000000000000#64
  cfgRelease := 0x3FF0000000000000#64
  oscSel := OscSel.reset
  baseFreq := 0#64
  rampFreq := 0#64
  rampPhase := 0#64
  lfoPhase := 0#64
  envAttack := 0#64
  envDecay := 0#64
  envSustain := 0#64
  envRelease := 0#64
  envValue := 0#64
  envTimeLeft := 0#64
  envAtkStart := 0#64
  envRelStart := 0#64

/-- What reaches the block from outside: a command word on the command port (30_encoding.md R80), or an assertion
of the reset input, which takes effect between commands (70_reset_and_hazards.md R251). -/
inductive PortInput where
  | command (w : Command)
  | reset
deriving DecidableEq, Repr

/-- A response: STATUS_CODE, RESP[71:64], and DATA, RESP[63:0] (30_encoding.md R81). -/
structure Response where
  code : BitVec 8
  data : BitVec 64
deriving DecidableEq, Repr

/-- The state of one block and of its port. `pending` and `responses` are the model's own view of the transactions
(log entry 1), not registers: what the issuer presents next, oldest first, and what the block has returned,
newest first. -/
structure State where
  regs : Regs
  pending : List PortInput
  responses : List Response
deriving DecidableEq, Repr

/-- The block right after reset: every register at its reset value (10_state.md R32), nothing presented yet and
nothing answered yet (log entry 1). -/
def State.reset : State where
  regs := Regs.reset
  pending := []
  responses := []

/-- Reasons to stop with a fault. There is none: "The block never hangs, halts or produces a non-finite sample in
response to any command sequence" (60_exceptions.md R224), and a rejected command is answered and the machine goes
on (R222). -/
inductive Fault where
deriving DecidableEq, Repr

/-- Reasons to refuse. -/
inductive Refusal where
  /-- Raised by an arm of `exec` whose instruction has no meaning yet; safe. No arm raises it: all thirteen commands
  have their meaning. -/
  | notModelled (mnemonic : String)
deriving DecidableEq, Repr

end Sys2Proof.Machine
end

