-- ==== Sys2Proof/Machine/Operands.lean ====
section
/-! DEFINITION. The decoded operand values: the selector codes of the form SEL, the READ index space of the form
IDX, and the validity checks of the form F64's values (30_encoding.md R83; 10_state.md R22, R23, R25, R26). -/

namespace Sys2Proof.Machine

/-! ### Selector codes (10_state.md R25, R26) -/

/-- The 2-bit code of a waveform with its own output stage. -/
def BaseWave.code : BaseWave → BitVec 2
  | .ramp => 0#2
  | .sine => 1#2
  | .square => 2#2

/-- The 2-bit code of WAVE. -/
def Wave.code : Wave → BitVec 2
  | .plain w => w.code
  | .vibrato => 3#2

/-- The waveform of a CARRIER code; none for the reserved code 3. -/
def BaseWave.ofCode (c : BitVec 2) : Option BaseWave :=
  if c = 0#2 then some .ramp
  else if c = 1#2 then some .sine
  else if c = 2#2 then some .square
  else none

/-- The waveform of a WAVE code. -/
def Wave.ofCode (c : BitVec 2) : Wave :=
  match BaseWave.ofCode c with
  | some w => .plain w
  | none => .vibrato

/-- The 4 bits of CFG_OSCSEL and OSC_SEL: CARRIER in bits 3:2, WAVE in bits 1:0. -/
def OscSel.bits (o : OscSel) : BitVec 4 := o.carrier.code ++ o.wave.code

/-- The 3-bit code of STAGE. -/
def Stage.code : Stage → BitVec 3
  | .attack => 0#3
  | .decay => 1#3
  | .sustain => 2#3
  | .release => 3#3
  | .done => 4#3

/-! ### The READ index space (10_state.md R22, R23; 20_memory.md R60, R65) -/

/-- The readable registers and constants. -/
inductive RegName where
  | status
  | cfgOscsel
  | cfgAttack
  | cfgDecay
  | cfgSustain
  | cfgRelease
  | oscSel
  | baseFreq
  | rampFreq
  | rampPhase
  | lfoPhase
  | envAttack
  | envDecay
  | envSustain
  | envRelease
  | envValue
  | envTimeLeft
  | envAtkStart
  | envRelStart
  | lfoFreq
  | gain
deriving DecidableEq, Repr

/-- The registers in the order of their indices, 0x00 to 0x14. -/
def regsByIndex : List RegName :=
  [.status, .cfgOscsel, .cfgAttack, .cfgDecay, .cfgSustain, .cfgRelease, .oscSel] ++
  [.baseFreq, .rampFreq, .rampPhase, .lfoPhase, .envAttack, .envDecay, .envSustain] ++
  [.envRelease, .envValue, .envTimeLeft, .envAtkStart, .envRelStart, .lfoFreq, .gain]

/-- The register at a READ index; none for the reserved indices 0x15 to 0xFF. -/
def RegName.ofIndex (i : RegIndex) : Option RegName := regsByIndex[i.toNat]?

/-! ### Validity checks -/

/-- `validFreq(f)` (40_oscillator.md R110). -/
def validFreq (c : Config) (f : F64) : Bool := isFinite f && flt zero f && fle f c.freqMax

/-- `validSr(sr)` (40_oscillator.md R111). -/
def validSr (c : Config) (sr : F64) : Bool := isFinite sr && fle c.srMin sr && fle sr c.srMax

/-- A legal duration: finite and `>= 0.0`, so `-0.0` passes (42_voice.md R161). -/
def validDuration (x : F64) : Bool := isFinite x && fle zero x

/-- A legal level: finite and in [0, 1] (42_voice.md R161). -/
def validLevel (x : F64) : Bool := isFinite x && fle zero x && fle x one

/-- `validEnv()` (42_voice.md R161). -/
def validEnv (r : Regs) : Bool :=
  validDuration r.cfgAttack && validDuration r.cfgDecay && validDuration r.cfgRelease && validLevel r.cfgSustain

end Sys2Proof.Machine
end

