-- ==== Sys2Proof/Machine/Flags.lean ====
section
/-! DEFINITION. STATUS: its packing for READ (10_state.md R24), the error codes (60_exceptions.md R220) and the
sticky error (R222, 43_registers.md R197). -/

namespace Sys2Proof.Machine

/-- The 8-bit value of an error code (60_exceptions.md R220). -/
def errorCodeBits : ErrorCode → BitVec 8
  | .illegalOpcode => 0x01#8
  | .reservedOperand => 0x02#8
  | .noVoice => 0x03#8
  | .voiceBusy => 0x04#8
  | .noteMismatch => 0x05#8
  | .badFrequency => 0x06#8
  | .badSampleRate => 0x07#8
  | .badEnvParam => 0x08#8
  | .badOscsel => 0x09#8
  | .badRegIndex => 0x0A#8

/-- STATUS as READ returns it (10_state.md R24): bits 63:32 reserved, ERR_CODE 31:24, 23:17 reserved, ERR 16,
15 reserved, NOTE 14:8, 7 reserved, STAGE 6:4, 3:1 reserved, LIVE 0. -/
def statusWord (r : Regs) : BitVec 64 :=
  0#32 ++ r.errCode ++ 0#7 ++ BitVec.ofBool r.err ++ 0#1 ++ r.note ++ 0#1 ++ r.stage.code ++ 0#3 ++
    BitVec.ofBool r.live

/-- The effect of an error on the registers (60_exceptions.md R222): the first code since the last clear stays. -/
def recordError (code : ErrorCode) (r : Regs) : Regs :=
  if r.err then r else { r with err := true, errCode := errorCodeBits code }

/-- The error cleared (43_registers.md R197, 60_exceptions.md R227). -/
def clearError (r : Regs) : Regs := { r with err := false, errCode := 0x00#8 }

end Sys2Proof.Machine
end

