-- ==== Sys2Proof/Machine/Ops.lean ====
section
/-! DEFINITION. The operations every command shares: what a command does to the registers, how it is answered
(30_encoding.md R81), and what a rejection does (60_exceptions.md R222), which is this block's whole exception
mechanism (R227); its return, CLR_ERR, rests on `clearError` in Flags.lean. -/

namespace Sys2Proof.Machine

/-- What a command comes to: accepted, with the registers it leaves and its response data (`respond`, 00_scope.md
R14), or rejected with an error code (`reject`). A rejected command names no registers, so no part of it can be
written (60_exceptions.md R222: "Rejection is precise"). -/
inductive Effect where
  | accept (r : Regs) (data : BitVec 64)
  | reject (code : ErrorCode)
deriving DecidableEq, Repr

/-- The response of a rejection: the code, and DATA zero (60_exceptions.md R222). -/
def rejection (code : ErrorCode) : Response := { code := errorCodeBits code, data := 0#64 }

/-- The response of an accepted command: OK and its data (30_encoding.md R81). -/
def acceptance (data : BitVec 64) : Response := { code := 0x00#8, data := data }

/-- TAKING AN ERROR, the one shared operation: the sticky error is recorded and the rejection is returned; every other
register stays (60_exceptions.md R222). -/
def State.takeError (code : ErrorCode) (s : State) : State :=
  { s with regs := recordError code s.regs, responses := rejection code :: s.responses }

/-- A command performed and answered, in one step (20_memory.md R64): exactly one response (30_encoding.md R80). -/
def State.answer (s : State) : Effect → State
  | .accept r data => { s with regs := r, responses := acceptance data :: s.responses }
  | .reject code => s.takeError code

/-- A command whose effect is given, as a meaning's outcome. -/
def perform (e : Regs → Effect) (s : State) : Host.Outcome State Fault Refusal :=
  .next (s.answer (e s.regs))

/-- The 72 bits of a response: STATUS_CODE ++ DATA (30_encoding.md R81). -/
def Response.word (p : Response) : BitVec 72 := p.code ++ p.data

/-- Reading a register or a constant (43_registers.md R196; 10_state.md R23 to R25). -/
def regValue (c : Config) (r : Regs) : RegName → BitVec 64
  | .status => statusWord r
  | .cfgOscsel => r.cfgOscsel.bits.setWidth 64
  | .cfgAttack => r.cfgAttack
  | .cfgDecay => r.cfgDecay
  | .cfgSustain => r.cfgSustain
  | .cfgRelease => r.cfgRelease
  | .oscSel => r.oscSel.bits.setWidth 64
  | .baseFreq => r.baseFreq
  | .rampFreq => r.rampFreq
  | .rampPhase => r.rampPhase
  | .lfoPhase => r.lfoPhase
  | .envAttack => r.envAttack
  | .envDecay => r.envDecay
  | .envSustain => r.envSustain
  | .envRelease => r.envRelease
  | .envValue => r.envValue
  | .envTimeLeft => r.envTimeLeft
  | .envAtkStart => r.envAtkStart
  | .envRelStart => r.envRelStart
  | .lfoFreq => five
  | .gain => c.gain

end Sys2Proof.Machine
end

