-- ==== Sys2Proof/Machine/Mtof.lean ====
section
/-! DEFINITION. The reference instance of P_MTOF, the note-to-frequency table of 42_voice.md R162: the correctly
rounded binary64 value of 440 * 2^((n - 69) / 12), transcribed entry by entry. -/

namespace Sys2Proof.Machine

/-- P_MTOF[0] to P_MTOF[15] (R162). -/
def mtofRows0 : List F64 :=
  [0x40205A0250C2B956#64, 0x402152EC0E758E6F#64, 0x40225AA2E3AF0B21#64, 0x4023720820155764#64,
   0x40249A0A791E127B#64, 0x4025D3A6D600CABC#64, 0x40271FE927CA0DE9#64, 0x40287FED4E47ADFF#64,
   0x4029F4E00A91D08E#64, 0x402B800000000000#64, 0x402D229EC465C8A2#64, 0x402EDE22007F791A#64,
   0x40305A0250C2B956#64, 0x403152EC0E758E6F#64, 0x40325AA2E3AF0B21#64, 0x4033720820155764#64]

/-- P_MTOF[16] to P_MTOF[31] (R162). -/
def mtofRows1 : List F64 :=
  [0x40349A0A791E127B#64, 0x4035D3A6D600CABC#64, 0x40371FE927CA0DE9#64, 0x40387FED4E47ADFF#64,
   0x4039F4E00A91D08E#64, 0x403B800000000000#64, 0x403D229EC465C8A2#64, 0x403EDE22007F791A#64,
   0x40405A0250C2B956#64, 0x404152EC0E758E6F#64, 0x40425AA2E3AF0B21#64, 0x4043720820155764#64,
   0x40449A0A791E127B#64, 0x4045D3A6D600CABC#64, 0x40471FE927CA0DE9#64, 0x40487FED4E47ADFF#64]

/-- P_MTOF[32] to P_MTOF[47] (R162). -/
def mtofRows2 : List F64 :=
  [0x4049F4E00A91D08E#64, 0x404B800000000000#64, 0x404D229EC465C8A2#64, 0x404EDE22007F791A#64,
   0x40505A0250C2B956#64, 0x405152EC0E758E6F#64, 0x40525AA2E3AF0B21#64, 0x4053720820155764#64,
   0x40549A0A791E127B#64, 0x4055D3A6D600CABC#64, 0x40571FE927CA0DE9#64, 0x40587FED4E47ADFF#64,
   0x4059F4E00A91D08E#64, 0x405B800000000000#64, 0x405D229EC465C8A2#64, 0x405EDE22007F791A#64]

/-- P_MTOF[48] to P_MTOF[63] (R162). -/
def mtofRows3 : List F64 :=
  [0x40605A0250C2B956#64, 0x406152EC0E758E6F#64, 0x40625AA2E3AF0B21#64, 0x4063720820155764#64,
   0x40649A0A791E127B#64, 0x4065D3A6D600CABC#64, 0x40671FE927CA0DE9#64, 0x40687FED4E47ADFF#64,
   0x4069F4E00A91D08E#64, 0x406B800000000000#64, 0x406D229EC465C8A2#64, 0x406EDE22007F791A#64,
   0x40705A0250C2B956#64, 0x407152EC0E758E6F#64, 0x40725AA2E3AF0B21#64, 0x4073720820155764#64]

/-- P_MTOF[64] to P_MTOF[79] (R162). -/
def mtofRows4 : List F64 :=
  [0x40749A0A791E127B#64, 0x4075D3A6D600CABC#64, 0x40771FE927CA0DE9#64, 0x40787FED4E47ADFF#64,
   0x4079F4E00A91D08E#64, 0x407B800000000000#64, 0x407D229EC465C8A2#64, 0x407EDE22007F791A#64,
   0x40805A0250C2B956#64, 0x408152EC0E758E6F#64, 0x40825AA2E3AF0B21#64, 0x4083720820155764#64,
   0x40849A0A791E127B#64, 0x4085D3A6D600CABC#64, 0x40871FE927CA0DE9#64, 0x40887FED4E47ADFF#64]

/-- P_MTOF[80] to P_MTOF[95] (R162). -/
def mtofRows5 : List F64 :=
  [0x4089F4E00A91D08E#64, 0x408B800000000000#64, 0x408D229EC465C8A2#64, 0x408EDE22007F791A#64,
   0x40905A0250C2B956#64, 0x409152EC0E758E6F#64, 0x40925AA2E3AF0B21#64, 0x4093720820155764#64,
   0x40949A0A791E127B#64, 0x4095D3A6D600CABC#64, 0x40971FE927CA0DE9#64, 0x40987FED4E47ADFF#64,
   0x4099F4E00A91D08E#64, 0x409B800000000000#64, 0x409D229EC465C8A2#64, 0x409EDE22007F791A#64]

/-- P_MTOF[96] to P_MTOF[111] (R162). -/
def mtofRows6 : List F64 :=
  [0x40A05A0250C2B956#64, 0x40A152EC0E758E6F#64, 0x40A25AA2E3AF0B21#64, 0x40A3720820155764#64,
   0x40A49A0A791E127B#64, 0x40A5D3A6D600CABC#64, 0x40A71FE927CA0DE9#64, 0x40A87FED4E47ADFF#64,
   0x40A9F4E00A91D08E#64, 0x40AB800000000000#64, 0x40AD229EC465C8A2#64, 0x40AEDE22007F791A#64,
   0x40B05A0250C2B956#64, 0x40B152EC0E758E6F#64, 0x40B25AA2E3AF0B21#64, 0x40B3720820155764#64]

/-- P_MTOF[112] to P_MTOF[127] (R162). -/
def mtofRows7 : List F64 :=
  [0x40B49A0A791E127B#64, 0x40B5D3A6D600CABC#64, 0x40B71FE927CA0DE9#64, 0x40B87FED4E47ADFF#64,
   0x40B9F4E00A91D08E#64, 0x40BB800000000000#64, 0x40BD229EC465C8A2#64, 0x40BEDE22007F791A#64,
   0x40C05A0250C2B956#64, 0x40C152EC0E758E6F#64, 0x40C25AA2E3AF0B21#64, 0x40C3720820155764#64,
   0x40C49A0A791E127B#64, 0x40C5D3A6D600CABC#64, 0x40C71FE927CA0DE9#64, 0x40C87FED4E47ADFF#64]

/-- P_MTOF, 128 entries (R162). -/
def mtofTable : List F64 :=
  mtofRows0 ++ mtofRows1 ++ mtofRows2 ++ mtofRows3 ++ mtofRows4 ++ mtofRows5 ++ mtofRows6 ++ mtofRows7

/-- The frequency of a note, `P_MTOF[n]` (R162). -/
def mtofRef (n : Note) : F64 := mtofTable.getD n.toNat 0#64

end Sys2Proof.Machine
end

