-- ==== Sys2Proof/Machine/Sine.lean ====
section
/-! DEFINITION. The reference instance of P_SIN (00_scope.md R8): the binary64 nearest to the real sine of the
real value of its argument, computed from the exact sum of the sine series. -/

namespace Sys2Proof.Machine

/-- The tail of the sine series from its `k`-th factor on, as an exact fraction (numerator, denominator), for an
argument of `x` units: `1 - x²/((2k)(2k+1)) * (the tail from k+1)`, with `terms` factors kept. -/
def sineTail (x : Nat) : Nat → Nat → Int × Nat
  | 0, _ => (1, 1)
  | terms + 1, k =>
    let p := sineTail x terms (k + 1)
    let d : Nat := 2 ^ 2148 * (2 * k * (2 * k + 1)) * p.2
    ((d : Int) - ((x * x : Nat) : Int) * p.1, d)

/-- How many factors of the series the reference sine keeps. Below 8.0 the terms left out sum to less than
2^-300 (log entry 4). -/
def sineTerms : Nat := 60

/-- The sum of the series at `x` units, as an exact fraction of units. -/
def sineSum (x : Nat) : Int × Nat :=
  let p := sineTail x sineTerms 1
  ((x : Int) * p.1, p.2)

/-- The reference P_SIN: the series rounded to nearest even, never above 1.0 in magnitude, odd in its argument, and
`+0.0` at `+0.0` (R8 S1, S2). At arguments of magnitude 8.0 or more, which no run produces, a free value. -/
def sineRef (x : F64) : F64 :=
  if isFinite x ∧ units x < 8 * oneUnits then
    let p := sineSum (units x)
    packBits (signBit x != decide (p.1 < 0)) (min (roundDiv p.1.natAbs p.2) (magBits one))
  else Config.sineBeyond x

end Sys2Proof.Machine
end

