-- ==== Sys2Proof/Machine/Reference.lean ====
section
/-! DEFINITION. The reference configuration: every parameter of 00_scope.md R7 at its default. The machine of
this model runs at it; the shared operations take any configuration. Log entry 3. -/

namespace Sys2Proof.Machine

/-- The spec's reference instance (00_scope.md R7): P_GAIN 0.3, P_FREQ_MAX 2^20, P_SR_MIN 1.0, P_SR_MAX 2^24, the
correctly rounded sine (R8) and the equal-tempered table (42_voice.md R162). -/
def reference : Config where
  gain := 0x3FD3333333333333#64
  sin := sineRef
  mtof := mtofRef
  freqMax := 0x4130000000000000#64
  srMin := 0x3FF0000000000000#64
  srMax := 0x4170000000000000#64

end Sys2Proof.Machine
end

