-- ==== Sys2Proof/Machine/Registers.lean ====
section
/-! DEFINITION. Configuration writes, READ and CLR_ERR (43_registers.md). -/

namespace Sys2Proof.Machine

/-- WR_OSCSEL (43_registers.md R194): CARRIER = 3 is rejected whatever WAVE is. -/
def wrOscselEffect (wave carrier : BitVec 2) (r : Regs) : Effect :=
  match BaseWave.ofCode carrier with
  | none => .reject .badOscsel
  | some k => .accept { r with cfgOscsel := { wave := Wave.ofCode wave, carrier := k } } 0#64

/-- READ for a configuration (R196): the value before the READ, no side effect. -/
def readEffect (c : Config) (i : RegIndex) (r : Regs) : Effect :=
  match RegName.ofIndex i with
  | none => .reject .badRegIndex
  | some name => .accept r (regValue c r name)

/-- WR_ATTACK (R190): every bit pattern is stored. -/
def execWrAttack (x : F64) (s : State) : Host.Outcome State Fault Refusal :=
  perform (fun r => .accept { r with cfgAttack := x } 0#64) s

/-- WR_DECAY (R191): every bit pattern is stored. -/
def execWrDecay (x : F64) (s : State) : Host.Outcome State Fault Refusal :=
  perform (fun r => .accept { r with cfgDecay := x } 0#64) s

/-- WR_SUSTAIN (R192): every bit pattern is stored. -/
def execWrSustain (x : F64) (s : State) : Host.Outcome State Fault Refusal :=
  perform (fun r => .accept { r with cfgSustain := x } 0#64) s

/-- WR_RELEASE (R193): every bit pattern is stored. -/
def execWrRelease (x : F64) (s : State) : Host.Outcome State Fault Refusal :=
  perform (fun r => .accept { r with cfgRelease := x } 0#64) s

/-- WR_OSCSEL (R194). -/
def execWrOscsel (wave carrier : BitVec 2) (s : State) : Host.Outcome State Fault Refusal :=
  perform (wrOscselEffect wave carrier) s

/-- READ (R196). -/
def execRead (i : RegIndex) (s : State) : Host.Outcome State Fault Refusal :=
  perform (readEffect reference i) s

/-- CLR_ERR (R197). -/
def execClrErr (s : State) : Host.Outcome State Fault Refusal :=
  perform (fun r => .accept (clearError r) 0#64) s

end Sys2Proof.Machine
end

