-- ==== Sys2Proof/Machine/Envelope.lean ====
section
/-! DEFINITION. The envelope generator and NOTE_OFF (41_envelope.md). -/

namespace Sys2Proof.Machine

/-- `ease(start, target, tl, total)` (41_envelope.md R131): one IEEE operation a line. -/
def ease (start target tl total : F64) : F64 :=
  let q := fdiv tl total
  let u := fsub one q
  let e := fsqrt u
  let d := fsub target start
  fadd start (fmul d e)

/-- The timed stages (10_state.md R26). -/
def Stage.timed : Stage → Bool
  | .attack => true
  | .decay => true
  | .sustain => false
  | .release => true
  | .done => false

/-- `stageTotal(STAGE)` of a timed stage (10_state.md R27); none for SUSTAIN and DONE. -/
def stageTotal (r : Regs) : Option F64 :=
  match r.stage with
  | .attack => some r.envAttack
  | .decay => some r.envDecay
  | .sustain => none
  | .release => some r.envRelease
  | .done => none

/-- `stageValue()` (41_envelope.md R132; starts and targets of 10_state.md R27). -/
def stageValue (r : Regs) : F64 :=
  match r.stage with
  | .attack => ease r.envAtkStart one r.envTimeLeft r.envAttack
  | .decay => ease one r.envSustain r.envTimeLeft r.envDecay
  | .sustain => r.envSustain
  | .release => ease r.envRelStart zero r.envTimeLeft r.envRelease
  | .done => zero

/-- One pass of the loop of 41_envelope.md R133: the next stage (10_state.md R28); only ATTACK to DECAY carries the
overshoot into the new stage's time (R134). -/
def leaveStage (r : Regs) : Regs :=
  match r.stage with
  | .attack => { r with stage := .decay, envTimeLeft := fadd r.envTimeLeft r.envDecay }
  | .decay => { r with stage := .sustain }
  | .sustain => r
  | .release => { r with stage := .done }
  | .done => r

/-- The condition of the loop of R133: a timed stage whose time has crossed below zero. -/
def overdue (r : Regs) : Bool := r.stage.timed && flt r.envTimeLeft zero

/-- The loop of R133 with at most `fuel` passes. -/
def passStages : Nat → Regs → Regs
  | 0, r => r
  | fuel + 1, r => if overdue r then passStages fuel (leaveStage r) else r

/-- The envelope's time advanced by one sample and its stage moved on (R133). Two passes of the loop always suffice
("The loop runs at most twice"). -/
def envAdvance (sr : F64) (r : Regs) : Regs :=
  if r.stage.timed then
    passStages 2 { r with envTimeLeft := fsub r.envTimeLeft (fdiv one sr) }
  else r

/-- `envNext(sr)` (R133): decrement, then advance, then compute the value. -/
def envNext (sr : F64) (r : Regs) : Regs × F64 :=
  let r' := envAdvance sr r
  ({ r' with envValue := stageValue r' }, stageValue r')

/-- The release begun from the last emitted value (R136). -/
def beginRelease (r : Regs) : Regs :=
  { r with stage := .release, envTimeLeft := r.envRelease, envRelStart := r.envValue }

/-- NOTE_OFF's effect on the envelope (R136): from ATTACK, DECAY and SUSTAIN; nothing in RELEASE and DONE
(90_conflicts.md C2). -/
def releaseVoice (r : Regs) : Regs :=
  match r.stage with
  | .attack => beginRelease r
  | .decay => beginRelease r
  | .sustain => beginRelease r
  | .release => r
  | .done => r

/-- NOTE_OFF (R136). -/
def noteOffEffect (n : Note) (r : Regs) : Effect :=
  if !r.live then .reject .noVoice
  else if n != r.note then .reject .noteMismatch
  else .accept (releaseVoice r) 0#64

/-- NOTE_OFF (R136). -/
def execNoteOff (n : Note) (s : State) : Host.Outcome State Fault Refusal :=
  perform (noteOffEffect n) s

end Sys2Proof.Machine
end

