-- ==== Sys2Proof/Machine/Oscillator.lean ====
section
/-! DEFINITION. The oscillator family and SET_FREQ (40_oscillator.md). -/

namespace Sys2Proof.Machine

/-- `wrap(x)` (40_oscillator.md R101). -/
def wrap (x : F64) : F64 := if fle one x then fsub x (ffloor x) else x

/-- `rampNext(phase, freq, sr)` (R102): one division, one addition, wrap. -/
def rampNext (phase freq sr : F64) : F64 := wrap (fadd phase (fdiv freq sr))

/-- The sine stage: one multiplication by TWO_PI, then P_SIN (R104, R106). -/
def sineStage (c : Config) (p : F64) : F64 := c.sin (fmul p twoPi)

/-- `waveOut(sel, p)` (R104 to R107); a phase of exactly 0.5 rounds up. -/
def waveOut (c : Config) (sel : BaseWave) (p : F64) : F64 :=
  match sel with
  | .ramp => p
  | .sine => sineStage c p
  | .square => if fle half p then one else zero

/-- The oscillator step without vibrato (R108): the phase advances, then the output is computed from the advanced
phase (R103). -/
def plainNext (c : Config) (w : BaseWave) (sr : F64) (r : Regs) : Regs × F64 :=
  let phase := rampNext r.rampPhase r.rampFreq sr
  ({ r with rampPhase := phase }, waveOut c w phase)

/-- The carrier's frequency for a given LFO phase: `BASE_FREQ + (lfo * BASE_FREQ) / 100` (R108, R109). -/
def vibratoFreq (c : Config) (lfoPhase baseFreq : F64) : F64 :=
  fadd baseFreq (fdiv (fmul (sineStage c lfoPhase) baseFreq) hundred)

/-- The oscillator step with vibrato (R108, R109): the 5 Hz LFO advances, sets the carrier's frequency, and the
carrier advances. -/
def vibratoNext (c : Config) (sr : F64) (r : Regs) : Regs × F64 :=
  let lfo := rampNext r.lfoPhase five sr
  let freq := vibratoFreq c lfo r.baseFreq
  let phase := rampNext r.rampPhase freq sr
  ({ r with lfoPhase := lfo, rampFreq := freq, rampPhase := phase }, waveOut c r.oscSel.carrier phase)

/-- `oscNext(sr)` (R108). -/
def oscNext (c : Config) (sr : F64) (r : Regs) : Regs × F64 :=
  match r.oscSel.wave with
  | .plain w => plainNext c w sr r
  | .vibrato => vibratoNext c sr r

/-- The oscillator retargeted, as SET_FREQ and a retrigger do it: BASE_FREQ always, RAMP_FREQ unless the waveform
is VIBRATO, no phase (40_oscillator.md R112, 42_voice.md R164). -/
def retarget (f : F64) (r : Regs) : Regs :=
  match r.oscSel.wave with
  | .plain _ => { r with baseFreq := f, rampFreq := f }
  | .vibrato => { r with baseFreq := f }

/-- SET_FREQ for a configuration (R112). -/
def setFreqEffect (c : Config) (f : F64) (r : Regs) : Effect :=
  if !r.live then .reject .noVoice
  else if !validFreq c f then .reject .badFrequency
  else .accept (retarget f r) 0#64

/-- SET_FREQ (R112). -/
def execSetFreq (f : F64) (s : State) : Host.Outcome State Fault Refusal :=
  perform (setFreqEffect reference f) s

end Sys2Proof.Machine
end

