-- ==== Sys2Proof/Machine/Voice.lean ====
section
/-! DEFINITION. The voice lifecycle and the sample processor: NOTE_ON, TICK, PRUNE, NOP (42_voice.md). -/

namespace Sys2Proof.Machine

/-- The envelope parameters latched from their staged copies (42_voice.md R163). -/
def latchEnv (r : Regs) : Regs :=
  { r with envAttack := r.cfgAttack, envDecay := r.cfgDecay, envSustain := r.cfgSustain, envRelease := r.cfgRelease }

/-- The part of NOTE_ON that only a construction does (R163). -/
def construct (n : Note) (f : F64) (r : Regs) : Regs :=
  { r with
    live := true, note := n, oscSel := r.cfgOscsel, baseFreq := f, rampFreq := f,
    rampPhase := zero, lfoPhase := zero, envValue := zero, envAtkStart := zero, envRelStart := zero }

/-- The part of NOTE_ON that only a retrigger does (R163, R164): the oscillator is kept and retargeted, and the
attack starts from the current value. -/
def retrigger (f : F64) (r : Regs) : Regs := { retarget f r with envAtkStart := r.envValue }

/-- The attack begun, the last lines of NOTE_ON (R163). -/
def beginAttack (r : Regs) : Regs := { r with stage := .attack, envTimeLeft := r.envAttack }

/-- NOTE_ON for a configuration (R163, R164). The velocity is carried and ignored (R171). -/
def noteOnEffect (c : Config) (n : Note) (_vel : Velocity) (r : Regs) : Effect :=
  if r.live && n != r.note then .reject .voiceBusy
  else if !validEnv r then .reject .badEnvParam
  else if r.live then .accept (beginAttack (retrigger (c.mtof n) (latchEnv r))) 0#64
  else .accept (beginAttack (construct n (c.mtof n) (latchEnv r))) 0#64

/-- The sample: `(o * e) * P_GAIN`, two multiplications (R165). -/
def sample (c : Config) (o e : F64) : F64 := fmul (fmul o e) c.gain

/-- One frame of a LIVE voice (R165): the oscillator, then the envelope. -/
def voiceNext (c : Config) (sr : F64) (r : Regs) : Regs × F64 :=
  let osc := oscNext c sr r
  let env := envNext sr osc.1
  (env.1, sample c osc.2 env.2)

/-- TICK for a configuration (R165); on a FREE block silence and no change (R166). -/
def tickEffect (c : Config) (sr : F64) (r : Regs) : Effect :=
  if !validSr c sr then .reject .badSampleRate
  else if !r.live then .accept r zero
  else .accept (voiceNext c sr r).1 (voiceNext c sr r).2

/-- PRUNE (R167). -/
def pruneEffect (r : Regs) : Effect :=
  if r.live && r.stage == .done then .accept { r with live := false } 0#64 else .accept r 0#64

/-- NOP (R168). -/
def nopEffect (r : Regs) : Effect := .accept r 0#64

/-- NOTE_ON (R163). -/
def execNoteOn (n : Note) (vel : Velocity) (s : State) : Host.Outcome State Fault Refusal :=
  perform (noteOnEffect reference n vel) s

/-- TICK (R165). -/
def execTick (sr : F64) (s : State) : Host.Outcome State Fault Refusal :=
  perform (tickEffect reference sr) s

/-- PRUNE (R167). -/
def execPrune (s : State) : Host.Outcome State Fault Refusal :=
  perform pruneEffect s

/-- NOP (R168). -/
def execNop (s : State) : Host.Outcome State Fault Refusal :=
  perform nopEffect s

end Sys2Proof.Machine
end

