-- ==== Sys2Proof/Machine/Dispatch.lean ====
section
/-! DEFINITION. One arm per command (30_encoding.md R84). -/

namespace Sys2Proof.Machine

/-- The meaning of a command, its decoding checks already passed (R85: "perform the command's rule"). -/
def exec (i : Instr) (s : State) : Host.Outcome State Fault Refusal :=
  match i with
  | .nop => Sys2Proof.Machine.execNop s
  | .setFreq f => Sys2Proof.Machine.execSetFreq f s
  | .noteOn n v => Sys2Proof.Machine.execNoteOn n v s
  | .noteOff n => Sys2Proof.Machine.execNoteOff n s
  | .tick sr => Sys2Proof.Machine.execTick sr s
  | .prune => Sys2Proof.Machine.execPrune s
  | .wrAttack x => Sys2Proof.Machine.execWrAttack x s
  | .wrDecay x => Sys2Proof.Machine.execWrDecay x s
  | .wrSustain x => Sys2Proof.Machine.execWrSustain x s
  | .wrRelease x => Sys2Proof.Machine.execWrRelease x s
  | .wrOscsel w k => Sys2Proof.Machine.execWrOscsel w k s
  | .read idx => Sys2Proof.Machine.execRead idx s
  | .clrErr => Sys2Proof.Machine.execClrErr s

end Sys2Proof.Machine
end

