-- ==== Sys2Proof/WellFormed.lean ====
section
/-! DEFINITION. Which 72-bit words are commands (30_encoding.md R83 to R86), written from the rules' own ranges
and independently of the decoder. Every term of `Instr` is well-formed by the types of its fields; what can be
ill-formed is a word. -/

namespace Sys2Proof

/-- The form of each listed opcode (30_encoding.md R84); none for the 243 reserved values (R86). -/
def opcodeForm (opc : Nat) : Option Form :=
  if opc = 0x00 ∨ opc = 0x05 ∨ opc = 0x21 then some .none
  else if opc = 0x01 ∨ opc = 0x04 ∨ (0x10 ≤ opc ∧ opc ≤ 0x13) then some .f64
  else if opc = 0x02 then some .notev
  else if opc = 0x03 then some .note
  else if opc = 0x14 then some .sel
  else if opc = 0x20 then some .idx
  else none

/-- The reserved operand bits of a form, as ranges (high, low), both included (30_encoding.md R83). -/
def Form.reservedRanges : Form → List (Nat × Nat)
  | .f64 => []
  | .notev => [(7, 7), (63, 15)]
  | .note => [(63, 7)]
  | .sel => [(63, 4)]
  | .idx => [(63, 8)]
  | .none => [(63, 0)]

/-- Bits hi down to lo of `x` are all zero. -/
def rangeClear (x : BitVec 64) (r : Nat × Nat) : Bool :=
  x.toNat / 2 ^ r.2 % 2 ^ (r.1 + 1 - r.2) == 0

/-- Check 1 of 30_encoding.md R85: the opcode is in the table of R84. -/
def opcodeListed (w : Command) : Bool :=
  (opcodeForm (w.toNat / 2 ^ 64)).isSome

/-- Check 2 of 30_encoding.md R85: no reserved bit of the opcode's form is 1. -/
def reservedClear (w : Command) : Bool :=
  match opcodeForm (w.toNat / 2 ^ 64) with
  | some form => form.reservedRanges.all (rangeClear (BitVec.ofNat 64 w.toNat))
  | none => true

/-- A word that selects a command (30_encoding.md R85). -/
def wellFormed (w : Command) : Bool :=
  opcodeListed w && reservedClear w

end Sys2Proof
end

