-- ==== Sys2Proof/Decode.lean ====
section
/-! DEFINITION. The decoder, total on every 72-bit word (30_encoding.md R82 to R87), and the encoder, written
from the same tables. -/

namespace Sys2Proof

/-- What decoding a word answers: a command, or the error code of the check that failed (R85). -/
inductive Decoded where
  | command (i : Instr)
  | rejected (code : ErrorCode)
deriving DecidableEq, Repr

/-- OPC, bits 71:64 (R82). -/
def opcField (w : Command) : BitVec 8 := w.extractLsb' 64 8

/-- OPERAND, bits 63:0 (R82). -/
def operandField (w : Command) : BitVec 64 := w.extractLsb' 0 64

/-- NOTE, operand bits 6:0 of the forms NOTEV and NOTE (R83). -/
def noteField (x : BitVec 64) : Note := x.extractLsb' 0 7

/-- VEL, operand bits 14:8 of the form NOTEV (R83). -/
def velField (x : BitVec 64) : Velocity := x.extractLsb' 8 7

/-- WAVE, operand bits 1:0 of the form SEL (R83). -/
def waveField (x : BitVec 64) : BitVec 2 := x.extractLsb' 0 2

/-- CARRIER, operand bits 3:2 of the form SEL (R83). -/
def carrierField (x : BitVec 64) : BitVec 2 := x.extractLsb' 2 2

/-- IDX, operand bits 7:0 of the form IDX (R83). -/
def idxField (x : BitVec 64) : RegIndex := x.extractLsb' 0 8

/-- A mask of the reserved operand bits of each form (R83). -/
def reservedMask : Form → BitVec 64
  | .f64 => 0x0000000000000000#64
  | .notev => 0xFFFFFFFFFFFF8080#64
  | .note => 0xFFFFFFFFFFFFFF80#64
  | .sel => 0xFFFFFFFFFFFFFFF0#64
  | .idx => 0xFFFFFFFFFFFFFF00#64
  | .none => 0xFFFFFFFFFFFFFFFF#64

/-- The second check of R85: the command, unless a reserved bit of its form is 1. -/
def checkReserved (form : Form) (x : BitVec 64) (i : Instr) : Decoded :=
  if x &&& reservedMask form = 0#64 then .command i else .rejected .reservedOperand

/-- Decoding a command word (R84, R85): first the opcode, then the reserved bits. -/
def decode (w : Command) : Decoded :=
  let opc := opcField w
  let x := operandField w
  if opc = 0x00#8 then checkReserved .none x .nop
  else if opc = 0x01#8 then checkReserved .f64 x (.setFreq x)
  else if opc = 0x02#8 then checkReserved .notev x (.noteOn (noteField x) (velField x))
  else if opc = 0x03#8 then checkReserved .note x (.noteOff (noteField x))
  else if opc = 0x04#8 then checkReserved .f64 x (.tick x)
  else if opc = 0x05#8 then checkReserved .none x .prune
  else if opc = 0x10#8 then checkReserved .f64 x (.wrAttack x)
  else if opc = 0x11#8 then checkReserved .f64 x (.wrDecay x)
  else if opc = 0x12#8 then checkReserved .f64 x (.wrSustain x)
  else if opc = 0x13#8 then checkReserved .f64 x (.wrRelease x)
  else if opc = 0x14#8 then checkReserved .sel x (.wrOscsel (waveField x) (carrierField x))
  else if opc = 0x20#8 then checkReserved .idx x (.read (idxField x))
  else if opc = 0x21#8 then checkReserved .none x .clrErr
  else .rejected .illegalOpcode

/-- The opcode of a command (R84). -/
def opcodeOf : Instr → BitVec 8
  | .nop => 0x00#8
  | .setFreq _ => 0x01#8
  | .noteOn _ _ => 0x02#8
  | .noteOff _ => 0x03#8
  | .tick _ => 0x04#8
  | .prune => 0x05#8
  | .wrAttack _ => 0x10#8
  | .wrDecay _ => 0x11#8
  | .wrSustain _ => 0x12#8
  | .wrRelease _ => 0x13#8
  | .wrOscsel _ _ => 0x14#8
  | .read _ => 0x20#8
  | .clrErr => 0x21#8

/-- The operand of a command, reserved bits zero (R83). -/
def operandOf : Instr → BitVec 64
  | .nop => 0#64
  | .setFreq f => f
  | .noteOn n v => 0#49 ++ v ++ 0#1 ++ n
  | .noteOff n => 0#57 ++ n
  | .tick sr => sr
  | .prune => 0#64
  | .wrAttack x => x
  | .wrDecay x => x
  | .wrSustain x => x
  | .wrRelease x => x
  | .wrOscsel w c => 0#60 ++ c ++ w
  | .read i => 0#56 ++ i
  | .clrErr => 0#64

/-- The command word of a command (R82). -/
def encode (i : Instr) : Command := opcodeOf i ++ operandOf i

/-- A command word from the low `nbits` bits of `w`, numbered as spec/opcode_table.json numbers them: the command
is ONE word, bit 0 its least significant bit, and the interface moves no bytes (20_memory.md R62). None where a
bit above the 72 bits of a command is 1 (R87: every command is exactly 72 bits). -/
def commandOfBits (nbits w : Nat) : Option Command :=
  if w % 2 ^ nbits < 2 ^ 72 then some (BitVec.ofNat 72 (w % 2 ^ nbits)) else none

/-- The command that the decoder reads from the word whose bits are `w`; none where it rejects the word. -/
def decodeTableWord (nbits w : Nat) : Option Instr :=
  match commandOfBits nbits w with
  | some c =>
    match decode c with
    | .command i => some i
    | .rejected _ => none
  | none => none

end Sys2Proof
end

