-- ==== Sys2Proof/Machine/Port.lean ====
section
/-! DEFINITION. The command port and the reset input as a step sees them (30_encoding.md R80; 70_reset_and_hazards.md
R250, R251). -/

namespace Sys2Proof.Machine

/-- The state with what was presented first taken off the port. -/
def State.accepted (s : State) : State := { s with pending := s.pending.tail }

/-- Reset asserted: every register to its reset value (R250). What the issuer still presents and what was already
answered are not the block's to change, and reset itself gets no response (log entry 2). -/
def State.resetRegs (s : State) : State := { s with regs := Regs.reset }

/-- A word presented as the next command. -/
def State.present (w : Command) (s : State) : State := { s with pending := .command w :: s.pending }

/-- The word that the low `nbits` bits of `w` stand for, presented as the next command; a word with a bit above the
72 of a command set is no command and presents nothing (20_memory.md R63). -/
def State.presentBits (nbits w : Nat) (s : State) : State :=
  match commandOfBits nbits w with
  | some c => s.present c
  | none => s

end Sys2Proof.Machine
end

