-- ==== Sys2Proof/Machine/Step.lean ====
section
/-! DEFINITION. One step: the next transaction or the next assertion of reset (30_encoding.md R80, R85;
70_reset_and_hazards.md R251: "A model has reset as one more step, enabled between any two commands"). -/

namespace Sys2Proof.Machine

/-- One step. With nothing presented the block is idle and stays as it is (70_reset_and_hazards.md R258; log
entry 1); a word that is no command is rejected with the code of the failed check (30_encoding.md R85). -/
def step (s : State) : Host.Outcome State Fault Refusal :=
  match s.pending with
  | [] => .next s
  | .reset :: _ => .next s.accepted.resetRegs
  | .command w :: _ =>
    match decode w with
    | .command i => exec i s.accepted
    | .rejected code => .next (s.accepted.takeError code)

/-- `s` with the word that the low `nbits` bits of `w` stand for presented as the next command. The block fetches no
program (10_state.md R20): commands come from its port, and this stands for the issuer presenting one. -/
def State.withFetchWord (s : State) (nbits w : Nat) : State := s.presentBits nbits w

end Sys2Proof.Machine
end

