-- ==== Sys2Proof/Machine/Asm.lean ====
section
/-! DEFINITION. Assembler syntax and pseudo-instructions (30_encoding.md R89, R90): one line of text to the commands
it stands for, and a command word to its 18 hex digits. Notation only; no step depends on it (log entry 12). -/

namespace Sys2Proof.Machine.Asm

/-- A source line: a command, or one of the three pseudo-instructions of R90. -/
inductive Line where
  | instr (i : Instr)
  /-- `NOTE_ON n` -/
  | noteOnOnly (n : Note)
  /-- `WR_ENV a, d, s, r` -/
  | wrEnv (a d s r : F64)
  /-- `RENDER sr, k` -/
  | render (sr : F64) (k : Nat)
deriving DecidableEq, Repr

/-- The commands a line stands for (R90). -/
def expand : Line → List Instr
  | .instr i => [i]
  | .noteOnOnly n => [.noteOn n 0#7]
  | .wrEnv a d s r => [.wrAttack a, .wrDecay d, .wrSustain s, .wrRelease r]
  | .render sr k => List.replicate k (.tick sr) ++ [.prune]

/-! ### Characters and numbers -/

/-- Blanks removed at both ends. -/
def trim (cs : List Char) : List Char :=
  ((cs.dropWhile Char.isWhitespace).reverse.dropWhile Char.isWhitespace).reverse

/-- The pieces of a text between occurrences of a character. -/
def splitAtChar (sep : Char) : List Char → List (List Char)
  | [] => [[]]
  | ch :: rest =>
    if ch = sep then [] :: splitAtChar sep rest
    else
      match splitAtChar sep rest with
      | [] => [[ch]]
      | p :: ps => (ch :: p) :: ps

/-- The value of a hexadecimal digit. -/
def hexDigit (ch : Char) : Option Nat :=
  if '0' ≤ ch ∧ ch ≤ '9' then some (ch.toNat - 48)
  else if 'A' ≤ ch ∧ ch ≤ 'F' then some (ch.toNat - 55)
  else if 'a' ≤ ch ∧ ch ≤ 'f' then some (ch.toNat - 87)
  else none

/-- A number in the given base from one or more digits. -/
def digits (base : Nat) (cs : List Char) : Option Nat :=
  if cs.isEmpty then none
  else cs.foldl (fun acc ch => match acc, hexDigit ch with
    | some n, some d => if d < base then some (base * n + d) else none
    | _, _ => none) (some 0)

/-- A natural number: decimal, or hexadecimal after `0x`. -/
def natural : List Char → Option Nat
  | '0' :: 'x' :: rest => digits 16 rest
  | cs => digits 10 cs

/-- A signed decimal exponent. -/
def exponent : List Char → Option Int
  | '-' :: rest => (digits 10 rest).map (fun n => -(n : Int))
  | '+' :: rest => (digits 10 rest).map (fun n => (n : Int))
  | cs => (digits 10 cs).map (fun n => (n : Int))

/-- The binary64 nearest to `(-1)^sign * m * 10^e`, ties to even (R89). -/
def nearestDecimal (sign : Bool) (m : Nat) (e : Int) : F64 :=
  packBits sign (roundDiv (m * 10 ^ e.toNat * oneUnits) (10 ^ (-e).toNat))

/-- An unsigned decimal literal: digits, an optional point and digits, an optional exponent. -/
def decimal (sign : Bool) (cs : List Char) : Option F64 :=
  let parts := splitAtChar 'e' (cs.map (fun ch => if ch = 'E' then 'e' else ch))
  let mantissa := splitAtChar '.' (parts.headD [])
  let whole := mantissa.headD []
  let frac := (mantissa.drop 1).headD []
  let e := match parts.drop 1 with
    | [] => some 0
    | [x] => exponent x
    | _ => none
  match digits 10 (whole ++ frac), e with
  | some m, some e =>
    if mantissa.length ≤ 2 ∧ !whole.isEmpty then some (nearestDecimal sign m (e - frac.length)) else none
  | _, _ => none

/-- An F64 operand (R89): a decimal literal, or `f64(0x<16 hex digits>)` for an exact pattern. -/
def float : List Char → Option F64
  | 'f' :: '6' :: '4' :: '(' :: '0' :: 'x' :: rest =>
    if rest.length = 17 ∧ rest.getLast? = some ')' then
      (digits 16 rest.dropLast).map (BitVec.ofNat 64)
    else none
  | '-' :: rest => decimal true rest
  | cs => decimal false cs

/-- A number below a bound, as a field of that many bits. -/
def field (w : Nat) (cs : List Char) : Option (BitVec w) :=
  match natural cs with
  | some n => if n < 2 ^ w then some (BitVec.ofNat w n) else none
  | none => none

/-- A waveform name or number of the form SEL (R89). -/
def waveName (cs : List Char) : Option (BitVec 2) :=
  if cs = "RAMP".toList then some 0#2
  else if cs = "SINE".toList then some 1#2
  else if cs = "SQUARE".toList then some 2#2
  else if cs = "VIBRATO".toList then some 3#2
  else field 2 cs

/-- The register names of 10_state.md R22 and R23, in the order of their indices. -/
def regNames : List String :=
  ["STATUS", "CFG_OSCSEL", "CFG_ATTACK", "CFG_DECAY", "CFG_SUSTAIN", "CFG_RELEASE", "OSC_SEL"] ++
  ["BASE_FREQ", "RAMP_FREQ", "RAMP_PHASE", "LFO_PHASE", "ENV_ATTACK", "ENV_DECAY", "ENV_SUSTAIN"] ++
  ["ENV_RELEASE", "ENV_VALUE", "ENV_TIME_LEFT", "ENV_ATK_START", "ENV_REL_START", "LFO_FREQ", "GAIN"]

/-- A READ operand (R89): a register name or a number. -/
def regOperand (cs : List Char) : Option RegIndex :=
  match regNames.findIdx? (fun n => n.toList == cs) with
  | some i => some (BitVec.ofNat 8 i)
  | none => field 8 cs

/-! ### Lines -/

/-- The line with the given mnemonic and operands. -/
def parseLine (m : List Char) (args : List (List Char)) : Option Line :=
  let is (name : String) : Bool := m == name.toList
  match args with
  | [] =>
    if is "NOP" then some (.instr .nop)
    else if is "PRUNE" then some (.instr .prune)
    else if is "CLR_ERR" then some (.instr .clrErr)
    else none
  | [a] =>
    if is "SET_FREQ" then (float a).map (fun x => .instr (.setFreq x))
    else if is "NOTE_ON" then (field 7 a).map .noteOnOnly
    else if is "NOTE_OFF" then (field 7 a).map (fun n => .instr (.noteOff n))
    else if is "TICK" then (float a).map (fun x => .instr (.tick x))
    else if is "WR_ATTACK" then (float a).map (fun x => .instr (.wrAttack x))
    else if is "WR_DECAY" then (float a).map (fun x => .instr (.wrDecay x))
    else if is "WR_SUSTAIN" then (float a).map (fun x => .instr (.wrSustain x))
    else if is "WR_RELEASE" then (float a).map (fun x => .instr (.wrRelease x))
    else if is "READ" then (regOperand a).map (fun i => .instr (.read i))
    else none
  | [a, b] =>
    if is "NOTE_ON" then
      match field 7 a, field 7 b with
      | some n, some v => some (.instr (.noteOn n v))
      | _, _ => none
    else if is "WR_OSCSEL" then
      match waveName a, waveName b with
      | some w, some k => some (.instr (.wrOscsel w k))
      | _, _ => none
    else if is "RENDER" then
      match float a, natural b with
      | some sr, some k => some (.render sr k)
      | _, _ => none
    else none
  | [a, b, c, d] =>
    if is "WR_ENV" then
      match float a, float b, float c, float d with
      | some a, some b, some c, some d => some (.wrEnv a b c d)
      | _, _, _, _ => none
    else none
  | _ => none

/-- One source line (R89): the mnemonic, then the operands separated by commas; `;` starts a comment. An empty line
stands for no command; a text that is no line of R89 or R90 for none at all. -/
def assemble (line : String) : Option (List Instr) :=
  let code := trim ((splitAtChar ';' line.toList).headD [])
  if code.isEmpty then some []
  else
    let m := code.takeWhile (fun ch => !ch.isWhitespace)
    let rest := trim (code.dropWhile (fun ch => !ch.isWhitespace))
    let args := if rest.isEmpty then [] else (splitAtChar ',' rest).map trim
    (parseLine m args).map expand

/-- The hexadecimal digit of a value below 16. -/
def hexChar (d : Nat) : Char := if d < 10 then Char.ofNat (48 + d) else Char.ofNat (55 + d)

/-- The lowest `n` hexadecimal digits of a number, most significant first. -/
def hexDigits : Nat → Nat → List Char
  | 0, _ => []
  | n + 1, v => hexDigits n (v / 16) ++ [hexChar (v % 16)]

/-- A command word as 18 hex digits, OPC first, an underscore after OPC (R89). -/
def wordText (w : Command) : String :=
  String.ofList (hexDigits 2 (w.toNat / 2 ^ 64) ++ '_' :: hexDigits 16 (w.toNat % 2 ^ 64))

end Sys2Proof.Machine.Asm
end

