-- ==== Sys2Proof/Machine/Bank.lean ====
section
/-! DEFINITION. A polyphonic system as far as the spec describes it: N independent instances of the block, each with
its own command port and all of its own state (00_scope.md R6, 60_exceptions.md R232). The choice of a slot, the
sum of the samples and the buffers are the surrounding system's (00_scope.md R5; log entry 10). -/

namespace Sys2Proof.Machine

/-- The instances, one per voice slot; P_VOICES is the length of the list (00_scope.md R6, R7). -/
structure Bank where
  slots : List State
deriving DecidableEq, Repr

/-- N instances after reset. -/
def Bank.reset (voices : Nat) : Bank := { slots := List.replicate voices State.reset }

/-- The state a step leaves; every step of this block answers a next state. -/
def stepState (s : State) : State :=
  match step s with
  | .next t => t
  | .fault _ => s
  | .refused _ => s

/-- The surrounding system presents a word to one slot, and that slot performs it (60_exceptions.md R232). -/
def Bank.issue (slot : Nat) (w : Command) (b : Bank) : Bank :=
  { slots := b.slots.modify slot (fun s => stepState (s.present w)) }

/-- A word presented to every slot, as PRUNE is at the end of a buffer and TICK for every frame (R232). -/
def Bank.issueAll (w : Command) (b : Bank) : Bank :=
  { slots := b.slots.map (fun s => stepState (s.present w)) }

end Sys2Proof.Machine
end

