-- ==== Sys2Proof/Safety.lean ====
section
/-! DEFINITION. The terms claims are stated in: what the spec asks of a configuration (00_scope.md R8, R9), the
invariants of the registers (10_state.md R29, R24), what a run is observed by (70_reset_and_hazards.md R258), and
the host's duties (R256), which the block does not enforce. -/

namespace Sys2Proof

open Sys2Proof.Machine

/-- What the spec requires of a configuration (00_scope.md R7 to R9). S3 holds of every Lean function. The tolerance
of M2 is a free value (log entry 15). -/
structure Config.Admissible (c : Config) : Prop where
  /-- P_GAIN is finite (R7). -/
  gainFinite : isFinite c.gain = true
  /-- S1 of R8: for every finite `x` with `0 <= x < 6.3`, P_SIN(x) is finite and in [-1.0, 1.0]. -/
  sinBounded : ∀ x : F64, isFinite x = true → fle zero x = true → flt x 0x4019333333333333#64 = true →
    isFinite (c.sin x) = true ∧ fle (fneg one) (c.sin x) = true ∧ fle (c.sin x) one = true
  /-- S2 of R8. -/
  sinZero : c.sin zero = zero
  /-- M1 of R9: note 69 is 440.0 exactly. -/
  mtofConcertA : c.mtof 69#7 = 0x407B800000000000#64
  /-- M2 of R9: note 57 is 220.0 within a tolerance. -/
  mtofOctave : (signedUnits (c.mtof 57#7) - signedUnits 0x406B800000000000#64).natAbs ≤ Config.mtofTolerance
  /-- M3 of R9: strictly increasing in the note number. -/
  mtofIncreasing : ∀ m n : Note, m.toNat < n.toNat → flt (c.mtof m) (c.mtof n) = true
  /-- M4 of R9: every entry is an accepted frequency. -/
  mtofValid : ∀ n : Note, validFreq c (c.mtof n) = true

namespace Machine

/-- A value in [0, 1), as R29 (I1) asks of a phase. -/
def inUnit (x : F64) : Bool := isFinite x && fle zero x && flt x one

/-- The registers of a voice while LIVE = 1: (I1) to (I6) of 10_state.md R29, and, so that a step keeps them, the
envelope's value and start values in [0, 1]. -/
structure VoiceInv (c : Config) (r : Regs) : Prop where
  /-- (I1) -/
  rampPhase : inUnit r.rampPhase = true
  /-- (I1) -/
  lfoPhase : inUnit r.lfoPhase = true
  /-- (I2) -/
  baseFreq : validFreq c r.baseFreq = true
  /-- (I3) -/
  rampFreq : isFinite r.rampFreq = true ∧ flt zero r.rampFreq = true
  /-- (I4) -/
  envAttack : validDuration r.envAttack = true
  /-- (I4) -/
  envDecay : validDuration r.envDecay = true
  /-- (I4) -/
  envRelease : validDuration r.envRelease = true
  /-- (I4) -/
  envSustain : validLevel r.envSustain = true
  /-- (I5) -/
  timeInStage : ∀ total, stageTotal r = some total →
    fle zero r.envTimeLeft = true ∧ fle r.envTimeLeft total = true
  /-- (I6), for the one register no other clause makes finite. -/
  timeFinite : isFinite r.envTimeLeft = true
  /-- (I6), and the value in [0, 1]. -/
  envValue : validLevel r.envValue = true
  /-- (I6), and the value in [0, 1]. -/
  envAtkStart : validLevel r.envAtkStart = true
  /-- (I6), and the value in [0, 1]. -/
  envRelStart : validLevel r.envRelStart = true

/-- What a command does to the registers of a block of any configuration: the commands' rules with the parameters
of 00_scope.md R7 as an argument. `exec` is this at the reference configuration. -/
def commandEffect (c : Config) (i : Instr) (r : Regs) : Effect :=
  match i with
  | .nop => nopEffect r
  | .setFreq f => setFreqEffect c f r
  | .noteOn n v => noteOnEffect c n v r
  | .noteOff n => noteOffEffect n r
  | .tick sr => tickEffect c sr r
  | .prune => pruneEffect r
  | .wrAttack x => .accept { r with cfgAttack := x } 0#64
  | .wrDecay x => .accept { r with cfgDecay := x } 0#64
  | .wrSustain x => .accept { r with cfgSustain := x } 0#64
  | .wrRelease x => .accept { r with cfgRelease := x } 0#64
  | .wrOscsel w k => wrOscselEffect w k r
  | .read idx => readEffect c idx r
  | .clrErr => .accept (clearError r) 0#64

/-- What one input of the port does to the registers of a block of any configuration: a word that is a command, a word
that is none (30_encoding.md R85), or reset (70_reset_and_hazards.md R250). -/
def inputEffect (c : Config) (p : PortInput) (r : Regs) : Regs :=
  match p with
  | .reset => Regs.reset
  | .command w =>
    match decode w with
    | .rejected code => recordError code r
    | .command i =>
      match commandEffect c i r with
      | .accept r' _ => r'
      | .reject code => recordError code r

/-- The sticky error as 10_state.md R24 and 60_exceptions.md R220 describe it: code 0 while ERR = 0, one of the codes
0x01 to 0x0A while ERR = 1. -/
def errOk (r : Regs) : Bool :=
  if r.err then decide (1 ≤ r.errCode.toNat ∧ r.errCode.toNat ≤ 10) else r.errCode == 0x00#8

/-- The invariant of the machine at the reference configuration. -/
structure Regs.Inv (r : Regs) : Prop where
  sticky : errOk r = true
  voice : r.live = true → VoiceInv reference r

/-- The observation of a run (70_reset_and_hazards.md R258): the responses, oldest first, and the registers. -/
def State.observe (s : State) : List Response × Regs := (s.responses.reverse, s.regs)

/-- `k` steps from a state. -/
def runSteps : Nat → State → State
  | 0, s => s
  | k + 1, s =>
    match step s with
    | .next t => runSteps k t
    | .fault _ => s
    | .refused _ => s

/-- The commands of a control domain (70_reset_and_hazards.md R256 H1). -/
def isControl : Instr → Bool
  | .setFreq _ | .noteOn _ _ | .noteOff _ | .wrAttack _ | .wrDecay _ | .wrSustain _ | .wrRelease _ | .wrOscsel _ _ => true
  | .nop | .tick _ | .prune | .read _ | .clrErr => false

/-- Duties H1 and H2 (R256) of a run of whole buffers: control commands only between buffers, and each buffer's TICKs
ended by one PRUNE. A buffer of no frames is a PRUNE alone, as RENDER has it (30_encoding.md R90). The argument
`inBuffer` says whether a TICK has opened a buffer. Log entry 13. -/
def dutyBuffers : Bool → List Instr → Bool
  | inBuffer, [] => !inBuffer
  | inBuffer, i :: rest =>
    match i with
    | .tick _ => dutyBuffers true rest
    | .prune => dutyBuffers false rest
    | i => !(inBuffer && isControl i) && dutyBuffers inBuffer rest

/-- The sample rate of an input that is a TICK. -/
def tickRate : PortInput → Option F64
  | .reset => none
  | .command w =>
    match decode w with
    | .command (.tick sr) => some sr
    | _ => none

/-- Duty H3 (R256) of the inputs presented to a block with registers `r`: every TICK of one voice's life has the same
sample rate. A life lasts while the block is LIVE (42_voice.md R160); the next voice may have another rate, and a
TICK on a FREE block may have any. The argument `rate` is the rate of the life so far, none before its first TICK.
The same rate means the same bit pattern, and a rejected TICK counts too: DESIGN CHOICE, log entry 13. -/
def dutyRate (c : Config) : Option F64 → Regs → List PortInput → Bool
  | _, _, [] => true
  | rate, r, p :: rest =>
    let r' := inputEffect c p r
    match tickRate p with
    | some sr =>
      if r.live then rate.all (· == sr) && dutyRate c (some sr) r' rest else dutyRate c none r' rest
    | none => dutyRate c (if r'.live then rate else none) r' rest

/-- The slot serves the note: it is LIVE for it (42_voice.md R160). -/
def serves (n : Note) (r : Regs) : Bool := r.live && n == r.note

/-- Duty H4 (R256) as one slot sees it: a NOTE_ON or NOTE_OFF reaches the slot that serves its note, and a new note
only a FREE slot. It asks nothing of any other command. -/
def dutyRouting (r : Regs) : Instr → Bool
  | .noteOn n _ => !r.live || serves n r
  | .noteOff n => serves n r
  | _ => true

/-- The note of a command that H4 routes. -/
def routedNote : Instr → Option Note
  | .noteOn n _ => some n
  | .noteOff n => some n
  | _ => none

/-- Duty H4 (R256) in a system of several slots: beside `dutyRouting` of the slot, no other slot serves the note
("mapping from note identifier to Voice, unique keys"). -/
def Bank.dutyRouting (b : Bank) (slot : Nat) (i : Instr) : Bool :=
  b.slots[slot]?.all (fun s => Machine.dutyRouting s.regs i) &&
  b.slots.zipIdx.all (fun p => p.2 == slot || !(routedNote i).any (fun n => serves n p.1.regs))

/-- Duty H5 (R256): a note-on of velocity zero was decoded as a note-off. -/
def dutyVelocity : Instr → Bool
  | .noteOn _ v => v != 0#7
  | _ => true

end Machine

end Sys2Proof
end

