-- ==== Sys2Proof/Certificates/Slice0/Obligations.lean ====
section
/-! DEFINITION. The statements for the provers, in the order of OBLIGATIONS.json. The first part holds the terms
they share: an accepted and a rejected answer written out from the rules, and what "rounded to nearest" means.
A statement about `exec` or `step` is about the spec's reference instance: its parameter values are the defaults that
00_scope.md R7 gives, and that the machine runs at them is log entry 3. -/

namespace Sys2Proof.Claims

open Sys2Proof.Machine

/-- An accepted command (30_encoding.md R81): the registers it leaves, status code 0x00 and its data. -/
def okAnswer (s : State) (r : Regs) (data : BitVec 64) : State :=
  { regs := r, pending := s.pending, responses := { code := 0x00#8, data := data } :: s.responses }

/-- The registers after a rejection (60_exceptions.md R222). -/
def afterError (r : Regs) (code : BitVec 8) : Regs :=
  if r.err = true then r else { r with err := true, errCode := code }

/-- A rejected command (60_exceptions.md R222): the sticky error, the code and DATA zero. -/
def errAnswer (s : State) (code : BitVec 8) : State :=
  { regs := afterError s.regs code, pending := s.pending, responses := { code := code, data := 0#64 } :: s.responses }

/-- The state with the first input taken off the port. -/
def taken (s : State) (rest : List PortInput) : State := { s with pending := rest }

/-- `validFreq(f)` at the reference P_FREQ_MAX = 2^20 (40_oscillator.md R110). -/
def goodFreq (f : F64) : Prop := isFinite f = true ∧ flt zero f = true ∧ fle f 0x4130000000000000#64 = true

/-- `validSr(sr)` at the reference P_SR_MIN = 1.0 and P_SR_MAX = 2^24 (40_oscillator.md R111). -/
def goodRate (sr : F64) : Prop := isFinite sr = true ∧ fle one sr = true ∧ fle sr 0x4170000000000000#64 = true

/-- A finite value that is not below zero (42_voice.md R161). -/
def goodDuration (x : F64) : Prop := isFinite x = true ∧ fle zero x = true

/-- A finite value in [0, 1] (42_voice.md R161). -/
def goodLevel (x : F64) : Prop := isFinite x = true ∧ fle zero x = true ∧ fle x one = true

/-- `validEnv()` (42_voice.md R161). -/
def goodEnv (r : Regs) : Prop :=
  goodDuration r.cfgAttack ∧ goodDuration r.cfgDecay ∧ goodDuration r.cfgRelease ∧ goodLevel r.cfgSustain

/-- A configuration with the reference ranges of frequency and sample rate; gain, sine and note table are free. -/
def refRanges (c : Config) : Prop :=
  c.freqMax = reference.freqMax ∧ c.srMin = reference.srMin ∧ c.srMax = reference.srMax

/-- `r` is the exact value `num / den` units rounded to nearest, ties to even (00_scope.md R10): below the rounding
boundary of the largest finite value no finite value is nearer, and one as near is the same value unless the last
bit of `r` is 0; at or above the boundary `r` is the infinity of the value's sign. -/
def NearestEven (num : Int) (den : Nat) (r : F64) : Prop :=
  (num.natAbs < (2 ^ 2098 - 2 ^ 2044) * den →
    isFinite r = true ∧ ∀ z : F64, isFinite z = true →
      (num - den * signedUnits r).natAbs ≤ (num - den * signedUnits z).natAbs ∧
      ((num - den * signedUnits r).natAbs = (num - den * signedUnits z).natAbs →
        signedUnits z = signedUnits r ∨ magBits r % 2 = 0)) ∧
  ((2 ^ 2098 - 2 ^ 2044) * den ≤ num.natAbs → isInf r = true ∧ (signBit r = true ↔ num < 0))

/-- The registers after `k` TICKs at one sample rate on a LIVE voice. -/
def afterTicks (c : Config) (sr : F64) (k : Nat) (r : Regs) : Regs := (fun x => (voiceNext c sr x).1)^[k] r

/-- Equal in every register but the staged ones, CFG_OSCSEL to CFG_RELEASE. -/
def sameUnstaged (r r' : Regs) : Prop :=
  { r with
    cfgOscsel := r'.cfgOscsel, cfgAttack := r'.cfgAttack, cfgDecay := r'.cfgDecay,
    cfgSustain := r'.cfgSustain, cfgRelease := r'.cfgRelease } = r'

/-- Equal in every register but the working ones, indices 0x06 to 0x12. -/
def sameNonWorking (r r' : Regs) : Prop :=
  { r with
    oscSel := r'.oscSel, baseFreq := r'.baseFreq, rampFreq := r'.rampFreq, rampPhase := r'.rampPhase,
    lfoPhase := r'.lfoPhase, envAttack := r'.envAttack, envDecay := r'.envDecay, envSustain := r'.envSustain,
    envRelease := r'.envRelease, envValue := r'.envValue, envTimeLeft := r'.envTimeLeft,
    envAtkStart := r'.envAtkStart, envRelStart := r'.envRelStart } = r'

/-- Equal in the working registers, indices 0x06 to 0x12. -/
def sameWorking (r r' : Regs) : Prop :=
  r.oscSel = r'.oscSel ∧ r.baseFreq = r'.baseFreq ∧ r.rampFreq = r'.rampFreq ∧ r.rampPhase = r'.rampPhase ∧
  r.lfoPhase = r'.lfoPhase ∧ r.envAttack = r'.envAttack ∧ r.envDecay = r'.envDecay ∧
  r.envSustain = r'.envSustain ∧ r.envRelease = r'.envRelease ∧ r.envValue = r'.envValue ∧
  r.envTimeLeft = r'.envTimeLeft ∧ r.envAtkStart = r'.envAtkStart ∧ r.envRelStart = r'.envRelStart

/-- The value of every READ index, 0x00 to 0x14, written out from 10_state.md R22 to R25. -/
def readTable (r : Regs) : List (BitVec 64) :=
  [BitVec.ofNat 64 (r.live.toNat + 2 ^ 4 * r.stage.code.toNat + 2 ^ 8 * r.note.toNat + 2 ^ 16 * r.err.toNat +
      2 ^ 24 * r.errCode.toNat),
    BitVec.ofNat 64 (r.cfgOscsel.wave.code.toNat + 4 * r.cfgOscsel.carrier.code.toNat),
    r.cfgAttack, r.cfgDecay, r.cfgSustain, r.cfgRelease,
    BitVec.ofNat 64 (r.oscSel.wave.code.toNat + 4 * r.oscSel.carrier.code.toNat),
    r.baseFreq, r.rampFreq, r.rampPhase, r.lfoPhase, r.envAttack, r.envDecay, r.envSustain, r.envRelease,
    r.envValue, r.envTimeLeft, r.envAtkStart, r.envRelStart, 0x4014000000000000#64, 0x3FD3333333333333#64]

end Sys2Proof.Claims

open Sys2Proof Sys2Proof.Machine Sys2Proof.Claims

/-! ### Encoding (30_encoding.md) -/

/-- Decoding the word of a command gives the command back, with every operand at every value. -/
def Obligations.DecodeEncodeGivesTheCommandBack : Prop := ∀ i : Instr, decode (encode i) = .command i

/-- 30_encoding.md R85: the two checks in order; a word that passes them selects one command, whose opcode and
operand are the word's. -/
def Obligations.DecodeMakesTheTwoChecksInOrder : Prop :=
  ∀ w : Command,
    (opcodeListed w = false → decode w = .rejected .illegalOpcode) ∧
    (opcodeListed w = true → reservedClear w = false → decode w = .rejected .reservedOperand) ∧
    (opcodeListed w = true → reservedClear w = true → ∃ i, decode w = .command i ∧ encode i = w)

/-- 30_encoding.md R91: the thirteen example words. -/
def Obligations.ExampleWordsDecode : Prop :=
  decode 0x000000000000000000#72 = .command .nop ∧
  decode 0x01407B800000000000#72 = .command (.setFreq 0x407B800000000000#64) ∧
  decode 0x020000000000006445#72 = .command (.noteOn 69#7 100#7) ∧
  decode 0x030000000000000045#72 = .command (.noteOff 69#7) ∧
  decode 0x0440E7700000000000#72 = .command (.tick 0x40E7700000000000#64) ∧
  decode 0x050000000000000000#72 = .command .prune ∧
  decode 0x103FF0000000000000#72 = .command (.wrAttack 0x3FF0000000000000#64) ∧
  decode 0x114000000000000000#72 = .command (.wrDecay 0x4000000000000000#64) ∧
  decode 0x123FE8000000000000#72 = .command (.wrSustain 0x3FE8000000000000#64) ∧
  decode 0x133FF0000000000000#72 = .command (.wrRelease 0x3FF0000000000000#64) ∧
  decode 0x140000000000000007#72 = .command (.wrOscsel 3#2 1#2) ∧
  decode 0x200000000000000009#72 = .command (.read 0x09#8) ∧
  decode 0x210000000000000000#72 = .command .clrErr

/-- 30_encoding.md R86: a reserved opcode is rejected with ILLEGAL_OPCODE whatever its operand and changes only the
sticky error. -/
def Obligations.ReservedOpcodeIsRejectedWhateverItsOperand : Prop :=
  ∀ (opc : BitVec 8) (x : BitVec 64) (s : State) (rest : List PortInput),
    (0x06 ≤ opc.toNat ∧ opc.toNat ≤ 0x0F ∨ 0x15 ≤ opc.toNat ∧ opc.toNat ≤ 0x1F ∨ 0x22 ≤ opc.toNat) →
    s.pending = .command (opc ++ x) :: rest →
    step s = .next (errAnswer (taken s rest) 0x01#8)

/-- 30_encoding.md R90: the three pseudo-instructions. -/
def Obligations.PseudoInstructionsExpand : Prop :=
  (∀ n, Asm.expand (.noteOnOnly n) = [.noteOn n 0#7]) ∧
  (∀ a d v r, Asm.expand (.wrEnv a d v r) = [.wrAttack a, .wrDecay d, .wrSustain v, .wrRelease r]) ∧
  (∀ sr k, Asm.expand (.render sr k) = List.replicate k (.tick sr) ++ [.prune])

/-! ### Steps and reset (30_encoding.md R80, R85; 70_reset_and_hazards.md) -/

/-- A step runs the decoded command at the port's front, on the state with that word taken off the port. -/
def Obligations.StepRunsTheDecodedCommand : Prop :=
  ∀ (s : State) (w : Command) (rest : List PortInput) (i : Instr),
    s.pending = .command w :: rest → decode w = .command i → step s = exec i (taken s rest)

/-- A word that fails a decoding check is answered with that check's code and changes only the sticky error. -/
def Obligations.StepRejectsAWordThatIsNoCommand : Prop :=
  ∀ (s : State) (w : Command) (rest : List PortInput),
    s.pending = .command w :: rest →
    (decode w = .rejected .illegalOpcode → step s = .next (errAnswer (taken s rest) 0x01#8)) ∧
    (decode w = .rejected .reservedOperand → step s = .next (errAnswer (taken s rest) 0x02#8))

/-- 70_reset_and_hazards.md R250, R251: an assertion of reset is a step that sets every register to its reset value. -/
def Obligations.ResetSetsEveryRegister : Prop :=
  ∀ (s : State) (rest : List PortInput), s.pending = .reset :: rest →
    ∃ t, step s = .next t ∧ t.regs =
      { live := false, stage := .done, note := 0#7, err := false, errCode := 0#8
        cfgOscsel := { wave := .plain .sine, carrier := .sine }
        cfgAttack := 0x3FF0000000000000#64
        cfgDecay := 0x4000000000000000#64
        cfgSustain := 0x3FE8000000000000#64
        cfgRelease := 0x3FF0000000000000#64
        oscSel := { wave := .plain .sine, carrier := .sine }
        baseFreq := 0#64, rampFreq := 0#64, rampPhase := 0#64, lfoPhase := 0#64
        envAttack := 0#64, envDecay := 0#64, envSustain := 0#64, envRelease := 0#64
        envValue := 0#64, envTimeLeft := 0#64, envAtkStart := 0#64, envRelStart := 0#64 }

/-- 10_state.md R32: what READ returns at every index right after reset (95_test_vectors.md section 2.5). -/
def Obligations.ResetStateReadsAsTheTable : Prop :=
  readTable State.reset.regs =
    [0x40#64, 0x5#64, 0x3FF0000000000000#64, 0x4000000000000000#64, 0x3FE8000000000000#64, 0x3FF0000000000000#64,
      0x5#64, 0#64, 0#64, 0#64, 0#64, 0#64, 0#64, 0#64, 0#64, 0#64, 0#64, 0#64, 0#64, 0x4014000000000000#64,
      0x3FD3333333333333#64]

/-- With nothing presented the block keeps its state. The model's choice for a port at rest, log entry 1. -/
def Obligations.IdleBlockKeepsItsState : Prop := ∀ s : State, s.pending = [] → step s = .next s

/-- 60_exceptions.md R224: the block never hangs or halts; every step answers a next state. -/
def Obligations.EveryStepAnswersANextState : Prop := ∀ s : State, ∃ t, step s = .next t

/-- 30_encoding.md R80, R81: every command, accepted or rejected, returns exactly one response; a rejected one carries
DATA zero, and so does every accepted one but TICK and READ. -/
def Obligations.EveryCommandReturnsOneResponse : Prop :=
  ∀ (i : Instr) (s : State), ∃ t p, exec i s = .next t ∧ t.responses = p :: s.responses ∧ t.pending = s.pending ∧
    (p.code ≠ 0x00#8 → p.data = 0#64) ∧
    ((∀ sr, i ≠ .tick sr) → (∀ x, i ≠ .read x) → p.data = 0#64)

/-! ### Errors (60_exceptions.md) -/

/-- 60_exceptions.md R222: whichever command word is rejected, only ERR and ERR_CODE change, and only if ERR was 0. -/
def Obligations.RejectionChangesOnlyTheStickyError : Prop :=
  ∀ (s t : State) (w : Command) (rest : List PortInput) (p : Response) (ps : List Response),
    s.pending = .command w :: rest → step s = .next t → t.responses = p :: ps → p.code ≠ 0x00#8 →
    t.regs = afterError s.regs p.code ∧ p.data = 0#64 ∧ ps = s.responses ∧ t.pending = rest

/-- 10_state.md R24, 60_exceptions.md R220: every step keeps ERR_CODE zero while ERR = 0 and one of the codes 0x01 to
0x0A while ERR = 1. -/
def Obligations.StepKeepsTheErrorFieldsConsistent : Prop :=
  ∀ s t : State, errOk s.regs = true → step s = .next t → errOk t.regs = true

/-- 60_exceptions.md R222, R227: an error recorded stays, with its first code, until CLR_ERR or reset. -/
def Obligations.FirstErrorCodeIsKept : Prop :=
  ∀ s t : State, s.regs.err = true → step s = .next t →
    (t.regs.err = true ∧ t.regs.errCode = s.regs.errCode) ∨
    (∃ w rest, s.pending = .command w :: rest ∧ decode w = .command .clrErr) ∨
    (∃ rest, s.pending = .reset :: rest)

/-! ### NOP, PRUNE, SET_FREQ (42_voice.md R167, R168; 40_oscillator.md R112) -/

/-- 42_voice.md R168: NOP answers OK and changes no state, not even the sticky error; with a nonzero operand the word
is rejected. -/
def Obligations.NopChangesNothing : Prop :=
  (∀ s : State, exec .nop s = .next (okAnswer s s.regs 0#64)) ∧
  (∀ x : BitVec 64, x ≠ 0#64 → decode (0x00#8 ++ x) = .rejected .reservedOperand)

/-- 42_voice.md R167: PRUNE frees a LIVE block in DONE and leaves every other register; otherwise it changes nothing. -/
def Obligations.PruneFreesADoneVoice : Prop :=
  (∀ s : State, s.regs.live = true → s.regs.stage = .done →
    exec .prune s = .next (okAnswer s { s.regs with live := false } 0#64)) ∧
  (∀ s : State, s.regs.live = false ∨ s.regs.stage ≠ .done → exec .prune s = .next (okAnswer s s.regs 0#64)) ∧
  (∀ x : BitVec 64, x ≠ 0#64 → decode (0x05#8 ++ x) = .rejected .reservedOperand)

/-- 40_oscillator.md R112: SET_FREQ writes BASE_FREQ, and RAMP_FREQ unless the waveform is VIBRATO; no other register;
NO_VOICE on a FREE block, BAD_FREQUENCY for a frequency that is not valid. -/
def Obligations.SetFreqRetargets : Prop :=
  (∀ (s : State) (f : F64), s.regs.live = true → goodFreq f → s.regs.oscSel.wave ≠ .vibrato →
    exec (.setFreq f) s = .next (okAnswer s { s.regs with baseFreq := f, rampFreq := f } 0#64)) ∧
  (∀ (s : State) (f : F64), s.regs.live = true → goodFreq f → s.regs.oscSel.wave = .vibrato →
    exec (.setFreq f) s = .next (okAnswer s { s.regs with baseFreq := f } 0#64)) ∧
  (∀ (s : State) (f : F64), s.regs.live = false → exec (.setFreq f) s = .next (errAnswer s 0x03#8)) ∧
  (∀ (s : State) (f : F64), s.regs.live = true → ¬ goodFreq f → exec (.setFreq f) s = .next (errAnswer s 0x06#8))

/-! ### NOTE_ON and NOTE_OFF (42_voice.md R163, R164, R171; 41_envelope.md R136) -/

/-- 42_voice.md R163, the construction: NOTE_ON on a FREE block with valid staged parameters. -/
def Obligations.NoteOnConstructsAVoice : Prop :=
  ∀ (s : State) (n : Note) (v : Velocity), s.regs.live = false → goodEnv s.regs →
    exec (.noteOn n v) s = .next (okAnswer s
      { s.regs with
        live := true, note := n, stage := .attack
        oscSel := s.regs.cfgOscsel, baseFreq := reference.mtof n, rampFreq := reference.mtof n
        rampPhase := 0#64, lfoPhase := 0#64
        envAttack := s.regs.cfgAttack, envDecay := s.regs.cfgDecay
        envSustain := s.regs.cfgSustain, envRelease := s.regs.cfgRelease
        envValue := 0#64, envTimeLeft := s.regs.cfgAttack, envAtkStart := 0#64, envRelStart := 0#64 } 0#64)

/-- 42_voice.md R164, the retrigger: NOTE_ON for the note a LIVE block serves keeps the oscillator and its phases,
retargets it as SET_FREQ would, latches the envelope parameters again and restarts the attack from the current
value. -/
def Obligations.NoteOnRetriggersWithContinuity : Prop :=
  ∀ (s : State) (v : Velocity), s.regs.live = true → goodEnv s.regs →
    exec (.noteOn s.regs.note v) s = .next (okAnswer s
      { s.regs with
        stage := .attack, baseFreq := reference.mtof s.regs.note
        rampFreq := if s.regs.oscSel.wave = .vibrato then s.regs.rampFreq else reference.mtof s.regs.note
        envAttack := s.regs.cfgAttack, envDecay := s.regs.cfgDecay
        envSustain := s.regs.cfgSustain, envRelease := s.regs.cfgRelease
        envTimeLeft := s.regs.cfgAttack, envAtkStart := s.regs.envValue } 0#64)

/-- 42_voice.md R161, R163: when NOTE_ON is rejected. -/
def Obligations.NoteOnRejections : Prop :=
  (∀ (s : State) (n : Note) (v : Velocity), s.regs.live = true → n ≠ s.regs.note →
    exec (.noteOn n v) s = .next (errAnswer s 0x04#8)) ∧
  (∀ (s : State) (n : Note) (v : Velocity), (s.regs.live = true → n = s.regs.note) → ¬ goodEnv s.regs →
    exec (.noteOn n v) s = .next (errAnswer s 0x08#8))

/-- 42_voice.md R171: NOTE_ON ignores the velocity. -/
def Obligations.VelocityIsIgnored : Prop :=
  ∀ (s : State) (n : Note) (v v' : Velocity), exec (.noteOn n v) s = exec (.noteOn n v') s

/-- 41_envelope.md R136: NOTE_OFF begins the release from the current value, changes nothing in RELEASE and DONE, and
is rejected on a FREE block and for another note. -/
def Obligations.NoteOffBeginsTheRelease : Prop :=
  (∀ s : State, s.regs.live = true → (s.regs.stage = .attack ∨ s.regs.stage = .decay ∨ s.regs.stage = .sustain) →
    exec (.noteOff s.regs.note) s = .next (okAnswer s
      { s.regs with stage := .release, envTimeLeft := s.regs.envRelease, envRelStart := s.regs.envValue } 0#64)) ∧
  (∀ s : State, s.regs.live = true → (s.regs.stage = .release ∨ s.regs.stage = .done) →
    exec (.noteOff s.regs.note) s = .next (okAnswer s s.regs 0#64)) ∧
  (∀ (s : State) (n : Note), s.regs.live = false → exec (.noteOff n) s = .next (errAnswer s 0x03#8)) ∧
  (∀ (s : State) (n : Note), s.regs.live = true → n ≠ s.regs.note →
    exec (.noteOff n) s = .next (errAnswer s 0x05#8))

/-! ### TICK, the oscillator and the envelope (42_voice.md R165, R166; 40_oscillator.md; 41_envelope.md) -/

/-- 42_voice.md R165: TICK at a valid sample rate on a LIVE block advances the oscillator and the envelope once, each
from the registers before the TICK (they share no state), writes only the registers named here, and answers
`(o * e) * P_GAIN`; at a sample rate that is not valid it is rejected. -/
def Obligations.TickProducesOneFrame : Prop :=
  (∀ (s : State) (sr : F64), s.regs.live = true → goodRate sr →
    exec (.tick sr) s = .next (okAnswer s
      { s.regs with
        rampPhase := (oscNext reference sr s.regs).1.rampPhase
        lfoPhase := (oscNext reference sr s.regs).1.lfoPhase
        rampFreq := (oscNext reference sr s.regs).1.rampFreq
        stage := (envNext sr s.regs).1.stage
        envTimeLeft := (envNext sr s.regs).1.envTimeLeft
        envValue := (envNext sr s.regs).2 }
      (fmul (fmul (oscNext reference sr s.regs).2 (envNext sr s.regs).2) 0x3FD3333333333333#64))) ∧
  (∀ (s : State) (sr : F64), ¬ goodRate sr → exec (.tick sr) s = .next (errAnswer s 0x07#8))

/-- 42_voice.md R166: TICK on a FREE block returns +0.0 and changes no state; the sample rate is still checked. -/
def Obligations.TickOnAFreeBlockIsSilent : Prop :=
  (∀ (s : State) (sr : F64), s.regs.live = false → goodRate sr →
    exec (.tick sr) s = .next (okAnswer s s.regs 0#64)) ∧
  (∀ (s : State) (sr : F64), s.regs.live = false → ¬ goodRate sr → exec (.tick sr) s = .next (errAnswer s 0x07#8))

/-- 40_oscillator.md R108, R103: the oscillator step of every waveform, for every configuration. -/
def Obligations.OscillatorAdvancesThenReads : Prop :=
  ∀ (c : Config) (sr : F64) (r : Regs),
    (∀ w, r.oscSel.wave = .plain w →
      oscNext c sr r =
        ({ r with rampPhase := wrap (fadd r.rampPhase (fdiv r.rampFreq sr)) },
          waveOut c w (wrap (fadd r.rampPhase (fdiv r.rampFreq sr))))) ∧
    (r.oscSel.wave = .vibrato →
      ∃ lfo freq phase,
        lfo = wrap (fadd r.lfoPhase (fdiv 0x4014000000000000#64 sr)) ∧
        freq = fadd r.baseFreq
          (fdiv (fmul (c.sin (fmul lfo 0x401921FB54442D18#64)) r.baseFreq) 0x4059000000000000#64) ∧
        phase = wrap (fadd r.rampPhase (fdiv freq sr)) ∧
        oscNext c sr r =
          ({ r with lfoPhase := lfo, rampFreq := freq, rampPhase := phase }, waveOut c r.oscSel.carrier phase))

/-- 40_oscillator.md R104 to R107: the output stages; the square is +0.0 below 0.5 and 1.0 from 0.5 on. -/
def Obligations.OutputStages : Prop :=
  ∀ (c : Config) (p : F64), inUnit p = true →
    waveOut c .ramp p = p ∧
    waveOut c .sine p = c.sin (fmul p 0x401921FB54442D18#64) ∧
    (flt p 0x3FE0000000000000#64 = true → waveOut c .square p = 0#64) ∧
    (flt p 0x3FE0000000000000#64 = false → waveOut c .square p = 0x3FF0000000000000#64)

/-- 40_oscillator.md R101: for a finite `x >= 0`, wrap(x) is `x` below 1.0 and `x - floor(x)` from 1.0 on, which is
`x - 1.0` below 2.0; it is exactly the fractional part of `x`, and lies in [0, 1). -/
def Obligations.WrapIsTheExactFractionalPart : Prop :=
  ∀ x : F64, isFinite x = true → fle zero x = true →
    (fle one x = false → wrap x = x) ∧
    (fle one x = true → wrap x = fsub x (ffloor x)) ∧
    (fle one x = true → flt x 0x4000000000000000#64 = true → wrap x = fsub x one) ∧
    signedUnits (wrap x) = signedUnits x % (oneUnits : Int) ∧
    inUnit (wrap x) = true

/-- 40_oscillator.md R106: multiplying the phase by 2 first and then by π rounds to the same value as one
multiplication by TWO_PI. -/
def Obligations.SineArgumentOrderDoesNotMatter : Prop :=
  ∀ p : F64, inUnit p = true →
    fmul (fmul p 0x4000000000000000#64) 0x400921FB54442D18#64 = fmul p 0x401921FB54442D18#64

/-- 41_envelope.md R131: the ease curve, each line one IEEE operation; at `tl = total` it is the start value
(numerically: a start of -0.0 comes back as a zero), at `tl = 0.0` it is `start + (target - start)`. R131 gives the
curve for finite values with `total > 0` and `0 <= tl <= total`; that the first clause holds of every other pattern
too is the model's DEDUCED choice, log entry 11. -/
def Obligations.EaseCurveAndItsEnds : Prop :=
  (∀ start target tl total : F64, ease start target tl total =
    fadd start (fmul (fsub target start) (fsqrt (fsub 0x3FF0000000000000#64 (fdiv tl total))))) ∧
  (∀ start target total : F64, isFinite start = true → isFinite target = true →
    isFinite (fsub target start) = true → isFinite total = true → flt zero total = true →
    feq (ease start target total total) start = true ∧
    ease start target zero total = fadd start (fsub target start))

/-- 41_envelope.md R133, R134: one envelope step. In an untimed stage no time is counted. In a timed stage the time
falls by `1.0 / sr`; while it is below zero the stages pass, ATTACK into DECAY carrying the overshoot, until the
stage is untimed or the time is not below zero. The value is the resulting stage's (R132). -/
def Obligations.EnvelopeStep : Prop :=
  ∀ (sr : F64) (r : Regs),
    ((r.stage = .sustain ∨ r.stage = .done) →
      envNext sr r = ({ r with envValue := stageValue r }, stageValue r)) ∧
    (∀ t, t = fsub r.envTimeLeft (fdiv one sr) →
      ((r.stage = .attack ∨ r.stage = .decay ∨ r.stage = .release) → flt t zero = false →
        ∃ r', r' = { r with envTimeLeft := t } ∧
          envNext sr r = ({ r' with envValue := stageValue r' }, stageValue r')) ∧
      (r.stage = .attack → flt t zero = true → flt (fadd t r.envDecay) zero = false →
        ∃ r', r' = { r with stage := .decay, envTimeLeft := fadd t r.envDecay } ∧
          envNext sr r = ({ r' with envValue := stageValue r' }, stageValue r')) ∧
      (r.stage = .attack → flt t zero = true → flt (fadd t r.envDecay) zero = true →
        envNext sr r =
          ({ r with stage := .sustain, envTimeLeft := fadd t r.envDecay, envValue := r.envSustain }, r.envSustain)) ∧
      (r.stage = .decay → flt t zero = true →
        envNext sr r = ({ r with stage := .sustain, envTimeLeft := t, envValue := r.envSustain }, r.envSustain)) ∧
      (r.stage = .release → flt t zero = true →
        envNext sr r = ({ r with stage := .done, envTimeLeft := t, envValue := 0#64 }, 0#64)))

/-- 41_envelope.md R132: the value of each stage. -/
def Obligations.StageValues : Prop :=
  ∀ r : Regs,
    (r.stage = .attack → stageValue r = ease r.envAtkStart 0x3FF0000000000000#64 r.envTimeLeft r.envAttack) ∧
    (r.stage = .decay → stageValue r = ease 0x3FF0000000000000#64 r.envSustain r.envTimeLeft r.envDecay) ∧
    (r.stage = .sustain → stageValue r = r.envSustain) ∧
    (r.stage = .release → stageValue r = ease r.envRelStart 0#64 r.envTimeLeft r.envRelease) ∧
    (r.stage = .done → stageValue r = 0#64)

/-- 41_envelope.md R138: the first sample after a NOTE_OFF in ATTACK, DECAY or SUSTAIN, when the release lasts at
least one sample. -/
def Obligations.FirstReleaseSample : Prop :=
  ∀ (c : Config) (sr : F64) (r : Regs), (r.stage = .attack ∨ r.stage = .decay ∨ r.stage = .sustain) →
    flt (fsub r.envRelease (fdiv one sr)) zero = false →
    (voiceNext c sr (releaseVoice r)).1.stage = .release ∧
    (voiceNext c sr (releaseVoice r)).1.envValue =
      fadd r.envValue (fmul (fsub zero r.envValue)
        (fsqrt (fsub one (fdiv (fsub r.envRelease (fdiv one sr)) r.envRelease))))

/-! ### Staged writes, READ, CLR_ERR (43_registers.md) -/

/-- 43_registers.md R190 to R193: every bit pattern is stored, in one staged register, and nothing else changes. -/
def Obligations.StagedWritesStoreEveryPattern : Prop :=
  ∀ (s : State) (x : F64),
    exec (.wrAttack x) s = .next (okAnswer s { s.regs with cfgAttack := x } 0#64) ∧
    exec (.wrDecay x) s = .next (okAnswer s { s.regs with cfgDecay := x } 0#64) ∧
    exec (.wrSustain x) s = .next (okAnswer s { s.regs with cfgSustain := x } 0#64) ∧
    exec (.wrRelease x) s = .next (okAnswer s { s.regs with cfgRelease := x } 0#64)

/-- 43_registers.md R194: WR_OSCSEL stores CARRIER and WAVE in CFG_OSCSEL, and rejects CARRIER = 3 whatever WAVE is. -/
def Obligations.WrOscselStoresBothCodes : Prop :=
  ∀ (s : State) (w k : BitVec 2),
    (k ≠ 3#2 → ∃ o : OscSel, o.wave.code = w ∧ o.carrier.code = k ∧ o.bits = k ++ w ∧
      exec (.wrOscsel w k) s = .next (okAnswer s { s.regs with cfgOscsel := o } 0#64)) ∧
    (k = 3#2 → exec (.wrOscsel w k) s = .next (errAnswer s 0x09#8))

/-- 43_registers.md R196: READ returns the register at its index and has no side effect; a reserved index is
rejected. -/
def Obligations.ReadReturnsTheRegister : Prop :=
  ∀ (s : State) (i : RegIndex),
    (∀ v, (readTable s.regs)[i.toNat]? = some v → exec (.read i) s = .next (okAnswer s s.regs v)) ∧
    (i.toNat ≤ 0x14 → ∃ v, (readTable s.regs)[i.toNat]? = some v) ∧
    (0x14 < i.toNat → exec (.read i) s = .next (errAnswer s 0x0A#8))

/-- 43_registers.md R197: CLR_ERR clears ERR and ERR_CODE and touches nothing else; with a nonzero operand the word is
rejected, and a first error code is kept. -/
def Obligations.ClrErrClearsTheStickyError : Prop :=
  (∀ s : State, exec .clrErr s = .next (okAnswer s { s.regs with err := false, errCode := 0x00#8 } 0#64)) ∧
  (∀ (x : BitVec 64) (s : State) (rest : List PortInput), x ≠ 0#64 →
    s.pending = .command (0x21#8 ++ x) :: rest → step s = .next (errAnswer (taken s rest) 0x02#8))

/-- 10_state.md R31: two register files that READ alike at every index are equal, so nothing is hidden. -/
def Obligations.ReadsTellEveryRegister : Prop :=
  ∀ (c : Config) (r r' : Regs), (∀ name, regValue c r name = regValue c r' name) → r = r'

/-! ### Rules over the whole machine -/

/-- 10_state.md R22, R24: the commands that can change each register, all others leave it as it was. -/
def Obligations.OnlyTheListedCommandsWriteARegister : Prop :=
  ∀ (i : Instr) (s t : State), exec i s = .next t →
    (t.regs.live = s.regs.live ∨ (∃ n v, i = .noteOn n v ∧ s.regs.live = false) ∨ i = .prune) ∧
    (t.regs.stage = s.regs.stage ∨ (∃ n v, i = .noteOn n v) ∨ (∃ n, i = .noteOff n) ∨ (∃ sr, i = .tick sr)) ∧
    (t.regs.note = s.regs.note ∨ (∃ n v, i = .noteOn n v ∧ s.regs.live = false)) ∧
    (t.regs.cfgOscsel = s.regs.cfgOscsel ∨ (∃ w k, i = .wrOscsel w k)) ∧
    (t.regs.cfgAttack = s.regs.cfgAttack ∨ (∃ x, i = .wrAttack x)) ∧
    (t.regs.cfgDecay = s.regs.cfgDecay ∨ (∃ x, i = .wrDecay x)) ∧
    (t.regs.cfgSustain = s.regs.cfgSustain ∨ (∃ x, i = .wrSustain x)) ∧
    (t.regs.cfgRelease = s.regs.cfgRelease ∨ (∃ x, i = .wrRelease x)) ∧
    (t.regs.oscSel = s.regs.oscSel ∨ (∃ n v, i = .noteOn n v ∧ s.regs.live = false)) ∧
    (t.regs.baseFreq = s.regs.baseFreq ∨ (∃ n v, i = .noteOn n v) ∨ (∃ f, i = .setFreq f)) ∧
    (t.regs.rampFreq = s.regs.rampFreq ∨ (∃ n v, i = .noteOn n v) ∨ (∃ f, i = .setFreq f) ∨
      (∃ sr, i = .tick sr ∧ s.regs.oscSel.wave = .vibrato)) ∧
    (t.regs.rampPhase = s.regs.rampPhase ∨ (∃ n v, i = .noteOn n v ∧ s.regs.live = false) ∨
      (∃ sr, i = .tick sr)) ∧
    (t.regs.lfoPhase = s.regs.lfoPhase ∨ (∃ n v, i = .noteOn n v ∧ s.regs.live = false) ∨
      (∃ sr, i = .tick sr ∧ s.regs.oscSel.wave = .vibrato)) ∧
    ((t.regs.envAttack = s.regs.envAttack ∧ t.regs.envDecay = s.regs.envDecay ∧
      t.regs.envSustain = s.regs.envSustain ∧ t.regs.envRelease = s.regs.envRelease) ∨ (∃ n v, i = .noteOn n v)) ∧
    (t.regs.envValue = s.regs.envValue ∨ (∃ n v, i = .noteOn n v ∧ s.regs.live = false) ∨ (∃ sr, i = .tick sr)) ∧
    (t.regs.envTimeLeft = s.regs.envTimeLeft ∨ (∃ n v, i = .noteOn n v) ∨ (∃ n, i = .noteOff n) ∨
      (∃ sr, i = .tick sr)) ∧
    (t.regs.envAtkStart = s.regs.envAtkStart ∨ (∃ n v, i = .noteOn n v)) ∧
    (t.regs.envRelStart = s.regs.envRelStart ∨ (∃ n v, i = .noteOn n v ∧ s.regs.live = false) ∨
      (∃ n, i = .noteOff n)) ∧
    ((t.regs.err = s.regs.err ∧ t.regs.errCode = s.regs.errCode) ∨ i = .clrErr ∨
      (∃ p, t.responses = p :: s.responses ∧ p.code ≠ 0x00#8))

/-- 42_voice.md R160: a block becomes LIVE only by a NOTE_ON while FREE and FREE only by a PRUNE in DONE or by reset,
and while LIVE it serves one note. -/
def Obligations.LifecycleOfABlock : Prop :=
  ∀ s t : State, step s = .next t →
    (s.regs.live = false → t.regs.live = true →
      ∃ w rest n v, s.pending = .command w :: rest ∧ decode w = .command (.noteOn n v)) ∧
    (s.regs.live = true → t.regs.live = false →
      (∃ w rest, s.pending = .command w :: rest ∧ decode w = .command .prune ∧ s.regs.stage = .done) ∨
      (∃ rest, s.pending = .reset :: rest)) ∧
    (s.regs.live = true → t.regs.live = true → t.regs.note = s.regs.note)

/-- How a command can change the stage: only NOTE_ON, NOTE_OFF and TICK do (10_state.md R24), as 42_voice.md R163,
41_envelope.md R136 and R133 say, along the stages of 10_state.md R26 and R28; PRUNE leaves it (42_voice.md R167). -/
def Obligations.StageMovesOnlyAlongTheMachine : Prop :=
  ∀ (i : Instr) (s t : State), exec i s = .next t → t.regs.stage ≠ s.regs.stage →
    (t.regs.stage = .attack ∧ ∃ n v, i = .noteOn n v) ∨
    (t.regs.stage = .release ∧ s.regs.stage ≠ .done ∧ ∃ n, i = .noteOff n) ∨
    (∃ sr, i = .tick sr ∧
      ((s.regs.stage = .attack ∧ (t.regs.stage = .decay ∨ t.regs.stage = .sustain)) ∨
        (s.regs.stage = .decay ∧ t.regs.stage = .sustain) ∨ (s.regs.stage = .release ∧ t.regs.stage = .done)))

/-- 41_envelope.md R139: once STAGE = DONE, no command but NOTE_ON changes STAGE, every TICK's envelope value is +0.0,
and PRUNE frees the block. -/
def Obligations.DoneIsTerminal : Prop :=
  (∀ (i : Instr) (s t : State), s.regs.stage = .done → exec i s = .next t → (∀ n v, i ≠ .noteOn n v) →
    t.regs.stage = .done) ∧
  (∀ (sr : F64) (r : Regs), r.stage = .done → (envNext sr r).2 = 0#64 ∧ (envNext sr r).1.stage = .done) ∧
  (∀ s : State, s.regs.live = true → s.regs.stage = .done →
    exec .prune s = .next (okAnswer s { s.regs with live := false } 0#64))

/-- 43_registers.md R195: an accepted WR_ command changes staged registers only, and the staged registers reach the
rest of the block only through NOTE_ON (and READ shows them): two states that differ in staged registers only
answer every other command alike and go on so. -/
def Obligations.StagedRegistersActOnlyAtNoteOn : Prop :=
  (∀ (s t : State) (x : F64) (w k : BitVec 2), k ≠ 3#2 →
    (exec (.wrAttack x) s = .next t ∨ exec (.wrDecay x) s = .next t ∨ exec (.wrSustain x) s = .next t ∨
      exec (.wrRelease x) s = .next t ∨ exec (.wrOscsel w k) s = .next t) → sameUnstaged s.regs t.regs) ∧
  ∀ (i : Instr) (s s' : State), (∀ n v, i ≠ .noteOn n v) → (∀ x, i ≠ .read x) → sameUnstaged s.regs s'.regs →
    ∃ t t' p, exec i s = .next t ∧ exec i s' = .next t' ∧ sameUnstaged t.regs t'.regs ∧
      t.responses = p :: s.responses ∧ t'.responses = p :: s'.responses

/-- 10_state.md R30: while FREE, no command but READ depends on the working registers, none but NOTE_ON changes them,
and an accepted NOTE_ON makes a voice in which nothing of them is left. -/
def Obligations.FreeBlockForgetsTheLastVoice : Prop :=
  (∀ (i : Instr) (s s' : State), s.regs.live = false → (∀ x, i ≠ .read x) → sameNonWorking s.regs s'.regs →
    ∃ t t' p, exec i s = .next t ∧ exec i s' = .next t' ∧ sameNonWorking t.regs t'.regs ∧
      t.responses = p :: s.responses ∧ t'.responses = p :: s'.responses ∧
      (t.regs.live = true → t.regs = t'.regs)) ∧
  (∀ (i : Instr) (s t : State), s.regs.live = false → (∀ n v, i ≠ .noteOn n v) → exec i s = .next t →
    sameWorking t.regs s.regs)

/-- 00_scope.md R6, 60_exceptions.md R232: instances share no state; a command to one slot leaves every other. That a
system is a list of states, and a word presented to a slot one step of that slot with the word put before what is
pending, is the model's form, a DESIGN CHOICE, log entry 10. -/
def Obligations.InstancesShareNothing : Prop :=
  ∀ (b : Bank) (k j : Nat) (w : Command),
    (j ≠ k → (b.issue k w).slots[j]? = b.slots[j]?) ∧
    (∀ s t, b.slots[k]? = some s → step { s with pending := .command w :: s.pending } = .next t →
      (b.issue k w).slots[k]? = some t)

/-! ### Arithmetic and configuration (00_scope.md R8 to R10) -/

/-- 00_scope.md R10: addition and subtraction of finite values are rounded to nearest even; an exact zero sum is
+0.0 unless both terms are negative zeros, and an exact zero difference +0.0 unless it is `-0.0 - +0.0`. -/
def Obligations.AddAndSubtractRoundToNearestEven : Prop :=
  ∀ a b : F64, isFinite a = true → isFinite b = true →
    NearestEven (signedUnits a + signedUnits b) 1 (fadd a b) ∧
    NearestEven (signedUnits a - signedUnits b) 1 (fsub a b) ∧
    (signedUnits a + signedUnits b = 0 → (signBit (fadd a b) = true ↔ signBit a = true ∧ signBit b = true)) ∧
    (signedUnits a = signedUnits b → (signBit (fsub a b) = true ↔ signBit a = true ∧ signBit b = false))

/-- 00_scope.md R10: multiplication and division of finite values are rounded to nearest even, with the product of the
signs, and a division of a nonzero value by zero is an infinity of that sign. -/
def Obligations.MultiplyAndDivideRoundToNearestEven : Prop :=
  ∀ a b : F64, isFinite a = true → isFinite b = true →
    NearestEven (signedUnits a * signedUnits b) oneUnits (fmul a b) ∧
    (signBit (fmul a b) = true ↔ ¬ (signBit a = signBit b)) ∧
    (signedUnits b ≠ 0 →
      NearestEven (signedUnits a * oneUnits * (signedUnits b).sign) (signedUnits b).natAbs (fdiv a b) ∧
      (signBit (fdiv a b) = true ↔ ¬ (signBit a = signBit b))) ∧
    (signedUnits b = 0 → signedUnits a ≠ 0 →
      isInf (fdiv a b) = true ∧ (signBit (fdiv a b) = true ↔ ¬ (signBit a = signBit b)))

/-- 00_scope.md R10: the square root of a finite value that is not negative is the finite value nearest to the real
root, and a negative zero is its own root. -/
def Obligations.SquareRootIsCorrectlyRounded : Prop :=
  fsqrt 0x8000000000000000#64 = 0x8000000000000000#64 ∧
  ∀ x : F64, isFinite x = true → signBit x = false →
    isFinite (fsqrt x) = true ∧ signBit (fsqrt x) = false ∧
    ∀ z : F64, isFinite z = true →
      |(signedUnits (fsqrt x) : ℝ) - Real.sqrt ((units x : ℝ) * oneUnits)| ≤
        |(signedUnits z : ℝ) - Real.sqrt ((units x : ℝ) * oneUnits)|

/-- 00_scope.md R8: the reference sine is nearest to the real sine of the real value of its argument, up to 2^-303
of the argument's magnitude, at every finite argument of magnitude below 8.0. -/
def Obligations.ReferenceSineIsNearestToTheRealSine : Prop :=
  ∀ x z : F64, isFinite x = true → units x < 8 * oneUnits → isFinite z = true →
    |(signedUnits (sineRef x) : ℝ) - oneUnits * Real.sin ((signedUnits x : ℝ) / oneUnits)| ≤
      |(signedUnits z : ℝ) - oneUnits * Real.sin ((signedUnits x : ℝ) / oneUnits)| + (units x : ℝ) / 2 ^ 303

/-- 00_scope.md R8, R9: the reference configuration is an admissible one. -/
def Obligations.ReferenceConfigurationIsAdmissible : Prop := reference.Admissible

/-- 00_scope.md R9 (M1 to M4), 42_voice.md R162: the reference note table. -/
def Obligations.ReferenceNoteTable : Prop :=
  reference.mtof 69#7 = 0x407B800000000000#64 ∧ reference.mtof 57#7 = 0x406B800000000000#64 ∧
  (∀ m n : Note, m.toNat < n.toNat → flt (reference.mtof m) (reference.mtof n) = true) ∧
  (∀ n : Note, goodFreq (reference.mtof n))

/-! ### Invariants and properties of runs -/

/-- The state after reset meets the invariant of 10_state.md R29. -/
def Obligations.ResetMeetsTheInvariant : Prop := State.reset.regs.Inv

/-- 10_state.md R29: whatever is presented, a step keeps the invariant. -/
def Obligations.StepKeepsTheInvariant : Prop :=
  ∀ s t : State, s.regs.Inv → step s = .next t → t.regs.Inv

/-- 10_state.md R29, 00_scope.md R8: whatever admissible sine, note table and gain a block of the reference ranges has,
every accepted command on a LIVE block keeps the voice's invariant, and so does the NOTE_ON that makes it LIVE. -/
def Obligations.EveryAdmissibleBlockKeepsTheVoiceInvariant : Prop :=
  ∀ (c : Config) (i : Instr) (r r' : Regs) (data : BitVec 64), c.Admissible → refRanges c →
    (r.live = true → VoiceInv c r) → commandEffect c i r = .accept r' data → r'.live = true → VoiceInv c r'

/-- 40_oscillator.md R113: the ramp's phase stays in [0, 1) over any number of samples at any accepted frequency and
sample rate. -/
def Obligations.PhaseStaysInUnitInterval : Prop :=
  ∀ (freq sr phase : F64), goodFreq freq → goodRate sr → inUnit phase = true →
    ∀ k : Nat, inUnit ((fun p => rampNext p freq sr)^[k] phase) = true

/-- 42_voice.md R169: in a state that meets the invariant, every accepted TICK, on a LIVE block and on a FREE one,
returns a finite sample, in [-1, 1] since `|P_GAIN| <= 1`. -/
def Obligations.SamplesAreFinite : Prop :=
  ∀ (s : State) (sr : F64), s.regs.Inv → goodRate sr →
    ∃ t p, exec (.tick sr) s = .next t ∧ t.responses = p :: s.responses ∧ p.code = 0x00#8 ∧
      isFinite p.data = true ∧ fle (fneg one) p.data = true ∧ fle p.data one = true

/-- 41_envelope.md R137 (a), (b): with an attack of 1.0 second at an integer rate R the attack emits R or R - 1
samples, exactly R when R is a power of two, and then its last sample has time left 0.0 and, for an attack that starts from 0,
value 1.0. -/
def Obligations.AttackLastsOneSecondOfSamples : Prop :=
  ∀ (c : Config) (rate : Nat) (sr : F64) (r : Regs), 1 ≤ rate → rate ≤ 2 ^ 24 → isFinite sr = true →
    signedUnits sr = rate * oneUnits → r.stage = .attack → r.envAttack = one → r.envTimeLeft = one →
    (∃ n, (n = rate ∨ n + 1 = rate) ∧ (∀ k, k ≤ n → (afterTicks c sr k r).stage = .attack) ∧
      (∀ k, n < k → (afterTicks c sr k r).stage ≠ .attack)) ∧
    (∀ j, rate = 2 ^ j →
      (∀ k, k ≤ rate → (afterTicks c sr k r).stage = .attack) ∧
      (∀ k, rate < k → (afterTicks c sr k r).stage ≠ .attack) ∧
      (afterTicks c sr rate r).envTimeLeft = zero ∧
      (r.envAtkStart = zero → (afterTicks c sr rate r).envValue = one))

/-- 42_voice.md R172, 41_envelope.md R133, R139: a release whose time left is `m` sample periods, at a sample rate
2^j, emits `m` more release samples, is DONE with value +0.0 from then on, and a PRUNE then frees the block. -/
def Obligations.ReleaseEndsAndIsPruned : Prop :=
  ∀ (c : Config) (sr : F64) (j m : Nat) (r : Regs), j ≤ 24 → isFinite sr = true →
    signedUnits sr = 2 ^ j * oneUnits → m < 2 ^ 53 → isFinite r.envTimeLeft = true →
    signedUnits r.envTimeLeft * 2 ^ j = m * oneUnits → r.stage = .release → r.live = true →
    (∀ k, k ≤ m → (afterTicks c sr k r).stage = .release) ∧
    (∀ k, m < k → (afterTicks c sr k r).stage = .done ∧ (afterTicks c sr k r).envValue = zero ∧
      pruneEffect (afterTicks c sr k r) = .accept { afterTicks c sr k r with live := false } 0#64)
end

