-- ==== Sys2Proof/Laws/PerInstr.lean ====
section
/-! SUPPORT. Statements made of every command as syntax, one lemma per constructor. The family EncodedWellFormed: the
word a command is encoded as passes the two checks of 30_encoding.md R85, which WellFormed.lean writes from the
rules' own bit ranges, not from the encoder's. -/

namespace Sys2Proof.Laws

theorem toNat_append_eq {v w : Nat} (a : BitVec v) (b : BitVec w) :
    (a ++ b).toNat = a.toNat * 2 ^ w + b.toNat := by
  rw [BitVec.toNat_append, Nat.shiftLeft_eq, Nat.mul_comm, Nat.two_pow_add_eq_or_of_lt b.isLt]

/-- The opcode and the operand of an encoded command, as numbers. -/
theorem encode_parts (i : Instr) :
    (encode i).toNat / 2 ^ 64 = (opcodeOf i).toNat ∧ BitVec.ofNat 64 (encode i).toNat = operandOf i := by
  have hx := (operandOf i).isLt
  unfold encode
  rw [toNat_append_eq]
  constructor
  · omega
  · apply BitVec.eq_of_toNat_eq
    rw [BitVec.toNat_ofNat]
    omega

theorem operandOf_noteOn (n : Note) (v : Velocity) :
    (operandOf (.noteOn n v)).toNat = v.toNat * 2 ^ 8 + n.toNat := by
  refine (toNat_append_eq (0#49 ++ v ++ 0#1) n).trans ?_
  rw [toNat_append_eq, toNat_append_eq]
  simp only [BitVec.toNat_ofNat]
  omega

theorem operandOf_noteOff (n : Note) : (operandOf (.noteOff n)).toNat = n.toNat := by
  refine (toNat_append_eq (0#57) n).trans ?_
  simp

theorem operandOf_wrOscsel (w k : BitVec 2) : (operandOf (.wrOscsel w k)).toNat = k.toNat * 2 ^ 2 + w.toNat := by
  refine (toNat_append_eq (0#60 ++ k) w).trans ?_
  rw [toNat_append_eq]
  simp

theorem operandOf_read (i : RegIndex) : (operandOf (.read i)).toNat = i.toNat := by
  refine (toNat_append_eq (0#56) i).trans ?_
  simp

end Sys2Proof.Laws

namespace Sys2Proof.Laws.EncodedWellFormed

/-- The encoded word passes both checks of R85. -/
def Statement (i : Instr) : Prop := wellFormed (encode i) = true

/-- The two checks, on the parts of the encoded word. -/
theorem of_parts {i : Instr} {form : Form} (h1 : opcodeForm (opcodeOf i).toNat = some form)
    (h2 : form.reservedRanges.all (rangeClear (operandOf i)) = true) : Statement i := by
  unfold Statement wellFormed opcodeListed reservedClear
  obtain ⟨e1, e2⟩ := encode_parts i
  rw [e1, e2, h1]
  simpa using h2

theorem nop : Statement .nop := of_parts (form := .none) (by decide) (by decide)

theorem setFreq (f : F64) : Statement (.setFreq f) := of_parts (form := .f64) (by simp [opcodeOf, opcodeForm]) rfl

theorem noteOn (note : Note) (vel : Velocity) : Statement (.noteOn note vel) := by
  refine of_parts (form := .notev) (by simp [opcodeOf, opcodeForm]) ?_
  have h1 := note.isLt
  have h2 := vel.isLt
  simp only [Form.reservedRanges, List.all_cons, List.all_nil, rangeClear, operandOf_noteOn, Bool.and_eq_true, beq_iff_eq,
    Bool.and_true]
  omega

theorem noteOff (note : Note) : Statement (.noteOff note) := by
  refine of_parts (form := .note) (by simp [opcodeOf, opcodeForm]) ?_
  have h1 := note.isLt
  simp only [Form.reservedRanges, List.all_cons, List.all_nil, rangeClear, operandOf_noteOff, beq_iff_eq,
    Bool.and_true]
  omega

theorem tick (sr : F64) : Statement (.tick sr) := of_parts (form := .f64) (by simp [opcodeOf, opcodeForm]) rfl

theorem prune : Statement .prune := of_parts (form := .none) (by decide) (by decide)

theorem wrAttack (x : F64) : Statement (.wrAttack x) := of_parts (form := .f64) (by simp [opcodeOf, opcodeForm]) rfl

theorem wrDecay (x : F64) : Statement (.wrDecay x) := of_parts (form := .f64) (by simp [opcodeOf, opcodeForm]) rfl

theorem wrSustain (x : F64) : Statement (.wrSustain x) := of_parts (form := .f64) (by simp [opcodeOf, opcodeForm]) rfl

theorem wrRelease (x : F64) : Statement (.wrRelease x) := of_parts (form := .f64) (by simp [opcodeOf, opcodeForm]) rfl

theorem wrOscsel (wave carrier : BitVec 2) : Statement (.wrOscsel wave carrier) := by
  refine of_parts (form := .sel) (by simp [opcodeOf, opcodeForm]) ?_
  have h1 := wave.isLt
  have h2 := carrier.isLt
  simp only [Form.reservedRanges, List.all_cons, List.all_nil, rangeClear, operandOf_wrOscsel, beq_iff_eq,
    Bool.and_true]
  omega

theorem read (idx : RegIndex) : Statement (.read idx) := by
  refine of_parts (form := .idx) (by simp [opcodeOf, opcodeForm]) ?_
  have h1 := idx.isLt
  simp only [Form.reservedRanges, List.all_cons, List.all_nil, rangeClear, operandOf_read, beq_iff_eq,
    Bool.and_true]
  omega

theorem clrErr : Statement .clrErr := of_parts (form := .none) (by decide) (by decide)

end Sys2Proof.Laws.EncodedWellFormed
end

