-- ==== Sys2Proof/Laws/Decode.lean ====
section
/-! SUPPORT. The two fields of a word put together from an opcode and an operand (30_encoding.md R82), and the second
check of R85 on them. -/

namespace Sys2Proof

theorem toNat_word (opc : BitVec 8) (x : BitVec 64) :
    BitVec.toNat (w := 72) (opc ++ x) = opc.toNat * 2 ^ 64 + x.toNat := Laws.toNat_append_eq opc x

theorem opcField_append (opc : BitVec 8) (x : BitVec 64) : opcField (opc ++ x) = opc := by
  apply BitVec.eq_of_toNat_eq
  unfold opcField
  rw [BitVec.extractLsb'_toNat, toNat_word, Nat.shiftRight_eq_div_pow]
  have := opc.isLt
  have := x.isLt
  omega

theorem operandField_append (opc : BitVec 8) (x : BitVec 64) : operandField (opc ++ x) = x := by
  apply BitVec.eq_of_toNat_eq
  unfold operandField
  rw [BitVec.extractLsb'_toNat, toNat_word, Nat.shiftRight_zero]
  have := x.isLt
  omega

/-- A word is its two fields. -/
theorem opcField_append_operandField (w : Command) : opcField w ++ operandField w = w := by
  apply BitVec.eq_of_toNat_eq
  refine (toNat_word _ _).trans ?_
  unfold opcField operandField
  rw [BitVec.extractLsb'_toNat, BitVec.extractLsb'_toNat, Nat.shiftRight_eq_div_pow, Nat.shiftRight_zero]
  have := w.isLt
  omega

theorem checkReserved_f64 (x : BitVec 64) (i : Instr) : checkReserved .f64 x i = .command i := by
  simp [checkReserved, reservedMask]

theorem checkReserved_none (x : BitVec 64) (i : Instr) :
    checkReserved .none x i = if x = 0#64 then .command i else .rejected .reservedOperand := by
  have h : reservedMask .none = BitVec.allOnes 64 := by decide
  unfold checkReserved
  rw [h, BitVec.and_allOnes]

end Sys2Proof
end

