-- ==== Sys2Proof/Laws/Float.lean ====
section
/-! SUPPORT. The laws of binary64 patterns and of rounding (00_scope.md R10): `roundDiv` keeps order and is exact on
representable values. Every bound on an operation follows from these two. -/

namespace Sys2Proof.Machine

theorem magBits_lt (x : F64) : magBits x < 2 ^ 63 := Nat.mod_lt _ (by norm_num)

theorem infMag_lt : infMag < 2 ^ 63 := by norm_num [infMag]

theorem packBits_toNat (s : Bool) {m : Nat} (h : m < 2 ^ 63) :
    (packBits s m).toNat = (if s then 2 ^ 63 else 0) + m := by
  unfold packBits
  rw [BitVec.toNat_ofNat]
  apply Nat.mod_eq_of_lt
  split <;> omega

theorem magBits_packBits (s : Bool) {m : Nat} (h : m < 2 ^ 63) : magBits (packBits s m) = m := by
  unfold magBits
  rw [packBits_toNat s h]
  split <;> omega

theorem signBit_packBits (s : Bool) {m : Nat} (h : m < 2 ^ 63) : signBit (packBits s m) = s := by
  unfold signBit
  rw [packBits_toNat s h]
  cases s
  · simp; omega
  · simp

theorem packBits_eta (x : F64) : packBits (signBit x) (magBits x) = x := by
  apply BitVec.eq_of_toNat_eq
  rw [packBits_toNat _ (magBits_lt x)]
  have := x.isLt
  unfold signBit magBits
  by_cases h : 2 ^ 63 ≤ x.toNat
  · rw [decide_eq_true h]; simp; omega
  · rw [decide_eq_false h]; simp; omega

/-- The rounding error of `roundNat` is at most half. -/
theorem roundNat_bounds (n : Nat) {d : Nat} (hd : 0 < d) :
    2 * d * roundNat n d ≤ 2 * n + d ∧ 2 * n ≤ 2 * d * roundNat n d + d := by
  have h1 := Nat.div_add_mod n d
  have h2 := Nat.mod_lt n hd
  unfold roundNat
  generalize n / d = q at *
  generalize n % d = r at *
  simp only
  split_ifs <;> first
    | (constructor <;> nlinarith)
    | (have : 2 * r = d := by omega
       rcases Nat.mod_two_eq_zero_or_one q with h | h <;> rw [h] <;> constructor <;> nlinarith)

theorem roundNat_tie (n : Nat) {d : Nat} (hd : 0 < d)
    (h : 2 * d * roundNat n d = 2 * n + d ∨ 2 * n = 2 * d * roundNat n d + d) : roundNat n d % 2 = 0 := by
  have h1 := Nat.div_add_mod n d
  have h2 := Nat.mod_lt n hd
  revert h
  unfold roundNat
  generalize n / d = q at *
  generalize n % d = r at *
  simp only
  split_ifs with ha hb
  · rintro (h | h) <;> exfalso <;> nlinarith
  · rintro (h | h) <;> exfalso <;> nlinarith
  · intro _; omega

theorem roundNat_mul (m : Nat) {d : Nat} (hd : 0 < d) : roundNat (m * d) d = m := by
  unfold roundNat; simp [hd]

theorem roundNat_mono {n n' d d' : Nat} (hd : 0 < d) (hd' : 0 < d') (h : n * d' ≤ n' * d) :
    roundNat n d ≤ roundNat n' d' := by
  by_contra hlt
  push Not at hlt
  obtain ⟨a1, -⟩ := roundNat_bounds n hd
  obtain ⟨-, b2⟩ := roundNat_bounds n' hd'
  have t1 := roundNat_tie n hd
  have t2 := roundNat_tie n' hd'
  set m := roundNat n d
  set m' := roundNat n' d'
  -- 2 d m ≤ 2 n + d, 2 n' ≤ 2 d' m' + d', m ≥ m' + 1
  have e1 : 2 * d * m * d' ≤ 2 * n * d' + d * d' := by nlinarith
  have e2 : 2 * n' * d ≤ 2 * d' * m' * d + d' * d := by nlinarith
  have e3 : 2 * d * m * d' ≤ 2 * d' * m' * d + 2 * (d * d') := by nlinarith
  have hdd : 0 < d * d' := Nat.mul_pos hd hd'
  have e4 : m ≤ m' + 1 := by
    by_contra hc
    push Not at hc
    have : (m' + 2) * (d * d') ≤ m * (d * d') := Nat.mul_le_mul_right _ hc
    nlinarith
  have e5 : m = m' + 1 := by omega
  have k1 : 2 * d * m = 2 * n + d := by
    by_contra hne
    have : 2 * d * m + 1 ≤ 2 * n + d := by omega
    have : (2 * d * m + 1) * d' ≤ (2 * n + d) * d' := Nat.mul_le_mul_right _ this
    rw [e5] at this
    nlinarith
  have k2 : 2 * n' = 2 * d' * m' + d' := by
    by_contra hne
    have : 2 * n' + 1 ≤ 2 * d' * m' + d' := by omega
    have : (2 * n' + 1) * d ≤ (2 * d' * m' + d') * d := Nat.mul_le_mul_right _ this
    rw [e5] at e3 e1
    nlinarith
  have := t1 (Or.inl k1)
  have := t2 (Or.inr k2)
  omega

theorem roundExp_mono {q q' : Nat} (h : q ≤ q') : roundExp q ≤ roundExp q' := by
  unfold roundExp
  split_ifs with h1 h2
  · exact le_refl _
  · exact Nat.zero_le _
  · omega
  · have hq : q ≠ 0 := by rintro rfl; simp at h1
    have : q.log2 ≤ q'.log2 := (Nat.le_log2 (by omega)).2 ((Nat.log2_self_le hq).trans h)
    omega

/-- Where the rounding position is not zero, the quotient has at least 53 bits at it; it never has more. -/
theorem roundExp_spec (q : Nat) :
    q < 2 ^ (roundExp q + 53) ∧ (roundExp q ≠ 0 → 2 ^ (roundExp q + 52) ≤ q) := by
  unfold roundExp
  split_ifs with h
  · simpa using h
  · have hq : q ≠ 0 := by rintro rfl; simp at h
    have h53 : 53 ≤ q.log2 := (Nat.le_log2 hq).2 (by omega)
    constructor
    · have : q < 2 ^ (q.log2 + 1) := Nat.lt_log2_self
      rwa [show q.log2 - 52 + 53 = q.log2 + 1 by omega]
    · intro _
      rw [show q.log2 - 52 + 52 = q.log2 by omega]
      exact Nat.log2_self_le hq


/-- The units of a significand at a rounding position, from the magnitude bits the two are stored as. -/
theorem unitsOfMag_mul_add {k sig : Nat} (h1 : sig ≤ 2 ^ 53) (h2 : k ≠ 0 → 2 ^ 52 ≤ sig) :
    unitsOfMag (k * 2 ^ 52 + sig) = sig * 2 ^ k := by
  unfold unitsOfMag
  rcases Nat.lt_or_ge sig (2 ^ 52) with ha | ha
  · have hk : k = 0 := by by_contra hk; exact absurd (h2 hk) (by omega)
    subst hk
    rw [Nat.zero_mul, Nat.zero_add, if_pos (Nat.div_eq_of_lt ha), pow_zero, Nat.mul_one]
  · rcases Nat.lt_or_ge sig (2 ^ 53) with hb | hb
    · have e1 : (k * 2 ^ 52 + sig) / 2 ^ 52 = k + 1 := by omega
      have e2 : (k * 2 ^ 52 + sig) % 2 ^ 52 = sig - 2 ^ 52 := by omega
      rw [e1, e2, if_neg (by omega), Nat.add_sub_cancel, Nat.add_sub_cancel' ha]
    · have e0 : sig = 2 ^ 53 := by omega
      subst e0
      have e1 : (k * 2 ^ 52 + 2 ^ 53) / 2 ^ 52 = k + 2 := by omega
      have e2 : (k * 2 ^ 52 + 2 ^ 53) % 2 ^ 52 = 0 := by omega
      rw [e1, e2, if_neg (by omega), show k + 2 - 1 = k + 1 by omega, pow_succ]
      ring

/-- Magnitude bits split into the rounding position and the significand. -/
theorem mag_split (m : Nat) : ∃ k sig, m = k * 2 ^ 52 + sig ∧ sig < 2 ^ 53 ∧ (k ≠ 0 → 2 ^ 52 ≤ sig) := by
  by_cases h : m < 2 ^ 52
  · exact ⟨0, m, by omega, by omega, by simp⟩
  · exact ⟨m / 2 ^ 52 - 1, 2 ^ 52 + m % 2 ^ 52, by omega, by omega, by omega⟩

/-- What `roundDiv` rounds to before an overflow: a significand of at most 53 bits (or the next power of two) at
the rounding position, with 53 bits wherever the position is not zero. -/
theorem roundDiv_split (n : Nat) {d : Nat} (hd : 0 < d) :
    ∃ k sig, k = roundExp (n / d) ∧ sig = roundNat n (d * 2 ^ k) ∧
      roundDiv n d = min (k * 2 ^ 52 + sig) infMag ∧ sig ≤ 2 ^ 53 ∧ (k ≠ 0 → 2 ^ 52 ≤ sig) := by
  obtain ⟨h1, h2⟩ := roundExp_spec (n / d)
  refine ⟨_, _, rfl, rfl, rfl, ?_, fun hk => ?_⟩
  · set k := roundExp (n / d)
    have hlt : n < 2 ^ (k + 53) * d := (Nat.div_lt_iff_lt_mul hd).1 h1
    calc roundNat n (d * 2 ^ k) ≤ roundNat (2 ^ 53 * (d * 2 ^ k)) (d * 2 ^ k) := by
          apply roundNat_mono (by positivity) (by positivity)
          apply Nat.mul_le_mul_right
          calc n ≤ 2 ^ (k + 53) * d := hlt.le
            _ = 2 ^ 53 * (d * 2 ^ k) := by rw [pow_add]; ring
      _ = 2 ^ 53 := roundNat_mul _ (by positivity)
  · set k := roundExp (n / d)
    have hle : 2 ^ (k + 52) * d ≤ n := (Nat.le_div_iff_mul_le hd).1 (h2 hk)
    calc 2 ^ 52 = roundNat (2 ^ 52 * (d * 2 ^ k)) (d * 2 ^ k) := (roundNat_mul _ (by positivity)).symm
      _ ≤ roundNat n (d * 2 ^ k) := by
          apply roundNat_mono (by positivity) (by positivity)
          apply Nat.mul_le_mul_right
          calc 2 ^ 52 * (d * 2 ^ k) = 2 ^ (k + 52) * d := by rw [pow_add]; ring
            _ ≤ n := hle

theorem roundDiv_le_infMag (n d : Nat) : roundDiv n d ≤ infMag := Nat.min_le_right _ _

/-- Rounding keeps order. -/
theorem roundDiv_mono {n n' d d' : Nat} (hd : 0 < d) (hd' : 0 < d') (h : n * d' ≤ n' * d) :
    roundDiv n d ≤ roundDiv n' d' := by
  obtain ⟨k, sig, hk, hs, e, b1, b2⟩ := roundDiv_split n hd
  obtain ⟨k', sig', hk', hs', e', b1', b2'⟩ := roundDiv_split n' hd'
  have hq : n / d ≤ n' / d' := by
    rw [Nat.le_div_iff_mul_le hd']
    by_contra hc
    push Not at hc
    have := Nat.div_mul_le_self n d
    nlinarith
  have hkk : k ≤ k' := by rw [hk, hk']; exact roundExp_mono hq
  rw [e, e']
  apply min_le_min_right
  rcases hkk.eq_or_lt with hk2 | hk2
  · subst hk2
    have : sig ≤ sig' := by
      rw [hs, hs']
      apply roundNat_mono (by positivity) (by positivity)
      calc n * (d' * 2 ^ k) = n * d' * 2 ^ k := by ring
        _ ≤ n' * d * 2 ^ k := Nat.mul_le_mul_right _ h
        _ = n' * (d * 2 ^ k) := by ring
    omega
  · have := b2' (by omega)
    omega

/-- A representable value rounds to itself. -/
theorem roundDiv_unitsOfMag {m d : Nat} (hd : 0 < d) (hm : m < infMag) :
    roundDiv (unitsOfMag m * d) d = m := by
  obtain ⟨k, sig, rfl, h1, h2⟩ := mag_split m
  have hu : unitsOfMag (k * 2 ^ 52 + sig) = sig * 2 ^ k := unitsOfMag_mul_add h1.le h2
  have hq : sig * 2 ^ k * d / d = sig * 2 ^ k := Nat.mul_div_cancel _ hd
  have hk : roundExp (sig * 2 ^ k) = k := by
    unfold roundExp
    by_cases hk0 : k = 0
    · subst hk0; rw [pow_zero, Nat.mul_one, if_pos h1]
    · have h3 := h2 hk0
      have hne : sig * 2 ^ k ≠ 0 := by positivity
      have hge : ¬ sig * 2 ^ k < 2 ^ 53 := by
        have h4 : 2 ^ 1 ≤ 2 ^ k := Nat.pow_le_pow_right (by norm_num) (by omega)
        have : 2 ^ 52 * 2 ^ 1 ≤ sig * 2 ^ k := Nat.mul_le_mul h3 h4
        omega
      have hl : (sig * 2 ^ k).log2 = 52 + k := by
        apply le_antisymm
        · apply Nat.lt_succ_iff.1
          rw [Nat.log2_lt hne, show (52 + k).succ = 53 + k by omega, pow_add]
          exact Nat.mul_lt_mul_of_pos_right h1 (by positivity)
        · rw [Nat.le_log2 hne, pow_add]
          exact Nat.mul_le_mul_right _ h3
      rw [if_neg hge, hl]; omega
  unfold roundDiv
  simp only [hu, hq, hk]
  have : roundNat (sig * 2 ^ k * d) (d * 2 ^ k) = sig := by
    rw [show sig * 2 ^ k * d = sig * (d * 2 ^ k) by ring]
    exact roundNat_mul _ (by positivity)
  rw [this]
  omega

theorem roundDiv_le {n d m : Nat} (hd : 0 < d) (hm : m < infMag) (h : n ≤ unitsOfMag m * d) :
    roundDiv n d ≤ m := by
  calc roundDiv n d ≤ roundDiv (unitsOfMag m * d) d := roundDiv_mono hd hd (Nat.mul_le_mul_right _ h)
    _ = m := roundDiv_unitsOfMag hd hm

theorem le_roundDiv {n d m : Nat} (hd : 0 < d) (hm : m < infMag) (h : unitsOfMag m * d ≤ n) :
    m ≤ roundDiv n d := by
  calc m = roundDiv (unitsOfMag m * d) d := (roundDiv_unitsOfMag hd hm).symm
    _ ≤ roundDiv n d := roundDiv_mono hd hd (Nat.mul_le_mul_right _ h)

/-- The magnitude bits of finite values order them. -/
theorem unitsOfMag_lt {m m' : Nat} (hm : m < infMag) (h : m' < m) : unitsOfMag m' < unitsOfMag m := by
  by_contra hc
  push Not at hc
  have h1 := roundDiv_le (n := unitsOfMag m) (d := 1) (m := m') one_pos (by omega) (by omega)
  have h2 := roundDiv_unitsOfMag (d := 1) one_pos hm
  rw [Nat.mul_one] at h2
  omega

theorem unitsOfMag_le {m m' : Nat} (hm : m < infMag) (h : m' ≤ m) : unitsOfMag m' ≤ unitsOfMag m := by
  rcases h.eq_or_lt with rfl | h
  · exact le_refl _
  · exact (unitsOfMag_lt hm h).le

theorem unitsOfMag_zero : unitsOfMag 0 = 0 := by simp [unitsOfMag]

end Sys2Proof.Machine
end

