-- ==== Sys2Proof/Laws/Values.lean ====
section
/-! SUPPORT. The values of binary64 operations: a comparison of finite patterns is a comparison of their units, and
the result of an operation lies between any two representable values its exact result lies between. -/

namespace Sys2Proof.Machine

/-! ### Finite patterns -/

theorem isFinite_iff (x : F64) : isFinite x = true ↔ magBits x < infMag := by simp [isFinite]

theorem isNan_of_isFinite {x : F64} (h : isFinite x = true) : isNan x = false := by
  rw [isFinite_iff] at h; simp only [isNan, decide_eq_false_iff_not]; omega

theorem isInf_of_isFinite {x : F64} (h : isFinite x = true) : isInf x = false := by
  rw [isFinite_iff] at h; simp only [isInf, beq_eq_false_iff_ne]; omega

theorem isFinite_packBits (s : Bool) {m : Nat} (h : m < infMag) : isFinite (packBits s m) = true := by
  rw [isFinite_iff, magBits_packBits s (h.trans infMag_lt)]; exact h

theorem units_packBits (s : Bool) {m : Nat} (h : m < 2 ^ 63) : units (packBits s m) = unitsOfMag m := by
  unfold units; rw [magBits_packBits s h]

theorem signedUnits_packBits (s : Bool) {m : Nat} (h : m < 2 ^ 63) :
    signedUnits (packBits s m) = if s then -(unitsOfMag m : Int) else (unitsOfMag m : Int) := by
  unfold signedUnits; rw [signBit_packBits s h, units_packBits s h]

theorem natAbs_signedUnits (x : F64) : (signedUnits x).natAbs = units x := by
  unfold signedUnits; split <;> simp

theorem signedUnits_of_signBit {x : F64} (h : signBit x = false) : signedUnits x = units x := by
  unfold signedUnits; simp [h]

@[simp] theorem signedUnits_fneg (x : F64) : signedUnits (fneg x) = -signedUnits x := by
  unfold fneg
  rw [signedUnits_packBits _ (magBits_lt x)]
  unfold signedUnits units
  cases signBit x <;> simp

@[simp] theorem isFinite_fneg (x : F64) : isFinite (fneg x) = isFinite x := by
  unfold isFinite fneg; rw [magBits_packBits _ (magBits_lt x)]

@[simp] theorem signBit_fneg (x : F64) : signBit (fneg x) = !signBit x := signBit_packBits _ (magBits_lt x)

/-- Magnitude bits and units order finite values alike. -/
theorem unitsOfMag_le_iff {m m' : Nat} (h : m < infMag) (h' : m' < infMag) :
    unitsOfMag m ≤ unitsOfMag m' ↔ m ≤ m' := by
  constructor
  · intro hu
    by_contra hc
    exact absurd (unitsOfMag_lt h (by omega : m' < m)) (by omega)
  · exact unitsOfMag_le h'

/-- The order of finite patterns is the order of their values. -/
theorem orderKey_le_iff {a b : F64} (ha : isFinite a = true) (hb : isFinite b = true) :
    orderKey a ≤ orderKey b ↔ signedUnits a ≤ signedUnits b := by
  rw [isFinite_iff] at ha hb
  have h0 : (0 : Nat) < infMag := by norm_num [infMag]
  have z := unitsOfMag_zero
  have hab := unitsOfMag_le_iff ha hb
  have hba := unitsOfMag_le_iff hb ha
  have ha0 := unitsOfMag_le_iff ha h0
  have hb0 := unitsOfMag_le_iff hb h0
  unfold orderKey signedUnits units
  cases signBit a <;> cases signBit b <;> simp only [Bool.false_eq_true, if_true, if_false] <;> omega

theorem fle_iff {a b : F64} (ha : isFinite a = true) (hb : isFinite b = true) :
    fle a b = true ↔ signedUnits a ≤ signedUnits b := by
  rw [← orderKey_le_iff ha hb]; simp [fle, isNan_of_isFinite ha, isNan_of_isFinite hb]

theorem flt_iff {a b : F64} (ha : isFinite a = true) (hb : isFinite b = true) :
    flt a b = true ↔ signedUnits a < signedUnits b := by
  have := orderKey_le_iff hb ha
  simp only [flt, isNan_of_isFinite ha, isNan_of_isFinite hb, Bool.not_false, Bool.true_and, decide_eq_true_eq]
  omega

theorem feq_iff {a b : F64} (ha : isFinite a = true) (hb : isFinite b = true) :
    feq a b = true ↔ signedUnits a = signedUnits b := by
  have h1 := orderKey_le_iff ha hb
  have h2 := orderKey_le_iff hb ha
  simp only [feq, isNan_of_isFinite ha, isNan_of_isFinite hb, Bool.not_false, Bool.true_and, decide_eq_true_eq]
  omega

theorem flt_false_iff {a b : F64} (ha : isFinite a = true) (hb : isFinite b = true) :
    flt a b = false ↔ signedUnits b ≤ signedUnits a := by
  rw [← Bool.not_eq_true, flt_iff ha hb]; omega

theorem fle_false_iff {a b : F64} (ha : isFinite a = true) (hb : isFinite b = true) :
    fle a b = false ↔ signedUnits b < signedUnits a := by
  rw [← Bool.not_eq_true, fle_iff ha hb]; omega

/-- A pattern between two finite ones is finite. -/
theorem isFinite_of_between {lo x hi : F64} (hl : isFinite lo = true) (hh : isFinite hi = true)
    (h1 : fle lo x = true) (h2 : fle x hi = true) : isFinite x = true := by
  rw [isFinite_iff] at *
  have k1 : orderKey lo ≤ orderKey x := by simp only [fle, Bool.and_eq_true, decide_eq_true_eq] at h1; exact h1.2
  have k2 : orderKey x ≤ orderKey hi := by simp only [fle, Bool.and_eq_true, decide_eq_true_eq] at h2; exact h2.2
  unfold orderKey at k1 k2
  split_ifs at k1 k2 <;> omega

theorem unitsOfMag_lt_top {m : Nat} (h : m < infMag) : unitsOfMag m < 2 ^ 2098 := by
  have h1 : unitsOfMag (infMag - 1) < 2 ^ 2098 := by decide +kernel
  have h2 : infMag - 1 < infMag := by norm_num [infMag]
  exact lt_of_le_of_lt (unitsOfMag_le h2 (by omega)) h1

theorem units_lt_top {x : F64} (h : isFinite x = true) : units x < 2 ^ 2098 :=
  unitsOfMag_lt_top ((isFinite_iff x).1 h)

/-! ### Constants -/

@[simp] theorem isFinite_zero : isFinite zero = true := by decide
@[simp] theorem isFinite_one : isFinite one = true := by decide
@[simp] theorem signBit_zero : signBit zero = false := by decide
@[simp] theorem signBit_one : signBit one = false := by decide
@[simp] theorem signedUnits_zero : signedUnits zero = 0 := by decide
theorem signedUnits_one : signedUnits one = (oneUnits : Int) := by decide +kernel
theorem oneUnits_pos : 0 < oneUnits := by unfold oneUnits; positivity

/-! ### Results between two representable values -/

/-- The magnitude of a rounded quotient lies between any two representable magnitudes that the quotient lies
between. -/
theorem unitsOfMag_roundDiv_between {n d lo hi : Nat} (hd : 0 < d) (hlo : lo < infMag) (hhi : hi < infMag)
    (h1 : unitsOfMag lo * d ≤ n) (h2 : n ≤ unitsOfMag hi * d) :
    roundDiv n d < infMag ∧ unitsOfMag lo ≤ unitsOfMag (roundDiv n d) ∧
      unitsOfMag (roundDiv n d) ≤ unitsOfMag hi := by
  have a := le_roundDiv hd hlo h1
  have b := roundDiv_le hd hhi h2
  exact ⟨by omega, unitsOfMag_le (by omega) a, unitsOfMag_le hhi b⟩

/-- A signed quotient `(-1)^s * n / d`, rounded, lies between any two finite values that it lies between. -/
theorem signedUnits_round_between {s : Bool} {n d : Nat} {lo hi : F64} (hd : 0 < d) (hlo : isFinite lo = true)
    (hhi : isFinite hi = true) (h1 : signedUnits lo * d ≤ (if s then -(n : Int) else n))
    (h2 : (if s then -(n : Int) else n) ≤ signedUnits hi * d) :
    isFinite (packBits s (roundDiv n d)) = true ∧ signedUnits lo ≤ signedUnits (packBits s (roundDiv n d)) ∧
      signedUnits (packBits s (roundDiv n d)) ≤ signedUnits hi := by
  have hd' : (0 : Int) < d := by exact_mod_cast hd
  have hm := (roundDiv_le_infMag n d).trans_lt infMag_lt
  rw [signedUnits_packBits s hm]
  have fl := (isFinite_iff lo).1 hlo
  have fh := (isFinite_iff hi).1 hhi
  have h0 : (0 : Nat) < infMag := by norm_num [infMag]
  have key : ∀ (x : F64) (t : Bool), isFinite x = true → signBit x = t → (n : Int) ≤ units x * d →
      roundDiv n d < infMag ∧ unitsOfMag (roundDiv n d) ≤ units x := by
    intro x t hx _ hn
    have hx' := (isFinite_iff x).1 hx
    have h3 : n ≤ unitsOfMag (magBits x) * d := by exact_mod_cast hn
    have := roundDiv_le hd hx' h3
    exact ⟨by omega, unitsOfMag_le hx' this⟩
  have low : ∀ x : F64, isFinite x = true → (units x * d : Int) ≤ n → roundDiv n d < infMag →
      units x ≤ unitsOfMag (roundDiv n d) := by
    intro x hx hn hr
    have h3 : unitsOfMag (magBits x) * d ≤ n := by exact_mod_cast hn
    exact unitsOfMag_le hr (le_roundDiv hd ((isFinite_iff x).1 hx) h3)
  have n0 : (0 : Int) ≤ n := by positivity
  cases s
  · simp only [Bool.false_eq_true, if_false] at h1 h2 ⊢
    have hsh : signedUnits hi = units hi := by
      unfold signedUnits at h2 ⊢
      split
      · rename_i hs; rw [if_pos hs] at h2
        have : (units hi : Int) * d ≤ 0 := by linarith
        have : (units hi : Int) ≤ 0 := by by_contra hc; nlinarith
        omega
      · rfl
    rw [hsh] at h2 ⊢
    obtain ⟨r1, r2⟩ := key hi _ hhi rfl h2
    refine ⟨isFinite_packBits _ r1, ?_, by exact_mod_cast r2⟩
    unfold signedUnits at h1 ⊢
    split
    · have : (0 : Int) ≤ unitsOfMag (roundDiv n d) := by positivity
      have : (0 : Int) ≤ units lo := by positivity
      omega
    · rename_i hs; rw [if_neg hs] at h1
      exact_mod_cast low lo hlo h1 r1
  · simp only [if_true] at h1 h2 ⊢
    have hsl : signedUnits lo = -(units lo : Int) := by
      unfold signedUnits at h1 ⊢
      split
      · rfl
      · rename_i hs; rw [if_neg hs] at h1
        have : (units lo : Int) * d ≤ 0 := by linarith
        have : (units lo : Int) ≤ 0 := by by_contra hc; nlinarith
        omega
    rw [hsl] at h1 ⊢
    obtain ⟨r1, r2⟩ := key lo _ hlo rfl (by linarith)
    refine ⟨isFinite_packBits _ r1, by omega, ?_⟩
    unfold signedUnits at h2 ⊢
    split
    · rename_i hs; rw [if_pos hs] at h2
      have := low hi hhi (by linarith) r1
      omega
    · have : (0 : Int) ≤ units hi := by positivity
      omega

theorem fadd_finite {a b : F64} (ha : isFinite a = true) (hb : isFinite b = true) :
    fadd a b = if signedUnits a + signedUnits b = 0 then zeroOf (signBit a && signBit b)
      else roundInt (signedUnits a + signedUnits b) := by
  unfold fadd
  simp [isNan_of_isFinite ha, isNan_of_isFinite hb, isInf_of_isFinite ha, isInf_of_isFinite hb]

theorem fsub_finite {a b : F64} (ha : isFinite a = true) (hb : isFinite b = true) :
    fsub a b = fadd a (fneg b) := by
  unfold fsub; simp [isNan_of_isFinite ha, isNan_of_isFinite hb]

theorem fmul_finite {a b : F64} (ha : isFinite a = true) (hb : isFinite b = true) :
    fmul a b = packBits (signBit a != signBit b) (roundDiv (units a * units b) oneUnits) := by
  unfold fmul
  simp [isNan_of_isFinite ha, isNan_of_isFinite hb, isInf_of_isFinite ha, isInf_of_isFinite hb]

theorem fdiv_finite {a b : F64} (ha : isFinite a = true) (hb : isFinite b = true) (h0 : units b ≠ 0) :
    fdiv a b = packBits (signBit a != signBit b) (roundDiv (units a * oneUnits) (units b)) := by
  unfold fdiv
  simp [isNan_of_isFinite ha, isNan_of_isFinite hb, isInf_of_isFinite ha, isInf_of_isFinite hb, h0]

theorem signedUnits_zeroOf (s : Bool) : signedUnits (zeroOf s) = 0 := by
  unfold zeroOf; rw [signedUnits_packBits s (by norm_num), unitsOfMag_zero]; simp

theorem isFinite_zeroOf (s : Bool) : isFinite (zeroOf s) = true := isFinite_packBits s (by norm_num [infMag])

/-- A sum lies between any two finite values that the exact sum lies between. -/
theorem fadd_between {a b lo hi : F64} (ha : isFinite a = true) (hb : isFinite b = true) (hlo : isFinite lo = true)
    (hhi : isFinite hi = true) (h1 : signedUnits lo ≤ signedUnits a + signedUnits b)
    (h2 : signedUnits a + signedUnits b ≤ signedUnits hi) :
    isFinite (fadd a b) = true ∧ signedUnits lo ≤ signedUnits (fadd a b) ∧
      signedUnits (fadd a b) ≤ signedUnits hi := by
  rw [fadd_finite ha hb]
  split
  · rename_i hz
    rw [signedUnits_zeroOf, ← hz]
    exact ⟨isFinite_zeroOf _, h1, h2⟩
  · unfold roundInt
    have e : (if decide (signedUnits a + signedUnits b < 0) then -((signedUnits a + signedUnits b).natAbs : Int)
        else ((signedUnits a + signedUnits b).natAbs : Int)) = signedUnits a + signedUnits b := by
      simp only [decide_eq_true_eq]; split <;> omega
    apply signedUnits_round_between one_pos hlo hhi <;> rw [e] <;> push_cast <;> linarith

/-- A difference lies between any two finite values that the exact difference lies between. -/
theorem fsub_between {a b lo hi : F64} (ha : isFinite a = true) (hb : isFinite b = true) (hlo : isFinite lo = true)
    (hhi : isFinite hi = true) (h1 : signedUnits lo ≤ signedUnits a - signedUnits b)
    (h2 : signedUnits a - signedUnits b ≤ signedUnits hi) :
    isFinite (fsub a b) = true ∧ signedUnits lo ≤ signedUnits (fsub a b) ∧
      signedUnits (fsub a b) ≤ signedUnits hi := by
  rw [fsub_finite ha hb]
  apply fadd_between ha (by simpa using hb) hlo hhi <;> rw [signedUnits_fneg] <;> linarith

theorem signed_mul (a b : F64) :
    (if (signBit a != signBit b) then -((units a * units b : Nat) : Int) else ((units a * units b : Nat) : Int)) =
      signedUnits a * signedUnits b := by
  unfold signedUnits
  cases signBit a <;> cases signBit b <;> simp

/-- A product lies between any two finite values that the exact product lies between. -/
theorem fmul_between {a b lo hi : F64} (ha : isFinite a = true) (hb : isFinite b = true) (hlo : isFinite lo = true)
    (hhi : isFinite hi = true) (h1 : signedUnits lo * oneUnits ≤ signedUnits a * signedUnits b)
    (h2 : signedUnits a * signedUnits b ≤ signedUnits hi * oneUnits) :
    isFinite (fmul a b) = true ∧ signedUnits lo ≤ signedUnits (fmul a b) ∧
      signedUnits (fmul a b) ≤ signedUnits hi := by
  rw [fmul_finite ha hb]
  apply signedUnits_round_between oneUnits_pos hlo hhi <;> rw [signed_mul] <;> assumption

/-- A quotient by a positive value lies between any two finite values that the exact quotient lies between. -/
theorem fdiv_between {a b lo hi : F64} (ha : isFinite a = true) (hb : isFinite b = true) (hlo : isFinite lo = true)
    (hhi : isFinite hi = true) (hpos : 0 < signedUnits b)
    (h1 : signedUnits lo * signedUnits b ≤ signedUnits a * oneUnits)
    (h2 : signedUnits a * oneUnits ≤ signedUnits hi * signedUnits b) :
    isFinite (fdiv a b) = true ∧ signedUnits lo ≤ signedUnits (fdiv a b) ∧
      signedUnits (fdiv a b) ≤ signedUnits hi := by
  have hsb : signBit b = false := by
    by_contra hc
    rw [Bool.not_eq_false] at hc
    unfold signedUnits at hpos
    rw [if_pos hc] at hpos
    omega
  have hub : signedUnits b = units b := signedUnits_of_signBit hsb
  rw [hub] at hpos h1 h2
  have e : (if (signBit a != signBit b) then -((units a * oneUnits : Nat) : Int)
      else ((units a * oneUnits : Nat) : Int)) = signedUnits a * oneUnits := by
    rw [hsb]; unfold signedUnits; generalize oneUnits = u; cases signBit a <;> simp
  rw [fdiv_finite ha hb (by omega)]
  apply signedUnits_round_between (by omega) hlo hhi <;> rw [e] <;> assumption

end Sys2Proof.Machine
end

