-- ==== Sys2Proof/Laws/Nearest.lean ====
section
/-! SUPPORT. Rounding to nearest even (00_scope.md R10): what `roundDiv` answers is nearest among the finite
magnitudes, a tie goes to even magnitude bits, and an overflow gives the infinity. -/

namespace Sys2Proof.Machine

/-- The units of the next magnitude above a rounded one. -/
theorem unitsOfMag_succ_ge {k sig : Nat} (h1 : sig ≤ 2 ^ 53) (h2 : k ≠ 0 → 2 ^ 52 ≤ sig) :
    (sig + 1) * 2 ^ k ≤ unitsOfMag (k * 2 ^ 52 + sig + 1) := by
  rcases Nat.lt_or_ge sig (2 ^ 53) with h | h
  · rw [show k * 2 ^ 52 + sig + 1 = k * 2 ^ 52 + (sig + 1) by ring,
      unitsOfMag_mul_add (by omega) (fun hk => by have := h2 hk; omega)]
  · have e : sig = 2 ^ 53 := by omega
    subst e
    rw [show k * 2 ^ 52 + 2 ^ 53 + 1 = (k + 1) * 2 ^ 52 + (2 ^ 52 + 1) by ring,
      unitsOfMag_mul_add (by norm_num) (by norm_num), pow_succ 2 k]
    generalize 2 ^ k = P
    omega

/-- The units of the next magnitude below, except just above a power of two. -/
theorem unitsOfMag_pred_eq {k sig : Nat} (h1 : sig ≤ 2 ^ 53) (h0 : 0 < sig) (h2 : k ≠ 0 → 2 ^ 52 < sig) :
    unitsOfMag (k * 2 ^ 52 + sig - 1) = (sig - 1) * 2 ^ k := by
  rw [show k * 2 ^ 52 + sig - 1 = k * 2 ^ 52 + (sig - 1) by omega]
  exact unitsOfMag_mul_add (by omega) (fun hk => by have := h2 hk; omega)

theorem boundary_eq : 2 ^ 2098 - 2 ^ 2044 = (2 ^ 54 - 1) * 2 ^ 2044 := by decide +kernel

/-- Below the rounding boundary of the largest finite value there is no overflow. -/
theorem roundDiv_lt_infMag {n d : Nat} (hd : 0 < d) (h : n < (2 ^ 2098 - 2 ^ 2044) * d) :
    ∃ k sig, roundDiv n d = k * 2 ^ 52 + sig ∧ roundDiv n d < infMag ∧ sig ≤ 2 ^ 53 ∧ (k ≠ 0 → 2 ^ 52 ≤ sig) ∧
      (k ≠ 0 → d * (2 ^ 52 * 2 ^ k) ≤ n) ∧ sig = roundNat n (d * 2 ^ k) := by
  obtain ⟨k, sig, hk, hs, e, b1, b2⟩ := roundDiv_split n hd
  obtain ⟨-, q2⟩ := roundExp_spec (n / d)
  rw [← hk] at q2
  have q3 : k ≠ 0 → d * (2 ^ 52 * 2 ^ k) ≤ n := by
    intro h0
    have := (Nat.le_div_iff_mul_le hd).1 (q2 h0)
    rw [pow_add] at this
    linarith
  rw [boundary_eq] at h
  have hk2 : k ≤ 2045 := by
    by_contra hc
    have h3 := q3 (by omega)
    have h4 : 2 ^ 2046 ≤ 2 ^ k := Nat.pow_le_pow_right (by norm_num) (by omega)
    have h5 : d * (2 ^ 52 * 2 ^ 2046) ≤ n := le_trans (by gcongr) h3
    have e2 : d * (2 ^ 52 * 2 ^ 2046) = 2 ^ 54 * (2 ^ 2044 * d) := by
      rw [show (2 : Nat) ^ 2046 = 2 ^ (2 + 2044) from rfl, pow_add]; ring
    rw [e2] at h5
    rw [Nat.mul_assoc] at h
    generalize 2 ^ 2044 * d = X at h h5
    omega
  have hlt : k * 2 ^ 52 + sig < infMag := by
    rcases hk2.lt_or_eq with h3 | rfl
    · have : k * 2 ^ 52 ≤ 2044 * 2 ^ 52 := Nat.mul_le_mul_right _ (by omega)
      norm_num [infMag] at *
      omega
    · have hD : 0 < d * 2 ^ 2045 := by positivity
      obtain ⟨r1, -⟩ := roundNat_bounds n hD
      have e2 : d * 2 ^ 2045 = 2 * (2 ^ 2044 * d) := by
        rw [show (2 : Nat) ^ 2045 = 2 ^ (1 + 2044) from rfl, pow_add]; ring
      rw [← hs, e2] at r1
      rw [e2] at hD
      rw [Nat.mul_assoc] at h
      have : sig < 2 ^ 53 := by
        generalize 2 ^ 2044 * d = X at h r1 hD
        by_contra hc
        have h4 : X * 2 ^ 53 ≤ X * sig := Nat.mul_le_mul_left _ (by omega)
        have h5 : 2 * (2 * X) * sig = 4 * (X * sig) := by ring
        omega
      norm_num [infMag] at *
      omega
  have e' : roundDiv n d = k * 2 ^ 52 + sig := by rw [e]; exact Nat.min_eq_left hlt.le
  exact ⟨k, sig, e', by rw [e']; exact hlt, b1, b2, q3, hs⟩

/-- `P` is nearest to `n` against `V` when `V` is a step `Q` or more away from `P` and `P` at most half a step from
`n`. -/
theorem nearest_of_step {n P Q V : Nat} (_ : 0 < Q) (h : V + Q ≤ P ∨ P + Q ≤ V) (r1 : 2 * P ≤ 2 * n + Q)
    (r2 : 2 * n ≤ 2 * P + Q) :
    |(n : Int) - P| ≤ |(n : Int) - V| ∧
      (|(n : Int) - P| = |(n : Int) - V| → 2 * P = 2 * n + Q ∨ 2 * n = 2 * P + Q) := by
  rcases abs_cases ((n : Int) - P) with ⟨h1, _⟩ | ⟨h1, _⟩ <;>
    rcases abs_cases ((n : Int) - V) with ⟨h2, _⟩ | ⟨h2, _⟩ <;> rw [h1, h2] <;> omega

/-- The rounded magnitude is nearest among the finite ones, and even where another is as near. -/
theorem roundDiv_nearest {n d : Nat} (hd : 0 < d) (h : n < (2 ^ 2098 - 2 ^ 2044) * d) {m : Nat} (hm : m < infMag) :
    |(n : Int) - (d * unitsOfMag (roundDiv n d) : Nat)| ≤ |(n : Int) - (d * unitsOfMag m : Nat)| ∧
    (|(n : Int) - (d * unitsOfMag (roundDiv n d) : Nat)| = |(n : Int) - (d * unitsOfMag m : Nat)| →
      m = roundDiv n d ∨ roundDiv n d % 2 = 0) := by
  obtain ⟨k, sig, e, hr, b1, b2, q, hs⟩ := roundDiv_lt_infMag hd h
  have hD : 0 < d * 2 ^ k := by positivity
  obtain ⟨r1, r2⟩ := roundNat_bounds n hD
  have rt := roundNat_tie n hD
  rw [← hs] at r1 r2 rt
  have e2 : 2 * (d * 2 ^ k) * sig = 2 * (d * 2 ^ k * sig) := Nat.mul_assoc _ _ _
  rw [e2] at r1 r2 rt
  have hu : unitsOfMag (roundDiv n d) = sig * 2 ^ k := by rw [e]; exact unitsOfMag_mul_add b1 b2
  have hdu : d * unitsOfMag (roundDiv n d) = d * 2 ^ k * sig := by rw [hu]; ring
  have hpar : roundDiv n d % 2 = sig % 2 := by rw [e]; omega
  have finish : (d * unitsOfMag m + d * 2 ^ k ≤ d * 2 ^ k * sig ∨ d * 2 ^ k * sig + d * 2 ^ k ≤ d * unitsOfMag m) →
      |(n : Int) - (d * unitsOfMag (roundDiv n d) : Nat)| ≤ |(n : Int) - (d * unitsOfMag m : Nat)| ∧
      (|(n : Int) - (d * unitsOfMag (roundDiv n d) : Nat)| = |(n : Int) - (d * unitsOfMag m : Nat)| →
        m = roundDiv n d ∨ roundDiv n d % 2 = 0) := by
    intro hstep
    rw [hdu]
    obtain ⟨f1, f2⟩ := nearest_of_step hD hstep r1 r2
    exact ⟨f1, fun hh => Or.inr (by rw [hpar]; exact rt (f2 hh))⟩
  rcases lt_trichotomy m (roundDiv n d) with hlt | heq | hgt
  · by_cases hc : k ≠ 0 ∧ sig = 2 ^ 52
    · -- just above a power of two: the exact value is not below the rounded one
      obtain ⟨hk, rfl⟩ := hc
      have h3 := q hk
      rw [← hu] at h3
      have h4 := Nat.mul_lt_mul_of_pos_left (unitsOfMag_lt hr hlt) hd
      generalize d * unitsOfMag (roundDiv n d) = A at *
      generalize d * unitsOfMag m = B at *
      rw [abs_of_nonneg (by omega), abs_of_nonneg (by omega)]
      omega
    · have hk2 : k ≠ 0 → 2 ^ 52 < sig := by
        intro hk
        rcases (b2 hk).eq_or_lt with h6 | h6
        · exact absurd ⟨hk, h6.symm⟩ hc
        · exact h6
      have hp : 0 < sig := by
        by_contra h0
        have : sig = 0 := by omega
        by_cases hk : k = 0
        · subst hk; omega
        · have := hk2 hk; omega
      have hle : unitsOfMag m ≤ unitsOfMag (roundDiv n d - 1) := unitsOfMag_le (by omega) (by omega)
      rw [e, unitsOfMag_pred_eq b1 hp hk2] at hle
      apply finish
      left
      obtain ⟨j, rfl⟩ : ∃ j, sig = j + 1 := ⟨sig - 1, by omega⟩
      rw [Nat.add_sub_cancel] at hle
      calc d * unitsOfMag m + d * 2 ^ k ≤ d * (j * 2 ^ k) + d * 2 ^ k := by gcongr
        _ = d * 2 ^ k * (j + 1) := by ring
  · subst heq
    exact ⟨le_refl _, fun _ => Or.inl rfl⟩
  · have hle : unitsOfMag (roundDiv n d + 1) ≤ unitsOfMag m := unitsOfMag_le hm (by omega)
    have hge : (sig + 1) * 2 ^ k ≤ unitsOfMag m := by
      rw [e] at hle
      exact (unitsOfMag_succ_ge b1 b2).trans hle
    apply finish
    right
    calc d * 2 ^ k * sig + d * 2 ^ k = d * ((sig + 1) * 2 ^ k) := by ring
      _ ≤ d * unitsOfMag m := Nat.mul_le_mul_left _ hge

/-- At or above the boundary the result is the infinity. -/
theorem roundDiv_overflow {n d : Nat} (hd : 0 < d) (h : (2 ^ 2098 - 2 ^ 2044) * d ≤ n) : roundDiv n d = infMag := by
  apply le_antisymm (roundDiv_le_infMag n d)
  have e : roundDiv (2 ^ 2098 - 2 ^ 2044) 1 = infMag := by decide +kernel
  calc infMag = roundDiv (2 ^ 2098 - 2 ^ 2044) 1 := e.symm
    _ ≤ roundDiv n d := roundDiv_mono one_pos hd (by rw [Nat.mul_one]; exact h)

/-- A whole number of at most 53 significant bits, times a power of two in range, is a finite magnitude. -/
theorem exists_mag_of_mul_pow {sig k : Nat} (h1 : sig ≤ 2 ^ 53) (hk : k ≤ 2044) :
    ∃ m, m < infMag ∧ unitsOfMag m = sig * 2 ^ k := by
  induction k generalizing sig with
  | zero =>
    refine ⟨0 * 2 ^ 52 + sig, ?_, unitsOfMag_mul_add h1 (by simp)⟩
    norm_num [infMag] at *; omega
  | succ k ih =>
    by_cases h : 2 ^ 52 ≤ sig
    · refine ⟨(k + 1) * 2 ^ 52 + sig, ?_, unitsOfMag_mul_add h1 (fun _ => h)⟩
      have : (k + 1) * 2 ^ 52 ≤ 2044 * 2 ^ 52 := Nat.mul_le_mul_right _ hk
      norm_num [infMag] at *; omega
    · obtain ⟨m, h3, h4⟩ := ih (sig := 2 * sig) (by omega) (by omega)
      exact ⟨m, h3, by rw [h4, pow_succ]; ring⟩

end Sys2Proof.Machine
end

