-- ==== Sys2Proof/Laws/Fraction.lean ====
section
/-! SUPPORT. Whole and fractional parts (00_scope.md R13, 40_oscillator.md R101): both parts of a finite value are
finite values, so `floor` and the difference that `wrap` takes are exact. -/

namespace Sys2Proof.Machine

/-- The whole part and the fractional part of a finite magnitude are finite magnitudes. -/
theorem exists_whole_and_fraction {m : Nat} (hm : m < infMag) :
    (∃ w, w < infMag ∧ unitsOfMag w = unitsOfMag m / oneUnits * oneUnits) ∧
    (∃ f, f < infMag ∧ unitsOfMag f = unitsOfMag m % oneUnits) := by
  obtain ⟨k, sig, e, h1, h2⟩ := mag_split m
  have hu : unitsOfMag m = sig * 2 ^ k := by rw [e]; exact unitsOfMag_mul_add h1.le h2
  have hz : (0 : Nat) < infMag := by norm_num [infMag]
  by_cases hk : 1074 ≤ k
  · have hd : oneUnits ∣ unitsOfMag m := by
      rw [hu]; unfold oneUnits; exact Dvd.dvd.mul_left (pow_dvd_pow 2 hk) sig
    refine ⟨⟨m, hm, (Nat.div_mul_cancel hd).symm⟩, ⟨0, hz, ?_⟩⟩
    rw [unitsOfMag_zero, Nat.mod_eq_zero_of_dvd hd]
  · have hk' : k ≤ 2044 := by omega
    have e1 : oneUnits = 2 ^ (1074 - k) * 2 ^ k := by unfold oneUnits; rw [← pow_add]; congr 1; omega
    have hp : 0 < 2 ^ k := by positivity
    rw [hu, e1]
    generalize 2 ^ (1074 - k) = B
    constructor
    · obtain ⟨w, hw, ew⟩ := exists_mag_of_mul_pow (sig := sig / B * B) (k := k)
        ((Nat.div_mul_le_self _ _).trans h1.le) hk'
      refine ⟨w, hw, ?_⟩
      rw [ew, Nat.mul_div_mul_right _ _ hp]
      ring
    · obtain ⟨f, hf, ef⟩ := exists_mag_of_mul_pow (sig := sig % B) (k := k) ((Nat.mod_le _ _).trans h1.le) hk'
      refine ⟨f, hf, ?_⟩
      rw [ef, Nat.mul_mod_mul_right]

/-- A whole number of units that is a finite magnitude is not rounded. -/
theorem roundInt_exact {z : Int} {m : Nat} (hm : m < infMag) (h : z.natAbs = unitsOfMag m) :
    isFinite (roundInt z) = true ∧ signedUnits (roundInt z) = z := by
  have e : roundDiv z.natAbs 1 = m := by
    rw [h]; simpa using roundDiv_unitsOfMag (d := 1) one_pos hm
  unfold roundInt
  rw [e]
  refine ⟨isFinite_packBits _ hm, ?_⟩
  rw [signedUnits_packBits _ (hm.trans infMag_lt), ← h]
  simp only [decide_eq_true_eq]
  split <;> omega

/-- A sum that is a finite value is exact. -/
theorem fadd_exact {a b : F64} {m : Nat} (ha : isFinite a = true) (hb : isFinite b = true) (hm : m < infMag)
    (h : (signedUnits a + signedUnits b).natAbs = unitsOfMag m) :
    isFinite (fadd a b) = true ∧ signedUnits (fadd a b) = signedUnits a + signedUnits b := by
  rw [fadd_finite ha hb]
  split
  · rename_i hz
    exact ⟨isFinite_zeroOf _, by rw [signedUnits_zeroOf, hz]⟩
  · exact roundInt_exact hm h

/-- A difference that is a finite value is exact. -/
theorem fsub_exact {a b : F64} {m : Nat} (ha : isFinite a = true) (hb : isFinite b = true) (hm : m < infMag)
    (h : (signedUnits a - signedUnits b).natAbs = unitsOfMag m) :
    isFinite (fsub a b) = true ∧ signedUnits (fsub a b) = signedUnits a - signedUnits b := by
  rw [fsub_finite ha hb]
  have h2 : signedUnits a + signedUnits (fneg b) = signedUnits a - signedUnits b := by
    rw [signedUnits_fneg]; ring
  rw [← h2]
  exact fadd_exact ha (by simpa using hb) hm (by rw [h2]; exact h)

/-- The floor of a value at or above zero is exact. -/
theorem ffloor_value {x : F64} (hx : isFinite x = true) (h0 : 0 ≤ signedUnits x) :
    isFinite (ffloor x) = true ∧ signedUnits (ffloor x) = signedUnits x / oneUnits * oneUnits := by
  unfold ffloor
  simp only [isNan_of_isFinite hx, isInf_of_isFinite hx, Bool.false_eq_true, if_false]
  split
  · rename_i hz
    exact ⟨isFinite_zeroOf _, by rw [signedUnits_zeroOf, hz]⟩
  · obtain ⟨⟨w, hw, ew⟩, -⟩ := exists_whole_and_fraction ((isFinite_iff x).1 hx)
    apply roundInt_exact hw
    have hu : signedUnits x = units x := by
      unfold signedUnits at h0 ⊢
      split
      · rename_i hs; rw [if_pos hs] at h0; omega
      · rfl
    rw [hu, ew]
    unfold units
    rw [← Int.natCast_ediv, ← Int.natCast_mul, Int.natAbs_natCast]

/-- Two patterns of one finite value that is not zero are the same pattern. -/
theorem eq_of_signedUnits {a b : F64} (ha : isFinite a = true) (hb : isFinite b = true)
    (h : signedUnits a = signedUnits b) (h0 : signedUnits a ≠ 0) : a = b := by
  have h1 := (isFinite_iff a).1 ha
  have h2 := (isFinite_iff b).1 hb
  have hu : units a = units b := by rw [← natAbs_signedUnits, ← natAbs_signedUnits, h]
  have hm : magBits a = magBits b :=
    le_antisymm ((unitsOfMag_le_iff h1 h2).1 hu.le) ((unitsOfMag_le_iff h2 h1).1 hu.ge)
  have hs : signBit a = signBit b := by
    unfold signedUnits at h h0
    cases ha' : signBit a <;> cases hb' : signBit b <;> rw [ha', hb'] at h <;>
      simp only [Bool.false_eq_true, if_true, if_false] at h <;> first | rfl | (exfalso; omega)
  rw [← packBits_eta a, ← packBits_eta b, hm, hs]

end Sys2Proof.Machine
end

