-- ==== Sys2Proof/Laws/Root.lean ====
section
/-! SUPPORT. The square root (00_scope.md R10): the whole root, and that the rounded root is nearest to the real
one, said without reals: twice the root lies on the rounded value's side of every sum of it and another value. -/

namespace Sys2Proof.Machine

theorem isqrt_spec : ∀ (fuel n : Nat), n < 4 ^ fuel →
    isqrt fuel n * isqrt fuel n ≤ n ∧ n < (isqrt fuel n + 1) * (isqrt fuel n + 1)
  | 0, n, h => by simp at h; subst h; simp [isqrt]
  | fuel + 1, n, h => by
    have h4 : n / 4 < 4 ^ fuel := by rw [pow_succ] at h; omega
    obtain ⟨a, b⟩ := isqrt_spec fuel (n / 4) h4
    unfold isqrt
    generalize isqrt fuel (n / 4) = s at a b
    simp only
    have e1 : 2 * s * (2 * s) = 4 * (s * s) := by ring
    have e2 : (2 * s + 1 + 1) * (2 * s + 1 + 1) = 4 * ((s + 1) * (s + 1)) := by ring
    split
    · rename_i hr; exact ⟨hr, by omega⟩
    · rename_i hr; exact ⟨by omega, by omega⟩

/-- A finite magnitude of 54 or more bits above a power of two is a multiple of twice that power. -/
theorem dvd_unitsOfMag {m h : Nat} (hm : 2 ^ (h + 54) ≤ unitsOfMag m) : 2 ^ (h + 1) ∣ unitsOfMag m := by
  obtain ⟨k, sig, rfl, h1, h2⟩ := mag_split m
  rw [unitsOfMag_mul_add h1.le h2] at hm ⊢
  have : h + 1 ≤ k := by
    by_contra hc
    have h3 : 2 ^ k ≤ 2 ^ h := Nat.pow_le_pow_right (by norm_num) (by omega)
    have h4 : sig * 2 ^ k < 2 ^ 53 * 2 ^ h + 1 := by
      have := Nat.mul_le_mul h1.le h3
      omega
    rw [pow_add] at hm
    have : 0 < 2 ^ h := by positivity
    generalize 2 ^ h = H at *
    omega
  exact Dvd.dvd.mul_left (pow_dvd_pow 2 this) sig

/-- The digits `sqrtMag` computes: the whole root `t` of the leading part, at the position `h`. -/
theorem root_digits {n : Nat} (hn : 2 ^ 160 ≤ n) :
    ∃ h t, h = (n.log2 - 160) / 2 ∧ t = isqrt 82 (n / 4 ^ h) ∧ 2 ^ 80 ≤ t ∧ t * t * 4 ^ h ≤ n ∧
      n < (t + 1) * (t + 1) * 4 ^ h := by
  have n0 : n ≠ 0 := by intro h0; subst h0; norm_num at hn
  have hL : 160 ≤ n.log2 := (Nat.le_log2 n0).2 hn
  have hlt : n < 2 ^ (n.log2 + 1) := Nat.lt_log2_self
  have hge : 2 ^ n.log2 ≤ n := Nat.log2_self_le n0
  refine ⟨_, _, rfl, rfl, ?_⟩
  generalize n.log2 = L at *
  set h := (L - 160) / 2
  have e4 : 4 ^ h = 2 ^ (2 * h) := by rw [pow_mul]; norm_num
  have hpos : 0 < 4 ^ h := by positivity
  have hsmall : n / 4 ^ h < 4 ^ 82 := by
    rw [Nat.div_lt_iff_lt_mul hpos, e4, show (4 : Nat) ^ 82 = 2 ^ 164 by norm_num, ← pow_add]
    exact hlt.trans_le (Nat.pow_le_pow_right (by norm_num) (by omega))
  have hbig : 2 ^ 160 ≤ n / 4 ^ h := by
    rw [Nat.le_div_iff_mul_le hpos, e4, ← pow_add]
    exact (Nat.pow_le_pow_right (by norm_num) (by omega)).trans hge
  obtain ⟨a, b⟩ := isqrt_spec 82 _ hsmall
  generalize isqrt 82 (n / 4 ^ h) = t at *
  refine ⟨?_, ?_, ?_⟩
  · by_contra hc
    have : (t + 1) * (t + 1) ≤ 2 ^ 80 * 2 ^ 80 := Nat.mul_le_mul (by omega) (by omega)
    norm_num at *
    omega
  · calc t * t * 4 ^ h ≤ n / 4 ^ h * 4 ^ h := Nat.mul_le_mul_right _ a
      _ ≤ n := Nat.div_mul_le_self _ _
  · have := (Nat.div_lt_iff_lt_mul hpos).1 b
    exact this

/-- The rounded root is finite and nearest to the root of `u * 2^1074`. -/
theorem sqrtMag_nearest {u : Nat} (h0 : 0 < u) (hu : u < 2 ^ 2098) :
    sqrtMag u < infMag ∧ ∀ m, m < infMag →
      (unitsOfMag (sqrtMag u) < unitsOfMag m →
        4 * (u * oneUnits) ≤ (unitsOfMag (sqrtMag u) + unitsOfMag m) * (unitsOfMag (sqrtMag u) + unitsOfMag m)) ∧
      (unitsOfMag m < unitsOfMag (sqrtMag u) →
        (unitsOfMag (sqrtMag u) + unitsOfMag m) * (unitsOfMag (sqrtMag u) + unitsOfMag m) ≤ 4 * (u * oneUnits)) := by
  have hn : 2 ^ 160 ≤ u * oneUnits := by
    have h1 : 2 ^ 160 ≤ oneUnits := by decide +kernel
    calc 2 ^ 160 ≤ oneUnits := h1
      _ ≤ u * oneUnits := Nat.le_mul_of_pos_left _ h0
  have hnlt : u * oneUnits < 2 ^ 3172 := by
    have h1 : 2 ^ 3172 = 2 ^ 2098 * oneUnits := by decide +kernel
    rw [h1]
    exact Nat.mul_lt_mul_of_pos_right hu oneUnits_pos
  clear hu h0
  have es : sqrtMag u = roundDiv ((2 * isqrt 82 (u * oneUnits / 4 ^ (((u * oneUnits).log2 - 160) / 2)) +
      (if isqrt 82 (u * oneUnits / 4 ^ (((u * oneUnits).log2 - 160) / 2)) *
        2 ^ (((u * oneUnits).log2 - 160) / 2) * (isqrt 82 (u * oneUnits / 4 ^ (((u * oneUnits).log2 - 160) / 2)) *
        2 ^ (((u * oneUnits).log2 - 160) / 2)) = u * oneUnits then 0 else 1)) *
        2 ^ (((u * oneUnits).log2 - 160) / 2)) 2 := rfl
  rw [es]
  generalize u * oneUnits = n at *
  obtain ⟨h, t, hh, ht, t80, tlo, thi⟩ := root_digits hn
  rw [← hh, ← ht]
  clear es hh ht hn
  have e4 : 4 ^ h = 2 ^ h * 2 ^ h := by rw [← pow_add, ← two_mul, pow_mul]; norm_num
  rw [e4] at tlo thi
  have sq : t * 2 ^ h * (t * 2 ^ h) = t * t * (2 ^ h * 2 ^ h) := by ring
  rw [sq]
  -- the quotient the rounding sees: the root itself, or the middle of the digit's interval
  obtain ⟨c, hc, hexact, hmid⟩ : ∃ c, (if t * t * (2 ^ h * 2 ^ h) = n then 0 else 1) = c ∧
      (c = 0 → t * t * (2 ^ h * 2 ^ h) = n) ∧ (c = 0 ∨ c = 1) := by
    by_cases hx : t * t * (2 ^ h * 2 ^ h) = n
    · exact ⟨0, if_pos hx, fun _ => hx, Or.inl rfl⟩
    · exact ⟨1, if_neg hx, fun h1 => absurd h1 one_ne_zero, Or.inr rfl⟩
  rw [hc]
  clear hc
  have hroot : t * 2 ^ h < 2 ^ 1586 := by
    by_contra hcon
    have h1 : 2 ^ 1586 * 2 ^ 1586 ≤ t * 2 ^ h * (t * 2 ^ h) :=
      Nat.mul_le_mul (Nat.le_of_not_lt hcon) (Nat.le_of_not_lt hcon)
    rw [← pow_add, sq] at h1
    exact absurd (h1.trans tlo) (Nat.not_le_of_lt hnlt)
  have hov : (2 * t + c) * 2 ^ h < (2 ^ 2098 - 2 ^ 2044) * 2 := by
    have h1 : (2 * t + c) * 2 ^ h ≤ 4 * (t * 2 ^ h) := by
      calc (2 * t + c) * 2 ^ h ≤ 4 * t * 2 ^ h := Nat.mul_le_mul_right _ (by omega)
        _ = 4 * (t * 2 ^ h) := Nat.mul_assoc _ _ _
    have h2 : 4 * 2 ^ 1586 ≤ (2 ^ 2098 - 2 ^ 2044) * 2 := by decide +kernel
    have h3 : 4 * (t * 2 ^ h) < 4 * 2 ^ 1586 := by
      generalize 2 ^ 1586 = Z at hroot
      omega
    exact lt_of_le_of_lt h1 (lt_of_lt_of_le h3 h2)
  obtain ⟨_, _, _, hr, _⟩ := roundDiv_lt_infMag (n := (2 * t + c) * 2 ^ h) (d := 2) (by norm_num) hov
  refine ⟨hr, ?_⟩
  have near := fun m (hm : m < infMag) => (roundDiv_nearest (n := (2 * t + c) * 2 ^ h) (d := 2) (by norm_num) hov hm).1
  -- the rounded value has its bits far above the digit's interval
  obtain ⟨p, hp1, hp2⟩ : ∃ p, p < infMag ∧ unitsOfMag p = 1 * 2 ^ (80 + h) := by
    apply exists_mag_of_mul_pow (by norm_num)
    by_contra hcon
    have h1 : 2 ^ 1586 ≤ 2 ^ (80 + h) := Nat.pow_le_pow_right (by norm_num) (by omega)
    have h2 : 2 ^ (80 + h) ≤ t * 2 ^ h := by rw [pow_add]; exact Nat.mul_le_mul_right _ t80
    exact absurd (h1.trans h2) (Nat.not_le_of_lt hroot)
  obtain ⟨p', hp1', hp2'⟩ : ∃ p, p < infMag ∧ unitsOfMag p = 1 * 2 ^ (79 + h) := by
    apply exists_mag_of_mul_pow (by norm_num)
    by_contra hcon
    have h1 : 2 ^ 1586 ≤ 2 ^ (79 + h) := Nat.pow_le_pow_right (by norm_num) (by omega)
    have h2 : 2 ^ (79 + h) ≤ t * 2 ^ h := by
      rw [pow_add]; exact Nat.mul_le_mul_right _ (le_trans (by norm_num) t80)
    exact absurd (h1.trans h2) (Nat.not_le_of_lt hroot)
  have hpr : p ≤ roundDiv ((2 * t + c) * 2 ^ h) 2 := by
    apply le_roundDiv two_pos hp1
    rw [hp2, one_mul, pow_add]
    calc 2 ^ 80 * 2 ^ h * 2 ≤ t * 2 ^ h * 2 := by gcongr
      _ = 2 * t * 2 ^ h := by ring
      _ ≤ (2 * t + c) * 2 ^ h := Nat.mul_le_mul_right _ (by omega)
  clear hov hnlt hroot
  generalize roundDiv ((2 * t + c) * 2 ^ h) 2 = r at *
  have hpp : p' < p := by
    by_contra hcon
    have := unitsOfMag_le hp1' (Nat.le_of_not_lt hcon)
    rw [hp2, hp2'] at this
    have : 1 * 2 ^ (79 + h) < 1 * 2 ^ (80 + h) := by
      rw [one_mul, one_mul]; exact Nat.pow_lt_pow_right (by norm_num) (by omega)
    omega
  have dvd_of_ge : ∀ m, m < infMag → p' ≤ m → 2 ^ (h + 1) ∣ unitsOfMag m := by
    intro m hm hpm
    apply dvd_unitsOfMag
    calc 2 ^ (h + 54) ≤ 1 * 2 ^ (79 + h) := by
          rw [one_mul]; exact Nat.pow_le_pow_right (by norm_num) (by omega)
      _ = unitsOfMag p' := hp2'.symm
      _ ≤ unitsOfMag m := unitsOfMag_le hm hpm
  have hH : 0 < 2 ^ h := by positivity
  have h2H : 2 ^ (h + 1) = 2 * 2 ^ h := by rw [pow_succ]; ring
  rw [h2H] at dvd_of_ge
  -- a value above: the quotient is at most the middle
  have above : ∀ m, m < infMag → unitsOfMag r < unitsOfMag m → (2 * t + c) * 2 ^ h ≤ unitsOfMag r + unitsOfMag m := by
    intro m hm hlt
    have h1 := near m hm
    generalize (2 * t + c) * 2 ^ h = q at *
    rcases abs_cases ((q : Int) - (2 * unitsOfMag r : Nat)) with ⟨h2, _⟩ | ⟨h2, _⟩ <;>
      rcases abs_cases ((q : Int) - (2 * unitsOfMag m : Nat)) with ⟨h3, _⟩ | ⟨h3, _⟩ <;> rw [h2, h3] at h1 <;> omega
  have below : ∀ m, m < infMag → unitsOfMag m < unitsOfMag r → unitsOfMag r + unitsOfMag m ≤ (2 * t + c) * 2 ^ h := by
    intro m hm hlt
    have h1 := near m hm
    generalize (2 * t + c) * 2 ^ h = q at *
    rcases abs_cases ((q : Int) - (2 * unitsOfMag r : Nat)) with ⟨h2, _⟩ | ⟨h2, _⟩ <;>
      rcases abs_cases ((q : Int) - (2 * unitsOfMag m : Nat)) with ⟨h3, _⟩ | ⟨h3, _⟩ <;> rw [h2, h3] at h1 <;> omega
  clear near
  have dr := dvd_of_ge r hr (by omega)
  intro m hm
  constructor
  · intro hlt
    have h1 := above m hm hlt
    have hrm : r < m := by
      by_contra hcon
      have := unitsOfMag_le hr (Nat.le_of_not_lt hcon)
      omega
    obtain ⟨a, ha⟩ := Nat.dvd_add dr (dvd_of_ge m hm (by omega))
    rw [ha] at h1 ⊢
    generalize 2 ^ h = H at *
    have e : 2 * H * a * (2 * H * a) = 4 * (a * a * (H * H)) := by ring
    rw [e]
    rcases hmid with rfl | rfl
    · rw [← hexact rfl]
      have : t ≤ a := by
        have e2 : (2 * t + 0) * H = t * (2 * H) := by ring
        have e3 : 2 * H * a = a * (2 * H) := by ring
        rw [e2, e3] at h1
        exact Nat.le_of_mul_le_mul_right h1 (by omega)
      gcongr
    · have : t + 1 ≤ a := by
        by_contra hcon
        have h3 : a * H ≤ t * H := Nat.mul_le_mul_right _ (by omega)
        have e2 : (2 * t + 1) * H = 2 * (t * H) + H := by ring
        have e3 : 2 * H * a = 2 * (a * H) := by ring
        omega
      calc 4 * n ≤ 4 * ((t + 1) * (t + 1) * (H * H)) := by omega
        _ ≤ 4 * (a * a * (H * H)) := by gcongr
  · intro hlt
    rcases hmid with rfl | rfl
    · have h1 := below m hm hlt
      rw [← hexact rfl]
      calc (unitsOfMag r + unitsOfMag m) * (unitsOfMag r + unitsOfMag m)
          ≤ ((2 * t + 0) * 2 ^ h) * ((2 * t + 0) * 2 ^ h) := Nat.mul_le_mul h1 h1
        _ = 4 * (t * t * (2 ^ h * 2 ^ h)) := by ring
    · have hmr : m < r := by
        by_contra hcon
        have := unitsOfMag_le hm (Nat.le_of_not_lt hcon)
        omega
      have hle : unitsOfMag m ≤ unitsOfMag (r - 1) := unitsOfMag_le (by omega) (by omega)
      have h1 := below (r - 1) (by omega) (unitsOfMag_lt hr (by omega))
      obtain ⟨a, ha⟩ := Nat.dvd_add dr (dvd_of_ge (r - 1) (by omega) (by omega))
      have h2 : unitsOfMag r + unitsOfMag m ≤ 2 * 2 ^ h * a := by omega
      rw [ha] at h1
      generalize 2 ^ h = H at *
      have : a ≤ t := by
        by_contra hcon
        have h3 : (t + 1) * H ≤ a * H := Nat.mul_le_mul_right _ (by omega)
        have e1 : (t + 1) * H = t * H + H := by ring
        have e2 : (2 * t + 1) * H = 2 * (t * H) + H := by ring
        have e3 : 2 * H * a = 2 * (a * H) := by ring
        omega
      calc (unitsOfMag r + unitsOfMag m) * (unitsOfMag r + unitsOfMag m)
          ≤ 2 * H * a * (2 * H * a) := Nat.mul_le_mul h2 h2
        _ = 4 * (a * a * (H * H)) := by ring
        _ ≤ 4 * (t * t * (H * H)) := by gcongr
        _ ≤ 4 * n := by omega

/-- The rounded root lies between any two representable values that the root lies between. -/
theorem sqrtMag_between {u lo hi : Nat} (h0 : 0 < u) (hu : u < 2 ^ 2098) (hlo : lo < infMag) (hhi : hi < infMag)
    (h1 : unitsOfMag lo * unitsOfMag lo ≤ u * oneUnits) (h2 : u * oneUnits ≤ unitsOfMag hi * unitsOfMag hi) :
    unitsOfMag lo ≤ unitsOfMag (sqrtMag u) ∧ unitsOfMag (sqrtMag u) ≤ unitsOfMag hi := by
  obtain ⟨-, hall⟩ := sqrtMag_nearest h0 hu
  clear hu
  generalize u * oneUnits = n at *
  generalize unitsOfMag (sqrtMag u) = R at *
  constructor
  · by_contra hc
    have := (hall lo hlo).1 (by omega)
    nlinarith
  · by_contra hc
    have := (hall hi hhi).2 (by omega)
    nlinarith

theorem fsqrt_finite {x : F64} (h : isFinite x = true) (hs : signBit x = false) (h0 : units x ≠ 0) :
    fsqrt x = packBits false (sqrtMag (units x)) := by
  unfold fsqrt; simp [isNan_of_isFinite h, isInf_of_isFinite h, hs, h0]

theorem fsqrt_zero_value {x : F64} (h : isFinite x = true) (h0 : units x = 0) : fsqrt x = x := by
  unfold fsqrt; simp [isNan_of_isFinite h, h, h0]

/-- The square root of a value in [0, 1] is a value in [0, 1]. -/
theorem fsqrt_unit {x : F64} (h : isFinite x = true) (h1 : 0 ≤ signedUnits x) (h2 : signedUnits x ≤ oneUnits) :
    isFinite (fsqrt x) = true ∧ 0 ≤ signedUnits (fsqrt x) ∧ signedUnits (fsqrt x) ≤ oneUnits := by
  by_cases h0 : units x = 0
  · rw [fsqrt_zero_value h h0]; exact ⟨h, h1, h2⟩
  · have hs : signBit x = false := by
      by_contra hc
      rw [Bool.not_eq_false] at hc
      unfold signedUnits at h1
      rw [if_pos hc] at h1
      omega
    rw [signedUnits_of_signBit hs] at h2
    have hu : units x ≤ oneUnits := Int.ofNat_le.1 h2
    have e1 : unitsOfMag (magBits one) = oneUnits := by decide +kernel
    have hp : 0 < units x := by omega
    have h3 := (sqrtMag_nearest hp (units_lt_top h)).1
    have h4 := (sqrtMag_between (lo := 0) (hi := magBits one) hp (units_lt_top h) (by norm_num [infMag]) (by decide)
      (by rw [unitsOfMag_zero]; omega) (by rw [e1]; exact Nat.mul_le_mul_right _ hu)).2
    rw [e1] at h4
    rw [fsqrt_finite h hs h0, signedUnits_packBits _ (h3.trans infMag_lt)]
    refine ⟨isFinite_packBits _ h3, ?_, ?_⟩ <;> simp only [Bool.false_eq_true, if_false]
    · exact Int.natCast_nonneg _
    · exact Int.ofNat_le.2 h4

end Sys2Proof.Machine
end

