-- ==== Sys2Proof/Laws/Levels.lean ====
section
/-! SUPPORT. Values in [0, 1]: the validity checks said in units, the error of one rounding below 1.0, and the ease
curve (41_envelope.md R131), which takes levels to a level. -/

namespace Sys2Proof.Machine

/-! ### The checks in units -/

theorem signedUnits_fneg_one : signedUnits (fneg one) = -(oneUnits : Int) := by rw [signedUnits_fneg, signedUnits_one]

theorem inUnit_iff (x : F64) :
    inUnit x = true ↔ isFinite x = true ∧ 0 ≤ signedUnits x ∧ signedUnits x < oneUnits := by
  unfold inUnit
  simp only [Bool.and_eq_true]
  constructor
  · rintro ⟨⟨h, h1⟩, h2⟩
    rw [fle_iff isFinite_zero h, signedUnits_zero] at h1
    rw [flt_iff h isFinite_one, signedUnits_one] at h2
    exact ⟨h, h1, h2⟩
  · rintro ⟨h, h1, h2⟩
    rw [fle_iff isFinite_zero h, signedUnits_zero, flt_iff h isFinite_one, signedUnits_one]
    exact ⟨⟨h, h1⟩, h2⟩

theorem validLevel_iff (x : F64) :
    validLevel x = true ↔ isFinite x = true ∧ 0 ≤ signedUnits x ∧ signedUnits x ≤ oneUnits := by
  unfold validLevel
  simp only [Bool.and_eq_true]
  constructor
  · rintro ⟨⟨h, h1⟩, h2⟩
    rw [fle_iff isFinite_zero h, signedUnits_zero] at h1
    rw [fle_iff h isFinite_one, signedUnits_one] at h2
    exact ⟨h, h1, h2⟩
  · rintro ⟨h, h1, h2⟩
    rw [fle_iff isFinite_zero h, signedUnits_zero, fle_iff h isFinite_one, signedUnits_one]
    exact ⟨⟨h, h1⟩, h2⟩

theorem validDuration_iff (x : F64) : validDuration x = true ↔ isFinite x = true ∧ 0 ≤ signedUnits x := by
  unfold validDuration
  simp only [Bool.and_eq_true]
  constructor
  · rintro ⟨h, h1⟩
    rw [fle_iff isFinite_zero h, signedUnits_zero] at h1
    exact ⟨h, h1⟩
  · rintro ⟨h, h1⟩
    rw [fle_iff isFinite_zero h, signedUnits_zero]
    exact ⟨h, h1⟩

/-! ### One rounding -/

theorem unitsOfMag_one : unitsOfMag (magBits one) = oneUnits := by decide +kernel

/-- A quotient of magnitude at most 1.0 is rounded by at most 2^1020 units, half the place of its last bit. -/
theorem roundDiv_error {n d : Nat} (hd : 0 < d) (h : n ≤ oneUnits * d) :
    d * unitsOfMag (roundDiv n d) ≤ n + d * 2 ^ 1020 ∧ n ≤ d * unitsOfMag (roundDiv n d) + d * 2 ^ 1020 := by
  have hd1 : d * unitsOfMag (magBits one) = oneUnits * d := by rw [unitsOfMag_one, Nat.mul_comm]
  have hm1 : magBits one < infMag := by decide
  rcases h.eq_or_lt with he | hlt
  · have e : roundDiv n d = magBits one := by
      rw [he, ← unitsOfMag_one]; exact roundDiv_unitsOfMag hd hm1
    rw [e, hd1, he]
    exact ⟨Nat.le_add_right _ _, Nat.le_add_right _ _⟩
  · obtain ⟨k, sig, hk, hs, e, b1, b2⟩ := roundDiv_split n hd
    obtain ⟨-, q2⟩ := roundExp_spec (n / d)
    rw [← hk] at q2
    have hk2 : k ≤ 1021 := by
      by_contra hc
      have h1 := (Nat.le_div_iff_mul_le hd).1 (q2 (by omega))
      have h2 : oneUnits ≤ 2 ^ (k + 52) := by
        unfold oneUnits; exact Nat.pow_le_pow_right (by norm_num) (by omega)
      exact absurd ((Nat.mul_le_mul_right d h2).trans h1) (Nat.not_le_of_lt hlt)
    have hfin : k * 2 ^ 52 + sig < infMag := by
      have : k * 2 ^ 52 ≤ 1021 * 2 ^ 52 := Nat.mul_le_mul_right _ hk2
      clear q2 hd1 h hlt
      norm_num [infMag] at *; omega
    have e2 : roundDiv n d = k * 2 ^ 52 + sig := by rw [e]; exact Nat.min_eq_left hfin.le
    rw [e2, unitsOfMag_mul_add b1 b2]
    obtain ⟨r1, r2⟩ := roundNat_bounds n (show 0 < d * 2 ^ k by positivity)
    rw [← hs] at r1 r2
    have h4 : d * 2 ^ k ≤ 2 * (d * 2 ^ 1020) := by
      calc d * 2 ^ k ≤ d * 2 ^ (1 + 1020) := Nat.mul_le_mul_left _ (Nat.pow_le_pow_right (by norm_num) (by omega))
        _ = 2 * (d * 2 ^ 1020) := by rw [pow_add]; ring
    have e5 : 2 * (d * 2 ^ k) * sig = 2 * (d * (sig * 2 ^ k)) := by ring
    rw [e5] at r1 r2
    clear q2 hk2 h hlt hd1
    generalize d * 2 ^ 1020 = W at *
    generalize d * (sig * 2 ^ k) = V at *
    generalize d * 2 ^ k = U at *
    omega

/-- A difference of magnitude at most 1.0 is rounded by at most 2^1020 units. -/
theorem fsub_error {a b : F64} (ha : isFinite a = true) (hb : isFinite b = true)
    (h : |signedUnits a - signedUnits b| ≤ oneUnits) :
    |signedUnits (fsub a b) - (signedUnits a - signedUnits b)| ≤ (2 ^ 1020 : Nat) := by
  rw [fsub_finite ha hb, fadd_finite ha (by simpa using hb), signedUnits_fneg, ← sub_eq_add_neg]
  split
  · rename_i hz
    rw [signedUnits_zeroOf, hz, sub_self, abs_zero]
    generalize 2 ^ 1020 = W
    exact Int.natCast_nonneg _
  · generalize signedUnits a - signedUnits b = z at *
    have h1 : z.natAbs ≤ oneUnits * 1 := by
      rw [Nat.mul_one]; generalize oneUnits = u at *
      rcases abs_cases z with ⟨h2, _⟩ | ⟨h2, _⟩ <;> rw [h2] at h <;> omega
    obtain ⟨e1, e2⟩ := roundDiv_error (n := z.natAbs) (d := 1) (by norm_num) h1
    rw [Nat.one_mul, Nat.one_mul] at e1 e2
    unfold roundInt
    rw [signedUnits_packBits _ ((roundDiv_le_infMag _ _).trans_lt infMag_lt)]
    generalize 2 ^ 1020 = W at *
    generalize unitsOfMag (roundDiv z.natAbs 1) = V at *
    clear h h1
    rw [abs_le]
    simp only [decide_eq_true_eq]
    split <;> constructor <;> omega

/-- A sum at or above zero and below the overflow boundary is a finite value at or above zero. -/
theorem fadd_nonneg {a b : F64} (ha : isFinite a = true) (hb : isFinite b = true)
    (h0 : 0 ≤ signedUnits a + signedUnits b)
    (h1 : (signedUnits a + signedUnits b).natAbs < (2 ^ 2098 - 2 ^ 2044) * 1) :
    isFinite (fadd a b) = true ∧ 0 ≤ signedUnits (fadd a b) := by
  rw [fadd_finite ha hb]
  split
  · exact ⟨isFinite_zeroOf _, (signedUnits_zeroOf _).ge⟩
  · obtain ⟨_, _, _, hr, _⟩ := roundDiv_lt_infMag (d := 1) (by norm_num) h1
    unfold roundInt
    have hneg : decide (signedUnits a + signedUnits b < 0) = false := by
      rw [decide_eq_false_iff_not]; exact not_lt.2 h0
    rw [hneg]
    refine ⟨isFinite_packBits _ hr, ?_⟩
    rw [signedUnits_packBits _ (hr.trans infMag_lt)]
    exact Int.natCast_nonneg _

/-- A sum at or above zero that is above 1.0 by no more than the error of one rounding is a level. -/
theorem fadd_level {a b : F64} (ha : isFinite a = true) (hb : isFinite b = true)
    (h0 : 0 ≤ signedUnits a + signedUnits b) (h1 : signedUnits a + signedUnits b ≤ (oneUnits + 2 ^ 1020 : Nat)) :
    validLevel (fadd a b) = true := by
  rw [validLevel_iff, fadd_finite ha hb]
  split
  · exact ⟨isFinite_zeroOf _, by rw [signedUnits_zeroOf], by rw [signedUnits_zeroOf]; exact Int.natCast_nonneg _⟩
  · have hz : (signedUnits a + signedUnits b).natAbs * 1 ≤ (oneUnits + 2 ^ 1020) * 1 := by
      generalize oneUnits + 2 ^ 1020 = u at *
      generalize signedUnits a + signedUnits b = z at *
      omega
    have h2 : roundDiv (oneUnits + 2 ^ 1020) 1 = magBits one := by decide +kernel
    have h3 := roundDiv_mono (d := 1) (d' := 1) (by norm_num) (by norm_num) hz
    rw [h2] at h3
    have hm1 : magBits one < infMag := by decide
    have h4 := unitsOfMag_le hm1 h3
    rw [unitsOfMag_one] at h4
    unfold roundInt
    have hneg : decide (signedUnits a + signedUnits b < 0) = false := by
      rw [decide_eq_false_iff_not]; exact not_lt.2 h0
    rw [hneg, signedUnits_packBits _ ((h3.trans_lt hm1).trans infMag_lt)]
    exact ⟨isFinite_packBits _ (h3.trans_lt hm1), Int.natCast_nonneg _, Int.ofNat_le.2 h4⟩

/-! ### The ease curve -/

/-- What the difference of two levels, added to the first again, can come to. -/
theorem fsub_levels {s t : F64} (hs : validLevel s = true) (ht : validLevel t = true) :
    isFinite (fsub t s) = true ∧ -signedUnits s ≤ signedUnits (fsub t s) ∧
      signedUnits s + signedUnits (fsub t s) ≤ (oneUnits + 2 ^ 1020 : Nat) := by
  obtain ⟨s1, s2, s3⟩ := (validLevel_iff s).1 hs
  obtain ⟨t1, t2, t3⟩ := (validLevel_iff t).1 ht
  have h1 := fsub_between (lo := fneg s) (hi := one) t1 s1 (by simpa using s1) isFinite_one
    (by rw [signedUnits_fneg]; linarith) (by rw [signedUnits_one]; linarith)
  rw [signedUnits_fneg] at h1
  have h2 := fsub_error t1 s1 (by rw [abs_le]; constructor <;> linarith)
  refine ⟨h1.1, h1.2.1, ?_⟩
  have h3 := (abs_le.1 h2).2
  rw [Nat.cast_add]
  linarith

/-- The ease curve takes levels to a level, at every time left from 0 to its total. -/
theorem ease_level {start target tl total : F64} (hs : validLevel start = true) (ht : validLevel target = true)
    (h1 : isFinite tl = true) (h2 : isFinite total = true) (h3 : 0 ≤ signedUnits tl)
    (h4 : signedUnits tl ≤ signedUnits total) (h5 : 0 < signedUnits total) :
    validLevel (ease start target tl total) = true := by
  obtain ⟨d1, d2, d3⟩ := fsub_levels hs ht
  obtain ⟨s1, s2, s3⟩ := (validLevel_iff start).1 hs
  have hp : (0 : Int) < oneUnits := Int.ofNat_lt.2 oneUnits_pos
  have q := fdiv_between (lo := zero) (hi := one) h1 h2 isFinite_zero isFinite_one h5
    (by rw [signedUnits_zero, zero_mul]; exact mul_nonneg h3 hp.le)
    (by rw [signedUnits_one, mul_comm]; exact mul_le_mul_of_nonneg_left h4 hp.le)
  rw [signedUnits_zero, signedUnits_one] at q
  have u := fsub_between (lo := zero) (hi := one) (a := one) isFinite_one q.1 isFinite_zero isFinite_one
    (by rw [signedUnits_one, signedUnits_zero]; linarith [q.2.2]) (by rw [signedUnits_one]; linarith [q.2.1])
  rw [signedUnits_zero, signedUnits_one] at u
  obtain ⟨e1, e2, e3⟩ := fsqrt_unit u.1 u.2.1 u.2.2
  unfold ease
  simp only
  generalize fsqrt (fsub one (fdiv tl total)) = e at *
  have h7 : (0 : Int) ≤ ((2 ^ 1020 : Nat) : Int) := Int.natCast_nonneg _
  by_cases hd : 0 ≤ signedUnits (fsub target start)
  · have m := fmul_between (lo := zero) (hi := fsub target start) d1 e1 isFinite_zero d1
      (by rw [signedUnits_zero, zero_mul]; exact mul_nonneg hd e2) (mul_le_mul_of_nonneg_left e3 hd)
    rw [signedUnits_zero] at m
    exact fadd_level s1 m.1 (by linarith [m.2.1]) (by linarith [m.2.2])
  · have m := fmul_between (lo := fsub target start) (hi := zero) d1 e1 d1 isFinite_zero
      (mul_le_mul_of_nonpos_left e3 (by linarith))
      (by rw [signedUnits_zero, zero_mul]; exact mul_nonpos_of_nonpos_of_nonneg (by linarith) e2)
    rw [signedUnits_zero] at m
    exact fadd_level s1 m.1 (by linarith [m.2.1]) (by rw [Nat.cast_add]; linarith [m.2.2])

/-! ### The sample period -/

/-- The time of one sample at an accepted rate: above zero and at most 1.0 second. -/
theorem period_bounds {sr : F64} (h : validSr reference sr = true) :
    isFinite (fdiv one sr) = true ∧ 0 < signedUnits (fdiv one sr) ∧ signedUnits (fdiv one sr) ≤ oneUnits := by
  unfold validSr at h
  simp only [Bool.and_eq_true] at h
  obtain ⟨⟨s1, s2⟩, s3⟩ := h
  rw [show reference.srMin = one from rfl, fle_iff isFinite_one s1, signedUnits_one] at s2
  rw [fle_iff s1 (by decide)] at s3
  have hp : (0 : Int) < oneUnits := Int.ofNat_lt.2 oneUnits_pos
  have h0 : signedUnits 0x3E70000000000000#64 * signedUnits reference.srMax = signedUnits one * oneUnits := by
    decide +kernel
  have h1 : 0 < signedUnits 0x3E70000000000000#64 := by decide +kernel
  have := fdiv_between (lo := 0x3E70000000000000#64) (hi := one) isFinite_one s1 (by decide) isFinite_one (by linarith)
    (by rw [← h0]; exact mul_le_mul_of_nonneg_left s3 h1.le)
    (by rw [signedUnits_one]; exact mul_le_mul_of_nonneg_left s2 hp.le)
  rw [signedUnits_one] at this
  exact ⟨this.1, by linarith [this.2.1], this.2.2⟩

end Sys2Proof.Machine
end

