-- ==== Sys2Proof/Laws/State.lean ====
section
/-! SUPPORT. What each named update of the registers and of the state leaves in each field, one lemma per field, so
that no later proof unfolds a record update. -/

namespace Sys2Proof.Machine

/-! ### The state -/

@[simp] theorem State.takeError_regs (code : ErrorCode) (s : State) :
    (s.takeError code).regs = recordError code s.regs := rfl
@[simp] theorem State.takeError_pending (code : ErrorCode) (s : State) :
    (s.takeError code).pending = s.pending := rfl
@[simp] theorem State.takeError_responses (code : ErrorCode) (s : State) :
    (s.takeError code).responses = rejection code :: s.responses := rfl

@[simp] theorem State.answer_accept_regs (s : State) (r : Regs) (data : BitVec 64) :
    (s.answer (.accept r data)).regs = r := rfl
@[simp] theorem State.answer_accept_pending (s : State) (r : Regs) (data : BitVec 64) :
    (s.answer (.accept r data)).pending = s.pending := rfl
@[simp] theorem State.answer_accept_responses (s : State) (r : Regs) (data : BitVec 64) :
    (s.answer (.accept r data)).responses = acceptance data :: s.responses := rfl

@[simp] theorem State.answer_reject_regs (s : State) (code : ErrorCode) :
    (s.answer (.reject code)).regs = recordError code s.regs := rfl
@[simp] theorem State.answer_reject_pending (s : State) (code : ErrorCode) :
    (s.answer (.reject code)).pending = s.pending := rfl
@[simp] theorem State.answer_reject_responses (s : State) (code : ErrorCode) :
    (s.answer (.reject code)).responses = rejection code :: s.responses := rfl

@[simp] theorem State.accepted_regs (s : State) : s.accepted.regs = s.regs := rfl
@[simp] theorem State.accepted_pending (s : State) : s.accepted.pending = s.pending.tail := rfl
@[simp] theorem State.accepted_responses (s : State) : s.accepted.responses = s.responses := rfl

@[simp] theorem State.resetRegs_regs (s : State) : s.resetRegs.regs = Regs.reset := rfl
@[simp] theorem State.resetRegs_pending (s : State) : s.resetRegs.pending = s.pending := rfl
@[simp] theorem State.resetRegs_responses (s : State) : s.resetRegs.responses = s.responses := rfl

@[simp] theorem State.present_regs (w : Command) (s : State) : (s.present w).regs = s.regs := rfl
@[simp] theorem State.present_pending (w : Command) (s : State) :
    (s.present w).pending = .command w :: s.pending := rfl
@[simp] theorem State.present_responses (w : Command) (s : State) : (s.present w).responses = s.responses := rfl

@[simp] theorem rejection_code (code : ErrorCode) : (rejection code).code = errorCodeBits code := rfl
@[simp] theorem rejection_data (code : ErrorCode) : (rejection code).data = 0#64 := rfl
@[simp] theorem acceptance_code (data : BitVec 64) : (acceptance data).code = 0x00#8 := rfl
@[simp] theorem acceptance_data (data : BitVec 64) : (acceptance data).data = data := rfl

/-! ### The cleared error -/

@[simp] theorem clearError_live (r : Regs) : (clearError r).live = r.live := rfl
@[simp] theorem clearError_stage (r : Regs) : (clearError r).stage = r.stage := rfl
@[simp] theorem clearError_note (r : Regs) : (clearError r).note = r.note := rfl
@[simp] theorem clearError_err (r : Regs) : (clearError r).err = false := rfl
@[simp] theorem clearError_errCode (r : Regs) : (clearError r).errCode = 0x00#8 := rfl
@[simp] theorem clearError_cfgOscsel (r : Regs) : (clearError r).cfgOscsel = r.cfgOscsel := rfl
@[simp] theorem clearError_cfgAttack (r : Regs) : (clearError r).cfgAttack = r.cfgAttack := rfl
@[simp] theorem clearError_cfgDecay (r : Regs) : (clearError r).cfgDecay = r.cfgDecay := rfl
@[simp] theorem clearError_cfgSustain (r : Regs) : (clearError r).cfgSustain = r.cfgSustain := rfl
@[simp] theorem clearError_cfgRelease (r : Regs) : (clearError r).cfgRelease = r.cfgRelease := rfl
@[simp] theorem clearError_oscSel (r : Regs) : (clearError r).oscSel = r.oscSel := rfl
@[simp] theorem clearError_baseFreq (r : Regs) : (clearError r).baseFreq = r.baseFreq := rfl
@[simp] theorem clearError_rampFreq (r : Regs) : (clearError r).rampFreq = r.rampFreq := rfl
@[simp] theorem clearError_rampPhase (r : Regs) : (clearError r).rampPhase = r.rampPhase := rfl
@[simp] theorem clearError_lfoPhase (r : Regs) : (clearError r).lfoPhase = r.lfoPhase := rfl
@[simp] theorem clearError_envAttack (r : Regs) : (clearError r).envAttack = r.envAttack := rfl
@[simp] theorem clearError_envDecay (r : Regs) : (clearError r).envDecay = r.envDecay := rfl
@[simp] theorem clearError_envSustain (r : Regs) : (clearError r).envSustain = r.envSustain := rfl
@[simp] theorem clearError_envRelease (r : Regs) : (clearError r).envRelease = r.envRelease := rfl
@[simp] theorem clearError_envValue (r : Regs) : (clearError r).envValue = r.envValue := rfl
@[simp] theorem clearError_envTimeLeft (r : Regs) : (clearError r).envTimeLeft = r.envTimeLeft := rfl
@[simp] theorem clearError_envAtkStart (r : Regs) : (clearError r).envAtkStart = r.envAtkStart := rfl
@[simp] theorem clearError_envRelStart (r : Regs) : (clearError r).envRelStart = r.envRelStart := rfl

/-! ### The latched parameters -/

@[simp] theorem latchEnv_live (r : Regs) : (latchEnv r).live = r.live := rfl
@[simp] theorem latchEnv_stage (r : Regs) : (latchEnv r).stage = r.stage := rfl
@[simp] theorem latchEnv_note (r : Regs) : (latchEnv r).note = r.note := rfl
@[simp] theorem latchEnv_err (r : Regs) : (latchEnv r).err = r.err := rfl
@[simp] theorem latchEnv_errCode (r : Regs) : (latchEnv r).errCode = r.errCode := rfl
@[simp] theorem latchEnv_cfgOscsel (r : Regs) : (latchEnv r).cfgOscsel = r.cfgOscsel := rfl
@[simp] theorem latchEnv_cfgAttack (r : Regs) : (latchEnv r).cfgAttack = r.cfgAttack := rfl
@[simp] theorem latchEnv_cfgDecay (r : Regs) : (latchEnv r).cfgDecay = r.cfgDecay := rfl
@[simp] theorem latchEnv_cfgSustain (r : Regs) : (latchEnv r).cfgSustain = r.cfgSustain := rfl
@[simp] theorem latchEnv_cfgRelease (r : Regs) : (latchEnv r).cfgRelease = r.cfgRelease := rfl
@[simp] theorem latchEnv_oscSel (r : Regs) : (latchEnv r).oscSel = r.oscSel := rfl
@[simp] theorem latchEnv_baseFreq (r : Regs) : (latchEnv r).baseFreq = r.baseFreq := rfl
@[simp] theorem latchEnv_rampFreq (r : Regs) : (latchEnv r).rampFreq = r.rampFreq := rfl
@[simp] theorem latchEnv_rampPhase (r : Regs) : (latchEnv r).rampPhase = r.rampPhase := rfl
@[simp] theorem latchEnv_lfoPhase (r : Regs) : (latchEnv r).lfoPhase = r.lfoPhase := rfl
@[simp] theorem latchEnv_envAttack (r : Regs) : (latchEnv r).envAttack = r.cfgAttack := rfl
@[simp] theorem latchEnv_envDecay (r : Regs) : (latchEnv r).envDecay = r.cfgDecay := rfl
@[simp] theorem latchEnv_envSustain (r : Regs) : (latchEnv r).envSustain = r.cfgSustain := rfl
@[simp] theorem latchEnv_envRelease (r : Regs) : (latchEnv r).envRelease = r.cfgRelease := rfl
@[simp] theorem latchEnv_envValue (r : Regs) : (latchEnv r).envValue = r.envValue := rfl
@[simp] theorem latchEnv_envTimeLeft (r : Regs) : (latchEnv r).envTimeLeft = r.envTimeLeft := rfl
@[simp] theorem latchEnv_envAtkStart (r : Regs) : (latchEnv r).envAtkStart = r.envAtkStart := rfl
@[simp] theorem latchEnv_envRelStart (r : Regs) : (latchEnv r).envRelStart = r.envRelStart := rfl

/-! ### The constructed voice -/

@[simp] theorem construct_live (n : Note) (f : F64) (r : Regs) : (construct n f r).live = true := rfl
@[simp] theorem construct_stage (n : Note) (f : F64) (r : Regs) : (construct n f r).stage = r.stage := rfl
@[simp] theorem construct_note (n : Note) (f : F64) (r : Regs) : (construct n f r).note = n := rfl
@[simp] theorem construct_err (n : Note) (f : F64) (r : Regs) : (construct n f r).err = r.err := rfl
@[simp] theorem construct_errCode (n : Note) (f : F64) (r : Regs) : (construct n f r).errCode = r.errCode := rfl
@[simp] theorem construct_cfgOscsel (n : Note) (f : F64) (r : Regs) :
    (construct n f r).cfgOscsel = r.cfgOscsel := rfl
@[simp] theorem construct_cfgAttack (n : Note) (f : F64) (r : Regs) :
    (construct n f r).cfgAttack = r.cfgAttack := rfl
@[simp] theorem construct_cfgDecay (n : Note) (f : F64) (r : Regs) : (construct n f r).cfgDecay = r.cfgDecay := rfl
@[simp] theorem construct_cfgSustain (n : Note) (f : F64) (r : Regs) :
    (construct n f r).cfgSustain = r.cfgSustain := rfl
@[simp] theorem construct_cfgRelease (n : Note) (f : F64) (r : Regs) :
    (construct n f r).cfgRelease = r.cfgRelease := rfl
@[simp] theorem construct_oscSel (n : Note) (f : F64) (r : Regs) : (construct n f r).oscSel = r.cfgOscsel := rfl
@[simp] theorem construct_baseFreq (n : Note) (f : F64) (r : Regs) : (construct n f r).baseFreq = f := rfl
@[simp] theorem construct_rampFreq (n : Note) (f : F64) (r : Regs) : (construct n f r).rampFreq = f := rfl
@[simp] theorem construct_rampPhase (n : Note) (f : F64) (r : Regs) : (construct n f r).rampPhase = zero := rfl
@[simp] theorem construct_lfoPhase (n : Note) (f : F64) (r : Regs) : (construct n f r).lfoPhase = zero := rfl
@[simp] theorem construct_envAttack (n : Note) (f : F64) (r : Regs) :
    (construct n f r).envAttack = r.envAttack := rfl
@[simp] theorem construct_envDecay (n : Note) (f : F64) (r : Regs) : (construct n f r).envDecay = r.envDecay := rfl
@[simp] theorem construct_envSustain (n : Note) (f : F64) (r : Regs) :
    (construct n f r).envSustain = r.envSustain := rfl
@[simp] theorem construct_envRelease (n : Note) (f : F64) (r : Regs) :
    (construct n f r).envRelease = r.envRelease := rfl
@[simp] theorem construct_envValue (n : Note) (f : F64) (r : Regs) : (construct n f r).envValue = zero := rfl
@[simp] theorem construct_envTimeLeft (n : Note) (f : F64) (r : Regs) :
    (construct n f r).envTimeLeft = r.envTimeLeft := rfl
@[simp] theorem construct_envAtkStart (n : Note) (f : F64) (r : Regs) : (construct n f r).envAtkStart = zero := rfl
@[simp] theorem construct_envRelStart (n : Note) (f : F64) (r : Regs) : (construct n f r).envRelStart = zero := rfl

/-! ### The attack begun -/

@[simp] theorem beginAttack_live (r : Regs) : (beginAttack r).live = r.live := rfl
@[simp] theorem beginAttack_stage (r : Regs) : (beginAttack r).stage = .attack := rfl
@[simp] theorem beginAttack_note (r : Regs) : (beginAttack r).note = r.note := rfl
@[simp] theorem beginAttack_err (r : Regs) : (beginAttack r).err = r.err := rfl
@[simp] theorem beginAttack_errCode (r : Regs) : (beginAttack r).errCode = r.errCode := rfl
@[simp] theorem beginAttack_cfgOscsel (r : Regs) : (beginAttack r).cfgOscsel = r.cfgOscsel := rfl
@[simp] theorem beginAttack_cfgAttack (r : Regs) : (beginAttack r).cfgAttack = r.cfgAttack := rfl
@[simp] theorem beginAttack_cfgDecay (r : Regs) : (beginAttack r).cfgDecay = r.cfgDecay := rfl
@[simp] theorem beginAttack_cfgSustain (r : Regs) : (beginAttack r).cfgSustain = r.cfgSustain := rfl
@[simp] theorem beginAttack_cfgRelease (r : Regs) : (beginAttack r).cfgRelease = r.cfgRelease := rfl
@[simp] theorem beginAttack_oscSel (r : Regs) : (beginAttack r).oscSel = r.oscSel := rfl
@[simp] theorem beginAttack_baseFreq (r : Regs) : (beginAttack r).baseFreq = r.baseFreq := rfl
@[simp] theorem beginAttack_rampFreq (r : Regs) : (beginAttack r).rampFreq = r.rampFreq := rfl
@[simp] theorem beginAttack_rampPhase (r : Regs) : (beginAttack r).rampPhase = r.rampPhase := rfl
@[simp] theorem beginAttack_lfoPhase (r : Regs) : (beginAttack r).lfoPhase = r.lfoPhase := rfl
@[simp] theorem beginAttack_envAttack (r : Regs) : (beginAttack r).envAttack = r.envAttack := rfl
@[simp] theorem beginAttack_envDecay (r : Regs) : (beginAttack r).envDecay = r.envDecay := rfl
@[simp] theorem beginAttack_envSustain (r : Regs) : (beginAttack r).envSustain = r.envSustain := rfl
@[simp] theorem beginAttack_envRelease (r : Regs) : (beginAttack r).envRelease = r.envRelease := rfl
@[simp] theorem beginAttack_envValue (r : Regs) : (beginAttack r).envValue = r.envValue := rfl
@[simp] theorem beginAttack_envTimeLeft (r : Regs) : (beginAttack r).envTimeLeft = r.envAttack := rfl
@[simp] theorem beginAttack_envAtkStart (r : Regs) : (beginAttack r).envAtkStart = r.envAtkStart := rfl
@[simp] theorem beginAttack_envRelStart (r : Regs) : (beginAttack r).envRelStart = r.envRelStart := rfl

/-! ### The release begun -/

@[simp] theorem beginRelease_live (r : Regs) : (beginRelease r).live = r.live := rfl
@[simp] theorem beginRelease_stage (r : Regs) : (beginRelease r).stage = .release := rfl
@[simp] theorem beginRelease_note (r : Regs) : (beginRelease r).note = r.note := rfl
@[simp] theorem beginRelease_err (r : Regs) : (beginRelease r).err = r.err := rfl
@[simp] theorem beginRelease_errCode (r : Regs) : (beginRelease r).errCode = r.errCode := rfl
@[simp] theorem beginRelease_cfgOscsel (r : Regs) : (beginRelease r).cfgOscsel = r.cfgOscsel := rfl
@[simp] theorem beginRelease_cfgAttack (r : Regs) : (beginRelease r).cfgAttack = r.cfgAttack := rfl
@[simp] theorem beginRelease_cfgDecay (r : Regs) : (beginRelease r).cfgDecay = r.cfgDecay := rfl
@[simp] theorem beginRelease_cfgSustain (r : Regs) : (beginRelease r).cfgSustain = r.cfgSustain := rfl
@[simp] theorem beginRelease_cfgRelease (r : Regs) : (beginRelease r).cfgRelease = r.cfgRelease := rfl
@[simp] theorem beginRelease_oscSel (r : Regs) : (beginRelease r).oscSel = r.oscSel := rfl
@[simp] theorem beginRelease_baseFreq (r : Regs) : (beginRelease r).baseFreq = r.baseFreq := rfl
@[simp] theorem beginRelease_rampFreq (r : Regs) : (beginRelease r).rampFreq = r.rampFreq := rfl
@[simp] theorem beginRelease_rampPhase (r : Regs) : (beginRelease r).rampPhase = r.rampPhase := rfl
@[simp] theorem beginRelease_lfoPhase (r : Regs) : (beginRelease r).lfoPhase = r.lfoPhase := rfl
@[simp] theorem beginRelease_envAttack (r : Regs) : (beginRelease r).envAttack = r.envAttack := rfl
@[simp] theorem beginRelease_envDecay (r : Regs) : (beginRelease r).envDecay = r.envDecay := rfl
@[simp] theorem beginRelease_envSustain (r : Regs) : (beginRelease r).envSustain = r.envSustain := rfl
@[simp] theorem beginRelease_envRelease (r : Regs) : (beginRelease r).envRelease = r.envRelease := rfl
@[simp] theorem beginRelease_envValue (r : Regs) : (beginRelease r).envValue = r.envValue := rfl
@[simp] theorem beginRelease_envTimeLeft (r : Regs) : (beginRelease r).envTimeLeft = r.envRelease := rfl
@[simp] theorem beginRelease_envAtkStart (r : Regs) : (beginRelease r).envAtkStart = r.envAtkStart := rfl
@[simp] theorem beginRelease_envRelStart (r : Regs) : (beginRelease r).envRelStart = r.envValue := rfl

/-! ### The retargeted oscillator -/

@[simp] theorem retarget_live (f : F64) (r : Regs) :
    (retarget f r).live = r.live := by
  unfold retarget; cases r.oscSel.wave <;> rfl
@[simp] theorem retarget_stage (f : F64) (r : Regs) :
    (retarget f r).stage = r.stage := by
  unfold retarget; cases r.oscSel.wave <;> rfl
@[simp] theorem retarget_note (f : F64) (r : Regs) :
    (retarget f r).note = r.note := by
  unfold retarget; cases r.oscSel.wave <;> rfl
@[simp] theorem retarget_err (f : F64) (r : Regs) :
    (retarget f r).err = r.err := by
  unfold retarget; cases r.oscSel.wave <;> rfl
@[simp] theorem retarget_errCode (f : F64) (r : Regs) :
    (retarget f r).errCode = r.errCode := by
  unfold retarget; cases r.oscSel.wave <;> rfl
@[simp] theorem retarget_cfgOscsel (f : F64) (r : Regs) :
    (retarget f r).cfgOscsel = r.cfgOscsel := by
  unfold retarget; cases r.oscSel.wave <;> rfl
@[simp] theorem retarget_cfgAttack (f : F64) (r : Regs) :
    (retarget f r).cfgAttack = r.cfgAttack := by
  unfold retarget; cases r.oscSel.wave <;> rfl
@[simp] theorem retarget_cfgDecay (f : F64) (r : Regs) :
    (retarget f r).cfgDecay = r.cfgDecay := by
  unfold retarget; cases r.oscSel.wave <;> rfl
@[simp] theorem retarget_cfgSustain (f : F64) (r : Regs) :
    (retarget f r).cfgSustain = r.cfgSustain := by
  unfold retarget; cases r.oscSel.wave <;> rfl
@[simp] theorem retarget_cfgRelease (f : F64) (r : Regs) :
    (retarget f r).cfgRelease = r.cfgRelease := by
  unfold retarget; cases r.oscSel.wave <;> rfl
@[simp] theorem retarget_oscSel (f : F64) (r : Regs) :
    (retarget f r).oscSel = r.oscSel := by
  unfold retarget; cases r.oscSel.wave <;> rfl
@[simp] theorem retarget_baseFreq (f : F64) (r : Regs) :
    (retarget f r).baseFreq = f := by
  unfold retarget; cases r.oscSel.wave <;> rfl
@[simp] theorem retarget_rampPhase (f : F64) (r : Regs) :
    (retarget f r).rampPhase = r.rampPhase := by
  unfold retarget; cases r.oscSel.wave <;> rfl
@[simp] theorem retarget_lfoPhase (f : F64) (r : Regs) :
    (retarget f r).lfoPhase = r.lfoPhase := by
  unfold retarget; cases r.oscSel.wave <;> rfl
@[simp] theorem retarget_envAttack (f : F64) (r : Regs) :
    (retarget f r).envAttack = r.envAttack := by
  unfold retarget; cases r.oscSel.wave <;> rfl
@[simp] theorem retarget_envDecay (f : F64) (r : Regs) :
    (retarget f r).envDecay = r.envDecay := by
  unfold retarget; cases r.oscSel.wave <;> rfl
@[simp] theorem retarget_envSustain (f : F64) (r : Regs) :
    (retarget f r).envSustain = r.envSustain := by
  unfold retarget; cases r.oscSel.wave <;> rfl
@[simp] theorem retarget_envRelease (f : F64) (r : Regs) :
    (retarget f r).envRelease = r.envRelease := by
  unfold retarget; cases r.oscSel.wave <;> rfl
@[simp] theorem retarget_envValue (f : F64) (r : Regs) :
    (retarget f r).envValue = r.envValue := by
  unfold retarget; cases r.oscSel.wave <;> rfl
@[simp] theorem retarget_envTimeLeft (f : F64) (r : Regs) :
    (retarget f r).envTimeLeft = r.envTimeLeft := by
  unfold retarget; cases r.oscSel.wave <;> rfl
@[simp] theorem retarget_envAtkStart (f : F64) (r : Regs) :
    (retarget f r).envAtkStart = r.envAtkStart := by
  unfold retarget; cases r.oscSel.wave <;> rfl
@[simp] theorem retarget_envRelStart (f : F64) (r : Regs) :
    (retarget f r).envRelStart = r.envRelStart := by
  unfold retarget; cases r.oscSel.wave <;> rfl

/-! ### The retriggered voice -/

@[simp] theorem retrigger_live (f : F64) (r : Regs) : (retrigger f r).live = r.live := retarget_live f r
@[simp] theorem retrigger_stage (f : F64) (r : Regs) : (retrigger f r).stage = r.stage := retarget_stage f r
@[simp] theorem retrigger_note (f : F64) (r : Regs) : (retrigger f r).note = r.note := retarget_note f r
@[simp] theorem retrigger_err (f : F64) (r : Regs) : (retrigger f r).err = r.err := retarget_err f r
@[simp] theorem retrigger_errCode (f : F64) (r : Regs) : (retrigger f r).errCode = r.errCode := retarget_errCode f r
@[simp] theorem retrigger_cfgOscsel (f : F64) (r : Regs) :
    (retrigger f r).cfgOscsel = r.cfgOscsel := retarget_cfgOscsel f r
@[simp] theorem retrigger_cfgAttack (f : F64) (r : Regs) :
    (retrigger f r).cfgAttack = r.cfgAttack := retarget_cfgAttack f r
@[simp] theorem retrigger_cfgDecay (f : F64) (r : Regs) :
    (retrigger f r).cfgDecay = r.cfgDecay := retarget_cfgDecay f r
@[simp] theorem retrigger_cfgSustain (f : F64) (r : Regs) :
    (retrigger f r).cfgSustain = r.cfgSustain := retarget_cfgSustain f r
@[simp] theorem retrigger_cfgRelease (f : F64) (r : Regs) :
    (retrigger f r).cfgRelease = r.cfgRelease := retarget_cfgRelease f r
@[simp] theorem retrigger_oscSel (f : F64) (r : Regs) : (retrigger f r).oscSel = r.oscSel := retarget_oscSel f r
@[simp] theorem retrigger_baseFreq (f : F64) (r : Regs) : (retrigger f r).baseFreq = f := retarget_baseFreq f r
@[simp] theorem retrigger_rampFreq (f : F64) (r : Regs) : (retrigger f r).rampFreq = (retarget f r).rampFreq := rfl
@[simp] theorem retrigger_rampPhase (f : F64) (r : Regs) :
    (retrigger f r).rampPhase = r.rampPhase := retarget_rampPhase f r
@[simp] theorem retrigger_lfoPhase (f : F64) (r : Regs) :
    (retrigger f r).lfoPhase = r.lfoPhase := retarget_lfoPhase f r
@[simp] theorem retrigger_envAttack (f : F64) (r : Regs) :
    (retrigger f r).envAttack = r.envAttack := retarget_envAttack f r
@[simp] theorem retrigger_envDecay (f : F64) (r : Regs) :
    (retrigger f r).envDecay = r.envDecay := retarget_envDecay f r
@[simp] theorem retrigger_envSustain (f : F64) (r : Regs) :
    (retrigger f r).envSustain = r.envSustain := retarget_envSustain f r
@[simp] theorem retrigger_envRelease (f : F64) (r : Regs) :
    (retrigger f r).envRelease = r.envRelease := retarget_envRelease f r
@[simp] theorem retrigger_envValue (f : F64) (r : Regs) :
    (retrigger f r).envValue = r.envValue := retarget_envValue f r
@[simp] theorem retrigger_envTimeLeft (f : F64) (r : Regs) :
    (retrigger f r).envTimeLeft = r.envTimeLeft := retarget_envTimeLeft f r
@[simp] theorem retrigger_envAtkStart (f : F64) (r : Regs) : (retrigger f r).envAtkStart = r.envValue := rfl
@[simp] theorem retrigger_envRelStart (f : F64) (r : Regs) :
    (retrigger f r).envRelStart = r.envRelStart := retarget_envRelStart f r

/-! ### The recorded error -/

@[simp] theorem recordError_live (code : ErrorCode) (r : Regs) :
    (recordError code r).live = r.live := by
  unfold recordError; split <;> rfl
@[simp] theorem recordError_stage (code : ErrorCode) (r : Regs) :
    (recordError code r).stage = r.stage := by
  unfold recordError; split <;> rfl
@[simp] theorem recordError_note (code : ErrorCode) (r : Regs) :
    (recordError code r).note = r.note := by
  unfold recordError; split <;> rfl
@[simp] theorem recordError_err (code : ErrorCode) (r : Regs) :
    (recordError code r).err = true := by
  unfold recordError; split <;> simp_all
@[simp] theorem recordError_cfgOscsel (code : ErrorCode) (r : Regs) :
    (recordError code r).cfgOscsel = r.cfgOscsel := by
  unfold recordError; split <;> rfl
@[simp] theorem recordError_cfgAttack (code : ErrorCode) (r : Regs) :
    (recordError code r).cfgAttack = r.cfgAttack := by
  unfold recordError; split <;> rfl
@[simp] theorem recordError_cfgDecay (code : ErrorCode) (r : Regs) :
    (recordError code r).cfgDecay = r.cfgDecay := by
  unfold recordError; split <;> rfl
@[simp] theorem recordError_cfgSustain (code : ErrorCode) (r : Regs) :
    (recordError code r).cfgSustain = r.cfgSustain := by
  unfold recordError; split <;> rfl
@[simp] theorem recordError_cfgRelease (code : ErrorCode) (r : Regs) :
    (recordError code r).cfgRelease = r.cfgRelease := by
  unfold recordError; split <;> rfl
@[simp] theorem recordError_oscSel (code : ErrorCode) (r : Regs) :
    (recordError code r).oscSel = r.oscSel := by
  unfold recordError; split <;> rfl
@[simp] theorem recordError_baseFreq (code : ErrorCode) (r : Regs) :
    (recordError code r).baseFreq = r.baseFreq := by
  unfold recordError; split <;> rfl
@[simp] theorem recordError_rampFreq (code : ErrorCode) (r : Regs) :
    (recordError code r).rampFreq = r.rampFreq := by
  unfold recordError; split <;> rfl
@[simp] theorem recordError_rampPhase (code : ErrorCode) (r : Regs) :
    (recordError code r).rampPhase = r.rampPhase := by
  unfold recordError; split <;> rfl
@[simp] theorem recordError_lfoPhase (code : ErrorCode) (r : Regs) :
    (recordError code r).lfoPhase = r.lfoPhase := by
  unfold recordError; split <;> rfl
@[simp] theorem recordError_envAttack (code : ErrorCode) (r : Regs) :
    (recordError code r).envAttack = r.envAttack := by
  unfold recordError; split <;> rfl
@[simp] theorem recordError_envDecay (code : ErrorCode) (r : Regs) :
    (recordError code r).envDecay = r.envDecay := by
  unfold recordError; split <;> rfl
@[simp] theorem recordError_envSustain (code : ErrorCode) (r : Regs) :
    (recordError code r).envSustain = r.envSustain := by
  unfold recordError; split <;> rfl
@[simp] theorem recordError_envRelease (code : ErrorCode) (r : Regs) :
    (recordError code r).envRelease = r.envRelease := by
  unfold recordError; split <;> rfl
@[simp] theorem recordError_envValue (code : ErrorCode) (r : Regs) :
    (recordError code r).envValue = r.envValue := by
  unfold recordError; split <;> rfl
@[simp] theorem recordError_envTimeLeft (code : ErrorCode) (r : Regs) :
    (recordError code r).envTimeLeft = r.envTimeLeft := by
  unfold recordError; split <;> rfl
@[simp] theorem recordError_envAtkStart (code : ErrorCode) (r : Regs) :
    (recordError code r).envAtkStart = r.envAtkStart := by
  unfold recordError; split <;> rfl
@[simp] theorem recordError_envRelStart (code : ErrorCode) (r : Regs) :
    (recordError code r).envRelStart = r.envRelStart := by
  unfold recordError; split <;> rfl

/-! ### The stage left -/

@[simp] theorem leaveStage_live (r : Regs) :
    (leaveStage r).live = r.live := by
  unfold leaveStage; cases r.stage <;> rfl
@[simp] theorem leaveStage_note (r : Regs) :
    (leaveStage r).note = r.note := by
  unfold leaveStage; cases r.stage <;> rfl
@[simp] theorem leaveStage_err (r : Regs) :
    (leaveStage r).err = r.err := by
  unfold leaveStage; cases r.stage <;> rfl
@[simp] theorem leaveStage_errCode (r : Regs) :
    (leaveStage r).errCode = r.errCode := by
  unfold leaveStage; cases r.stage <;> rfl
@[simp] theorem leaveStage_cfgOscsel (r : Regs) :
    (leaveStage r).cfgOscsel = r.cfgOscsel := by
  unfold leaveStage; cases r.stage <;> rfl
@[simp] theorem leaveStage_cfgAttack (r : Regs) :
    (leaveStage r).cfgAttack = r.cfgAttack := by
  unfold leaveStage; cases r.stage <;> rfl
@[simp] theorem leaveStage_cfgDecay (r : Regs) :
    (leaveStage r).cfgDecay = r.cfgDecay := by
  unfold leaveStage; cases r.stage <;> rfl
@[simp] theorem leaveStage_cfgSustain (r : Regs) :
    (leaveStage r).cfgSustain = r.cfgSustain := by
  unfold leaveStage; cases r.stage <;> rfl
@[simp] theorem leaveStage_cfgRelease (r : Regs) :
    (leaveStage r).cfgRelease = r.cfgRelease := by
  unfold leaveStage; cases r.stage <;> rfl
@[simp] theorem leaveStage_oscSel (r : Regs) :
    (leaveStage r).oscSel = r.oscSel := by
  unfold leaveStage; cases r.stage <;> rfl
@[simp] theorem leaveStage_baseFreq (r : Regs) :
    (leaveStage r).baseFreq = r.baseFreq := by
  unfold leaveStage; cases r.stage <;> rfl
@[simp] theorem leaveStage_rampFreq (r : Regs) :
    (leaveStage r).rampFreq = r.rampFreq := by
  unfold leaveStage; cases r.stage <;> rfl
@[simp] theorem leaveStage_rampPhase (r : Regs) :
    (leaveStage r).rampPhase = r.rampPhase := by
  unfold leaveStage; cases r.stage <;> rfl
@[simp] theorem leaveStage_lfoPhase (r : Regs) :
    (leaveStage r).lfoPhase = r.lfoPhase := by
  unfold leaveStage; cases r.stage <;> rfl
@[simp] theorem leaveStage_envAttack (r : Regs) :
    (leaveStage r).envAttack = r.envAttack := by
  unfold leaveStage; cases r.stage <;> rfl
@[simp] theorem leaveStage_envDecay (r : Regs) :
    (leaveStage r).envDecay = r.envDecay := by
  unfold leaveStage; cases r.stage <;> rfl
@[simp] theorem leaveStage_envSustain (r : Regs) :
    (leaveStage r).envSustain = r.envSustain := by
  unfold leaveStage; cases r.stage <;> rfl
@[simp] theorem leaveStage_envRelease (r : Regs) :
    (leaveStage r).envRelease = r.envRelease := by
  unfold leaveStage; cases r.stage <;> rfl
@[simp] theorem leaveStage_envValue (r : Regs) :
    (leaveStage r).envValue = r.envValue := by
  unfold leaveStage; cases r.stage <;> rfl
@[simp] theorem leaveStage_envAtkStart (r : Regs) :
    (leaveStage r).envAtkStart = r.envAtkStart := by
  unfold leaveStage; cases r.stage <;> rfl
@[simp] theorem leaveStage_envRelStart (r : Regs) :
    (leaveStage r).envRelStart = r.envRelStart := by
  unfold leaveStage; cases r.stage <;> rfl

/-! ### The loop of stages -/

@[simp] theorem passStages_live (k : Nat) (r : Regs) :
    (passStages k r).live = r.live := by
  induction k generalizing r with
  | zero => rfl
  | succ k ih => unfold passStages; split <;> simp [ih]
@[simp] theorem passStages_note (k : Nat) (r : Regs) :
    (passStages k r).note = r.note := by
  induction k generalizing r with
  | zero => rfl
  | succ k ih => unfold passStages; split <;> simp [ih]
@[simp] theorem passStages_err (k : Nat) (r : Regs) :
    (passStages k r).err = r.err := by
  induction k generalizing r with
  | zero => rfl
  | succ k ih => unfold passStages; split <;> simp [ih]
@[simp] theorem passStages_errCode (k : Nat) (r : Regs) :
    (passStages k r).errCode = r.errCode := by
  induction k generalizing r with
  | zero => rfl
  | succ k ih => unfold passStages; split <;> simp [ih]
@[simp] theorem passStages_cfgOscsel (k : Nat) (r : Regs) :
    (passStages k r).cfgOscsel = r.cfgOscsel := by
  induction k generalizing r with
  | zero => rfl
  | succ k ih => unfold passStages; split <;> simp [ih]
@[simp] theorem passStages_cfgAttack (k : Nat) (r : Regs) :
    (passStages k r).cfgAttack = r.cfgAttack := by
  induction k generalizing r with
  | zero => rfl
  | succ k ih => unfold passStages; split <;> simp [ih]
@[simp] theorem passStages_cfgDecay (k : Nat) (r : Regs) :
    (passStages k r).cfgDecay = r.cfgDecay := by
  induction k generalizing r with
  | zero => rfl
  | succ k ih => unfold passStages; split <;> simp [ih]
@[simp] theorem passStages_cfgSustain (k : Nat) (r : Regs) :
    (passStages k r).cfgSustain = r.cfgSustain := by
  induction k generalizing r with
  | zero => rfl
  | succ k ih => unfold passStages; split <;> simp [ih]
@[simp] theorem passStages_cfgRelease (k : Nat) (r : Regs) :
    (passStages k r).cfgRelease = r.cfgRelease := by
  induction k generalizing r with
  | zero => rfl
  | succ k ih => unfold passStages; split <;> simp [ih]
@[simp] theorem passStages_oscSel (k : Nat) (r : Regs) :
    (passStages k r).oscSel = r.oscSel := by
  induction k generalizing r with
  | zero => rfl
  | succ k ih => unfold passStages; split <;> simp [ih]
@[simp] theorem passStages_baseFreq (k : Nat) (r : Regs) :
    (passStages k r).baseFreq = r.baseFreq := by
  induction k generalizing r with
  | zero => rfl
  | succ k ih => unfold passStages; split <;> simp [ih]
@[simp] theorem passStages_rampFreq (k : Nat) (r : Regs) :
    (passStages k r).rampFreq = r.rampFreq := by
  induction k generalizing r with
  | zero => rfl
  | succ k ih => unfold passStages; split <;> simp [ih]
@[simp] theorem passStages_rampPhase (k : Nat) (r : Regs) :
    (passStages k r).rampPhase = r.rampPhase := by
  induction k generalizing r with
  | zero => rfl
  | succ k ih => unfold passStages; split <;> simp [ih]
@[simp] theorem passStages_lfoPhase (k : Nat) (r : Regs) :
    (passStages k r).lfoPhase = r.lfoPhase := by
  induction k generalizing r with
  | zero => rfl
  | succ k ih => unfold passStages; split <;> simp [ih]
@[simp] theorem passStages_envAttack (k : Nat) (r : Regs) :
    (passStages k r).envAttack = r.envAttack := by
  induction k generalizing r with
  | zero => rfl
  | succ k ih => unfold passStages; split <;> simp [ih]
@[simp] theorem passStages_envDecay (k : Nat) (r : Regs) :
    (passStages k r).envDecay = r.envDecay := by
  induction k generalizing r with
  | zero => rfl
  | succ k ih => unfold passStages; split <;> simp [ih]
@[simp] theorem passStages_envSustain (k : Nat) (r : Regs) :
    (passStages k r).envSustain = r.envSustain := by
  induction k generalizing r with
  | zero => rfl
  | succ k ih => unfold passStages; split <;> simp [ih]
@[simp] theorem passStages_envRelease (k : Nat) (r : Regs) :
    (passStages k r).envRelease = r.envRelease := by
  induction k generalizing r with
  | zero => rfl
  | succ k ih => unfold passStages; split <;> simp [ih]
@[simp] theorem passStages_envValue (k : Nat) (r : Regs) :
    (passStages k r).envValue = r.envValue := by
  induction k generalizing r with
  | zero => rfl
  | succ k ih => unfold passStages; split <;> simp [ih]
@[simp] theorem passStages_envAtkStart (k : Nat) (r : Regs) :
    (passStages k r).envAtkStart = r.envAtkStart := by
  induction k generalizing r with
  | zero => rfl
  | succ k ih => unfold passStages; split <;> simp [ih]
@[simp] theorem passStages_envRelStart (k : Nat) (r : Regs) :
    (passStages k r).envRelStart = r.envRelStart := by
  induction k generalizing r with
  | zero => rfl
  | succ k ih => unfold passStages; split <;> simp [ih]

/-! ### The envelope advanced -/

@[simp] theorem envAdvance_live (sr : F64) (r : Regs) :
    (envAdvance sr r).live = r.live := by
  unfold envAdvance; split <;> simp
@[simp] theorem envAdvance_note (sr : F64) (r : Regs) :
    (envAdvance sr r).note = r.note := by
  unfold envAdvance; split <;> simp
@[simp] theorem envAdvance_err (sr : F64) (r : Regs) :
    (envAdvance sr r).err = r.err := by
  unfold envAdvance; split <;> simp
@[simp] theorem envAdvance_errCode (sr : F64) (r : Regs) :
    (envAdvance sr r).errCode = r.errCode := by
  unfold envAdvance; split <;> simp
@[simp] theorem envAdvance_cfgOscsel (sr : F64) (r : Regs) :
    (envAdvance sr r).cfgOscsel = r.cfgOscsel := by
  unfold envAdvance; split <;> simp
@[simp] theorem envAdvance_cfgAttack (sr : F64) (r : Regs) :
    (envAdvance sr r).cfgAttack = r.cfgAttack := by
  unfold envAdvance; split <;> simp
@[simp] theorem envAdvance_cfgDecay (sr : F64) (r : Regs) :
    (envAdvance sr r).cfgDecay = r.cfgDecay := by
  unfold envAdvance; split <;> simp
@[simp] theorem envAdvance_cfgSustain (sr : F64) (r : Regs) :
    (envAdvance sr r).cfgSustain = r.cfgSustain := by
  unfold envAdvance; split <;> simp
@[simp] theorem envAdvance_cfgRelease (sr : F64) (r : Regs) :
    (envAdvance sr r).cfgRelease = r.cfgRelease := by
  unfold envAdvance; split <;> simp
@[simp] theorem envAdvance_oscSel (sr : F64) (r : Regs) :
    (envAdvance sr r).oscSel = r.oscSel := by
  unfold envAdvance; split <;> simp
@[simp] theorem envAdvance_baseFreq (sr : F64) (r : Regs) :
    (envAdvance sr r).baseFreq = r.baseFreq := by
  unfold envAdvance; split <;> simp
@[simp] theorem envAdvance_rampFreq (sr : F64) (r : Regs) :
    (envAdvance sr r).rampFreq = r.rampFreq := by
  unfold envAdvance; split <;> simp
@[simp] theorem envAdvance_rampPhase (sr : F64) (r : Regs) :
    (envAdvance sr r).rampPhase = r.rampPhase := by
  unfold envAdvance; split <;> simp
@[simp] theorem envAdvance_lfoPhase (sr : F64) (r : Regs) :
    (envAdvance sr r).lfoPhase = r.lfoPhase := by
  unfold envAdvance; split <;> simp
@[simp] theorem envAdvance_envAttack (sr : F64) (r : Regs) :
    (envAdvance sr r).envAttack = r.envAttack := by
  unfold envAdvance; split <;> simp
@[simp] theorem envAdvance_envDecay (sr : F64) (r : Regs) :
    (envAdvance sr r).envDecay = r.envDecay := by
  unfold envAdvance; split <;> simp
@[simp] theorem envAdvance_envSustain (sr : F64) (r : Regs) :
    (envAdvance sr r).envSustain = r.envSustain := by
  unfold envAdvance; split <;> simp
@[simp] theorem envAdvance_envRelease (sr : F64) (r : Regs) :
    (envAdvance sr r).envRelease = r.envRelease := by
  unfold envAdvance; split <;> simp
@[simp] theorem envAdvance_envValue (sr : F64) (r : Regs) :
    (envAdvance sr r).envValue = r.envValue := by
  unfold envAdvance; split <;> simp
@[simp] theorem envAdvance_envAtkStart (sr : F64) (r : Regs) :
    (envAdvance sr r).envAtkStart = r.envAtkStart := by
  unfold envAdvance; split <;> simp
@[simp] theorem envAdvance_envRelStart (sr : F64) (r : Regs) :
    (envAdvance sr r).envRelStart = r.envRelStart := by
  unfold envAdvance; split <;> simp

/-! ### The released voice -/

@[simp] theorem releaseVoice_live (r : Regs) :
    (releaseVoice r).live = r.live := by
  unfold releaseVoice; cases r.stage <;> rfl
@[simp] theorem releaseVoice_note (r : Regs) :
    (releaseVoice r).note = r.note := by
  unfold releaseVoice; cases r.stage <;> rfl
@[simp] theorem releaseVoice_err (r : Regs) :
    (releaseVoice r).err = r.err := by
  unfold releaseVoice; cases r.stage <;> rfl
@[simp] theorem releaseVoice_errCode (r : Regs) :
    (releaseVoice r).errCode = r.errCode := by
  unfold releaseVoice; cases r.stage <;> rfl
@[simp] theorem releaseVoice_cfgOscsel (r : Regs) :
    (releaseVoice r).cfgOscsel = r.cfgOscsel := by
  unfold releaseVoice; cases r.stage <;> rfl
@[simp] theorem releaseVoice_cfgAttack (r : Regs) :
    (releaseVoice r).cfgAttack = r.cfgAttack := by
  unfold releaseVoice; cases r.stage <;> rfl
@[simp] theorem releaseVoice_cfgDecay (r : Regs) :
    (releaseVoice r).cfgDecay = r.cfgDecay := by
  unfold releaseVoice; cases r.stage <;> rfl
@[simp] theorem releaseVoice_cfgSustain (r : Regs) :
    (releaseVoice r).cfgSustain = r.cfgSustain := by
  unfold releaseVoice; cases r.stage <;> rfl
@[simp] theorem releaseVoice_cfgRelease (r : Regs) :
    (releaseVoice r).cfgRelease = r.cfgRelease := by
  unfold releaseVoice; cases r.stage <;> rfl
@[simp] theorem releaseVoice_oscSel (r : Regs) :
    (releaseVoice r).oscSel = r.oscSel := by
  unfold releaseVoice; cases r.stage <;> rfl
@[simp] theorem releaseVoice_baseFreq (r : Regs) :
    (releaseVoice r).baseFreq = r.baseFreq := by
  unfold releaseVoice; cases r.stage <;> rfl
@[simp] theorem releaseVoice_rampFreq (r : Regs) :
    (releaseVoice r).rampFreq = r.rampFreq := by
  unfold releaseVoice; cases r.stage <;> rfl
@[simp] theorem releaseVoice_rampPhase (r : Regs) :
    (releaseVoice r).rampPhase = r.rampPhase := by
  unfold releaseVoice; cases r.stage <;> rfl
@[simp] theorem releaseVoice_lfoPhase (r : Regs) :
    (releaseVoice r).lfoPhase = r.lfoPhase := by
  unfold releaseVoice; cases r.stage <;> rfl
@[simp] theorem releaseVoice_envAttack (r : Regs) :
    (releaseVoice r).envAttack = r.envAttack := by
  unfold releaseVoice; cases r.stage <;> rfl
@[simp] theorem releaseVoice_envDecay (r : Regs) :
    (releaseVoice r).envDecay = r.envDecay := by
  unfold releaseVoice; cases r.stage <;> rfl
@[simp] theorem releaseVoice_envSustain (r : Regs) :
    (releaseVoice r).envSustain = r.envSustain := by
  unfold releaseVoice; cases r.stage <;> rfl
@[simp] theorem releaseVoice_envRelease (r : Regs) :
    (releaseVoice r).envRelease = r.envRelease := by
  unfold releaseVoice; cases r.stage <;> rfl
@[simp] theorem releaseVoice_envValue (r : Regs) :
    (releaseVoice r).envValue = r.envValue := by
  unfold releaseVoice; cases r.stage <;> rfl
@[simp] theorem releaseVoice_envAtkStart (r : Regs) :
    (releaseVoice r).envAtkStart = r.envAtkStart := by
  unfold releaseVoice; cases r.stage <;> rfl

/-! ### The oscillator step -/

@[simp] theorem oscNext_live (c : Config) (sr : F64) (r : Regs) :
    (oscNext c sr r).1.live = r.live := by
  unfold oscNext; cases r.oscSel.wave <;> rfl
@[simp] theorem oscNext_stage (c : Config) (sr : F64) (r : Regs) :
    (oscNext c sr r).1.stage = r.stage := by
  unfold oscNext; cases r.oscSel.wave <;> rfl
@[simp] theorem oscNext_note (c : Config) (sr : F64) (r : Regs) :
    (oscNext c sr r).1.note = r.note := by
  unfold oscNext; cases r.oscSel.wave <;> rfl
@[simp] theorem oscNext_err (c : Config) (sr : F64) (r : Regs) :
    (oscNext c sr r).1.err = r.err := by
  unfold oscNext; cases r.oscSel.wave <;> rfl
@[simp] theorem oscNext_errCode (c : Config) (sr : F64) (r : Regs) :
    (oscNext c sr r).1.errCode = r.errCode := by
  unfold oscNext; cases r.oscSel.wave <;> rfl
@[simp] theorem oscNext_cfgOscsel (c : Config) (sr : F64) (r : Regs) :
    (oscNext c sr r).1.cfgOscsel = r.cfgOscsel := by
  unfold oscNext; cases r.oscSel.wave <;> rfl
@[simp] theorem oscNext_cfgAttack (c : Config) (sr : F64) (r : Regs) :
    (oscNext c sr r).1.cfgAttack = r.cfgAttack := by
  unfold oscNext; cases r.oscSel.wave <;> rfl
@[simp] theorem oscNext_cfgDecay (c : Config) (sr : F64) (r : Regs) :
    (oscNext c sr r).1.cfgDecay = r.cfgDecay := by
  unfold oscNext; cases r.oscSel.wave <;> rfl
@[simp] theorem oscNext_cfgSustain (c : Config) (sr : F64) (r : Regs) :
    (oscNext c sr r).1.cfgSustain = r.cfgSustain := by
  unfold oscNext; cases r.oscSel.wave <;> rfl
@[simp] theorem oscNext_cfgRelease (c : Config) (sr : F64) (r : Regs) :
    (oscNext c sr r).1.cfgRelease = r.cfgRelease := by
  unfold oscNext; cases r.oscSel.wave <;> rfl
@[simp] theorem oscNext_oscSel (c : Config) (sr : F64) (r : Regs) :
    (oscNext c sr r).1.oscSel = r.oscSel := by
  unfold oscNext; cases r.oscSel.wave <;> rfl
@[simp] theorem oscNext_baseFreq (c : Config) (sr : F64) (r : Regs) :
    (oscNext c sr r).1.baseFreq = r.baseFreq := by
  unfold oscNext; cases r.oscSel.wave <;> rfl
@[simp] theorem oscNext_envAttack (c : Config) (sr : F64) (r : Regs) :
    (oscNext c sr r).1.envAttack = r.envAttack := by
  unfold oscNext; cases r.oscSel.wave <;> rfl
@[simp] theorem oscNext_envDecay (c : Config) (sr : F64) (r : Regs) :
    (oscNext c sr r).1.envDecay = r.envDecay := by
  unfold oscNext; cases r.oscSel.wave <;> rfl
@[simp] theorem oscNext_envSustain (c : Config) (sr : F64) (r : Regs) :
    (oscNext c sr r).1.envSustain = r.envSustain := by
  unfold oscNext; cases r.oscSel.wave <;> rfl
@[simp] theorem oscNext_envRelease (c : Config) (sr : F64) (r : Regs) :
    (oscNext c sr r).1.envRelease = r.envRelease := by
  unfold oscNext; cases r.oscSel.wave <;> rfl
@[simp] theorem oscNext_envValue (c : Config) (sr : F64) (r : Regs) :
    (oscNext c sr r).1.envValue = r.envValue := by
  unfold oscNext; cases r.oscSel.wave <;> rfl
@[simp] theorem oscNext_envTimeLeft (c : Config) (sr : F64) (r : Regs) :
    (oscNext c sr r).1.envTimeLeft = r.envTimeLeft := by
  unfold oscNext; cases r.oscSel.wave <;> rfl
@[simp] theorem oscNext_envAtkStart (c : Config) (sr : F64) (r : Regs) :
    (oscNext c sr r).1.envAtkStart = r.envAtkStart := by
  unfold oscNext; cases r.oscSel.wave <;> rfl
@[simp] theorem oscNext_envRelStart (c : Config) (sr : F64) (r : Regs) :
    (oscNext c sr r).1.envRelStart = r.envRelStart := by
  unfold oscNext; cases r.oscSel.wave <;> rfl

/-! ### The envelope step -/

@[simp] theorem envNext_live (sr : F64) (r : Regs) : (envNext sr r).1.live = r.live := by simp [envNext]
@[simp] theorem envNext_stage (sr : F64) (r : Regs) : (envNext sr r).1.stage = (envAdvance sr r).stage := rfl
@[simp] theorem envNext_note (sr : F64) (r : Regs) : (envNext sr r).1.note = r.note := by simp [envNext]
@[simp] theorem envNext_err (sr : F64) (r : Regs) : (envNext sr r).1.err = r.err := by simp [envNext]
@[simp] theorem envNext_errCode (sr : F64) (r : Regs) : (envNext sr r).1.errCode = r.errCode := by simp [envNext]
@[simp] theorem envNext_cfgOscsel (sr : F64) (r : Regs) :
    (envNext sr r).1.cfgOscsel = r.cfgOscsel := by simp [envNext]
@[simp] theorem envNext_cfgAttack (sr : F64) (r : Regs) :
    (envNext sr r).1.cfgAttack = r.cfgAttack := by simp [envNext]
@[simp] theorem envNext_cfgDecay (sr : F64) (r : Regs) : (envNext sr r).1.cfgDecay = r.cfgDecay := by simp [envNext]
@[simp] theorem envNext_cfgSustain (sr : F64) (r : Regs) :
    (envNext sr r).1.cfgSustain = r.cfgSustain := by simp [envNext]
@[simp] theorem envNext_cfgRelease (sr : F64) (r : Regs) :
    (envNext sr r).1.cfgRelease = r.cfgRelease := by simp [envNext]
@[simp] theorem envNext_oscSel (sr : F64) (r : Regs) : (envNext sr r).1.oscSel = r.oscSel := by simp [envNext]
@[simp] theorem envNext_baseFreq (sr : F64) (r : Regs) : (envNext sr r).1.baseFreq = r.baseFreq := by simp [envNext]
@[simp] theorem envNext_rampFreq (sr : F64) (r : Regs) : (envNext sr r).1.rampFreq = r.rampFreq := by simp [envNext]
@[simp] theorem envNext_rampPhase (sr : F64) (r : Regs) :
    (envNext sr r).1.rampPhase = r.rampPhase := by simp [envNext]
@[simp] theorem envNext_lfoPhase (sr : F64) (r : Regs) : (envNext sr r).1.lfoPhase = r.lfoPhase := by simp [envNext]
@[simp] theorem envNext_envAttack (sr : F64) (r : Regs) :
    (envNext sr r).1.envAttack = r.envAttack := by simp [envNext]
@[simp] theorem envNext_envDecay (sr : F64) (r : Regs) : (envNext sr r).1.envDecay = r.envDecay := by simp [envNext]
@[simp] theorem envNext_envSustain (sr : F64) (r : Regs) :
    (envNext sr r).1.envSustain = r.envSustain := by simp [envNext]
@[simp] theorem envNext_envRelease (sr : F64) (r : Regs) :
    (envNext sr r).1.envRelease = r.envRelease := by simp [envNext]
@[simp] theorem envNext_envValue (sr : F64) (r : Regs) :
    (envNext sr r).1.envValue = stageValue (envAdvance sr r) := rfl
@[simp] theorem envNext_envTimeLeft (sr : F64) (r : Regs) :
    (envNext sr r).1.envTimeLeft = (envAdvance sr r).envTimeLeft := rfl
@[simp] theorem envNext_envAtkStart (sr : F64) (r : Regs) :
    (envNext sr r).1.envAtkStart = r.envAtkStart := by simp [envNext]
@[simp] theorem envNext_envRelStart (sr : F64) (r : Regs) :
    (envNext sr r).1.envRelStart = r.envRelStart := by simp [envNext]

/-! ### One frame -/

@[simp] theorem voiceNext_live (c : Config) (sr : F64) (r : Regs) :
    (voiceNext c sr r).1.live = r.live := by
  simp [voiceNext]
@[simp] theorem voiceNext_note (c : Config) (sr : F64) (r : Regs) :
    (voiceNext c sr r).1.note = r.note := by
  simp [voiceNext]
@[simp] theorem voiceNext_err (c : Config) (sr : F64) (r : Regs) :
    (voiceNext c sr r).1.err = r.err := by
  simp [voiceNext]
@[simp] theorem voiceNext_errCode (c : Config) (sr : F64) (r : Regs) :
    (voiceNext c sr r).1.errCode = r.errCode := by
  simp [voiceNext]
@[simp] theorem voiceNext_cfgOscsel (c : Config) (sr : F64) (r : Regs) :
    (voiceNext c sr r).1.cfgOscsel = r.cfgOscsel := by
  simp [voiceNext]
@[simp] theorem voiceNext_cfgAttack (c : Config) (sr : F64) (r : Regs) :
    (voiceNext c sr r).1.cfgAttack = r.cfgAttack := by
  simp [voiceNext]
@[simp] theorem voiceNext_cfgDecay (c : Config) (sr : F64) (r : Regs) :
    (voiceNext c sr r).1.cfgDecay = r.cfgDecay := by
  simp [voiceNext]
@[simp] theorem voiceNext_cfgSustain (c : Config) (sr : F64) (r : Regs) :
    (voiceNext c sr r).1.cfgSustain = r.cfgSustain := by
  simp [voiceNext]
@[simp] theorem voiceNext_cfgRelease (c : Config) (sr : F64) (r : Regs) :
    (voiceNext c sr r).1.cfgRelease = r.cfgRelease := by
  simp [voiceNext]
@[simp] theorem voiceNext_oscSel (c : Config) (sr : F64) (r : Regs) :
    (voiceNext c sr r).1.oscSel = r.oscSel := by
  simp [voiceNext]
@[simp] theorem voiceNext_baseFreq (c : Config) (sr : F64) (r : Regs) :
    (voiceNext c sr r).1.baseFreq = r.baseFreq := by
  simp [voiceNext]
@[simp] theorem voiceNext_rampFreq (c : Config) (sr : F64) (r : Regs) :
    (voiceNext c sr r).1.rampFreq = (oscNext c sr r).1.rampFreq := by
  simp [voiceNext]
@[simp] theorem voiceNext_rampPhase (c : Config) (sr : F64) (r : Regs) :
    (voiceNext c sr r).1.rampPhase = (oscNext c sr r).1.rampPhase := by
  simp [voiceNext]
@[simp] theorem voiceNext_lfoPhase (c : Config) (sr : F64) (r : Regs) :
    (voiceNext c sr r).1.lfoPhase = (oscNext c sr r).1.lfoPhase := by
  simp [voiceNext]
@[simp] theorem voiceNext_envAttack (c : Config) (sr : F64) (r : Regs) :
    (voiceNext c sr r).1.envAttack = r.envAttack := by
  simp [voiceNext]
@[simp] theorem voiceNext_envDecay (c : Config) (sr : F64) (r : Regs) :
    (voiceNext c sr r).1.envDecay = r.envDecay := by
  simp [voiceNext]
@[simp] theorem voiceNext_envSustain (c : Config) (sr : F64) (r : Regs) :
    (voiceNext c sr r).1.envSustain = r.envSustain := by
  simp [voiceNext]
@[simp] theorem voiceNext_envRelease (c : Config) (sr : F64) (r : Regs) :
    (voiceNext c sr r).1.envRelease = r.envRelease := by
  simp [voiceNext]
@[simp] theorem voiceNext_envAtkStart (c : Config) (sr : F64) (r : Regs) :
    (voiceNext c sr r).1.envAtkStart = r.envAtkStart := by
  simp [voiceNext]
@[simp] theorem voiceNext_envRelStart (c : Config) (sr : F64) (r : Regs) :
    (voiceNext c sr r).1.envRelStart = r.envRelStart := by
  simp [voiceNext]

theorem retarget_rampFreq (f : F64) (r : Regs) :
    (retarget f r).rampFreq = if r.oscSel.wave = .vibrato then r.rampFreq else f := by
  unfold retarget; cases r.oscSel.wave <;> simp

theorem recordError_errCode (code : ErrorCode) (r : Regs) :
    (recordError code r).errCode = if r.err then r.errCode else errorCodeBits code := by
  unfold recordError; split <;> rfl

end Sys2Proof.Machine
end

