-- ==== Sys2Proof/Laws/Ops.lean ====
section
/-! SUPPORT. What the shared operations and a step can do, said once: every command answers a next state, which is
the answer of its effect; and a step is one of four cases. -/

namespace Sys2Proof.Machine

@[simp] theorem perform_eq (e : Regs → Effect) (s : State) : perform e s = .next (s.answer (e s.regs)) := rfl

/-- Every meaning is the answer of its command's effect. -/
theorem exec_eq (i : Instr) (s : State) : exec i s = .next (s.answer (commandEffect reference i s.regs)) := by
  cases i <;> rfl

/-- An answer is one more response, nothing taken from the port, and either the accepted registers or the
recorded error. -/
theorem answer_cases (s : State) (e : Effect) :
    (∃ r data, e = .accept r data ∧
      s.answer e = { regs := r, pending := s.pending, responses := acceptance data :: s.responses }) ∨
    (∃ code, e = .reject code ∧
      s.answer e =
        { regs := recordError code s.regs, pending := s.pending, responses := rejection code :: s.responses }) := by
  cases e with
  | accept r data => exact .inl ⟨r, data, rfl, rfl⟩
  | reject code => exact .inr ⟨code, rfl, rfl⟩

theorem step_idle {s : State} (h : s.pending = []) : step s = .next s := by
  unfold step; rw [h]

theorem step_reset {s : State} {rest : List PortInput} (h : s.pending = .reset :: rest) :
    step s = .next s.accepted.resetRegs := by
  unfold step; rw [h]

theorem step_command {s : State} {w : Command} {rest : List PortInput} {i : Instr}
    (h : s.pending = .command w :: rest) (hd : decode w = .command i) : step s = exec i s.accepted := by
  unfold step; rw [h]; simp only [hd]

theorem step_rejected {s : State} {w : Command} {rest : List PortInput} {code : ErrorCode}
    (h : s.pending = .command w :: rest) (hd : decode w = .rejected code) :
    step s = .next (s.accepted.takeError code) := by
  unfold step; rw [h]; simp only [hd]

/-- Everything a step can do. -/
theorem step_cases {s t : State} (h : step s = .next t) :
    (s.pending = [] ∧ t = s) ∨
    (∃ rest, s.pending = .reset :: rest ∧ t = s.accepted.resetRegs) ∨
    (∃ w rest i, s.pending = .command w :: rest ∧ decode w = .command i ∧
      t = s.accepted.answer (commandEffect reference i s.regs)) ∨
    (∃ w rest code, s.pending = .command w :: rest ∧ decode w = .rejected code ∧
      t = s.accepted.takeError code) := by
  rcases hp : s.pending with _ | ⟨_ | _, rest⟩
  · rw [step_idle hp] at h; cases h; exact .inl ⟨rfl, rfl⟩
  · rename_i w
    rcases hd : decode w with i | code
    · rw [step_command hp hd, exec_eq] at h
      cases h
      exact .inr (.inr (.inl ⟨w, rest, i, rfl, hd, rfl⟩))
    · rw [step_rejected hp hd] at h
      cases h
      exact .inr (.inr (.inr ⟨w, rest, code, rfl, hd, rfl⟩))
  · rw [step_reset hp] at h; cases h; exact .inr (.inl ⟨rest, rfl, rfl⟩)

/-- A step does to the registers what the input at the front of the port does. -/
theorem step_regs {s t : State} {p : PortInput} {rest : List PortInput} (hp : s.pending = p :: rest)
    (h : step s = .next t) : t.regs = inputEffect reference p s.regs := by
  rcases step_cases h with ⟨h0, -⟩ | ⟨_, h0, rfl⟩ | ⟨w, _, i, h0, hd, rfl⟩ | ⟨w, _, code, h0, hd, rfl⟩ <;>
    rw [hp] at h0 <;> cases h0
  · rfl
  · unfold inputEffect
    simp only [hd]
    cases commandEffect reference i s.regs <;> rfl
  · unfold inputEffect
    simp only [hd]
    rfl

/-- The loop of 41_envelope.md R133 ends within two passes: afterwards no timed stage is overdue. -/
theorem passStages_two_not_overdue (r : Regs) : overdue (passStages 2 r) = false := by
  simp only [passStages]
  cases h0 : overdue r
  · simpa using h0
  cases hs : r.stage
  all_goals first
    | (simp [overdue, Stage.timed, hs] at h0; done)
    | skip
  · cases h1 : overdue (leaveStage r)
    · simpa [h0] using h1
    · simp [leaveStage, hs, overdue, Stage.timed]
  · have h1 : overdue (leaveStage r) = false := by simp [leaveStage, hs, overdue, Stage.timed]
    simp [h1]
  · have h1 : overdue (leaveStage r) = false := by simp [leaveStage, hs, overdue, Stage.timed]
    simp [h1]

end Sys2Proof.Machine
end

