-- ==== Sys2Proof/Laws/Series.lean ====
section
/-! SUPPORT. The reference sine's series (log entry 4): its exact sum is the Taylor polynomial of the sine up to the
power 121, and below 8.0 it is within 2^-304 of its argument of the real sine. -/

namespace Sys2Proof.Machine

/-- The square of a number of units, as a real. -/
theorem unit_square (x : Nat) : ((x : ℝ) / oneUnits) ^ 2 = (x : ℝ) ^ 2 / (2 ^ 2148 : Nat) := by
  rw [div_pow]
  congr 1
  have h : 2 ^ 2148 = oneUnits ^ 2 := by unfold oneUnits; rw [← pow_mul]
  rw [h, Nat.cast_pow]

theorem sineTail_pos (x : Nat) : ∀ t k, 0 < k → 0 < (sineTail x t k).2
  | 0, _, _ => by simp [sineTail]
  | t + 1, k, hk => by
    unfold sineTail
    have := sineTail_pos x t (k + 1) (by omega)
    simp only
    positivity

/-- One factor of the series. -/
theorem sineTail_value (x t k : Nat) (hk : 0 < k) :
    ((sineTail x (t + 1) k).1 : ℝ) / (sineTail x (t + 1) k).2 =
      1 - ((x : ℝ) / oneUnits) ^ 2 / (2 * k * (2 * k + 1)) *
        (((sineTail x t (k + 1)).1 : ℝ) / (sineTail x t (k + 1)).2) := by
  have hq : (0 : ℝ) < (sineTail x t (k + 1)).2 := by exact_mod_cast sineTail_pos x t (k + 1) (by omega)
  have hk' : (0 : ℝ) < k := by exact_mod_cast hk
  rw [unit_square]
  have e : sineTail x (t + 1) k =
      (((2 ^ 2148 * (2 * k * (2 * k + 1)) * (sineTail x t (k + 1)).2 : Nat) : Int) -
        ((x * x : Nat) : Int) * (sineTail x t (k + 1)).1,
       2 ^ 2148 * (2 * k * (2 * k + 1)) * (sineTail x t (k + 1)).2) := rfl
  rw [e]
  generalize (sineTail x t (k + 1)).1 = p
  generalize (sineTail x t (k + 1)).2 = q at *
  have hP : 0 < 2 ^ 2148 := by positivity
  generalize 2 ^ 2148 = P at *
  have hP' : (0 : ℝ) < P := by exact_mod_cast hP
  clear e
  push_cast
  field_simp

/-- The series from its `k`-th factor on is a sum of Taylor terms. -/
theorem sineTail_sum (x : Nat) : ∀ t k, 0 < k →
    ((x : ℝ) / oneUnits) ^ (2 * k - 1) / (2 * k - 1).factorial *
        (((sineTail x t k).1 : ℝ) / (sineTail x t k).2) =
      ∑ j ∈ Finset.range (t + 1),
        (-1) ^ j * ((x : ℝ) / oneUnits) ^ (2 * (k + j) - 1) / (2 * (k + j) - 1).factorial
  | 0, k, _ => by
    rw [Finset.sum_range_one]
    simp only [sineTail, Int.cast_one, Nat.cast_one, div_one, mul_one, pow_zero, one_mul, add_zero]
  | t + 1, k, hk => by
    rw [sineTail_value x t k hk, Finset.sum_range_succ', mul_sub, mul_one]
    have ih := sineTail_sum x t (k + 1) (by omega)
    have e : ((x : ℝ) / oneUnits) ^ (2 * k - 1) / (2 * k - 1).factorial *
        (((x : ℝ) / oneUnits) ^ 2 / (2 * k * (2 * k + 1)) *
          (((sineTail x t (k + 1)).1 : ℝ) / (sineTail x t (k + 1)).2)) =
        ((x : ℝ) / oneUnits) ^ (2 * (k + 1) - 1) / (2 * (k + 1) - 1).factorial *
          (((sineTail x t (k + 1)).1 : ℝ) / (sineTail x t (k + 1)).2) := by
      obtain ⟨m, rfl⟩ : ∃ m, k = m + 1 := ⟨k - 1, by omega⟩
      rw [show 2 * (m + 1) - 1 = 2 * m + 1 by omega, show 2 * (m + 1 + 1) - 1 = 2 * m + 1 + 1 + 1 by omega,
        Nat.factorial_succ (2 * m + 1 + 1), Nat.factorial_succ (2 * m + 1)]
      have hf : ((2 * m + 1).factorial : ℝ) ≠ 0 := by exact_mod_cast Nat.factorial_ne_zero _
      generalize (x : ℝ) / oneUnits = y
      generalize ((sineTail x t (m + 1 + 1)).1 : ℝ) / (sineTail x t (m + 1 + 1)).2 = z
      push_cast
      field_simp
      ring
    rw [e, ih]
    simp only [add_zero, pow_zero, one_mul]
    rw [sub_eq_neg_add, ← Finset.sum_neg_distrib]
    congr 1
    apply Finset.sum_congr rfl
    intro j _
    rw [show k + 1 + j = k + (j + 1) by omega, pow_succ (-1 : ℝ) j]
    ring

/-- The imaginary part of the exponential's partial sum. -/
theorem exp_partial_im (y : ℝ) (n : ℕ) :
    (∑ m ∈ Finset.range (2 * n), ((y : ℂ) * Complex.I) ^ m / (m.factorial : ℂ)).im =
      ∑ j ∈ Finset.range n, (-1) ^ j * y ^ (2 * j + 1) / (2 * j + 1).factorial := by
  induction n with
  | zero => simp
  | succ n ih =>
    rw [show 2 * (n + 1) = 2 * n + 1 + 1 by ring, Finset.sum_range_succ, Finset.sum_range_succ, Complex.add_im,
      Complex.add_im, ih, Finset.sum_range_succ, add_assoc]
    congr 1
    have h1 : ((y : ℂ) * Complex.I) ^ (2 * n) = (((-1) ^ n * y ^ (2 * n) : ℝ) : ℂ) := by
      rw [mul_pow, pow_mul Complex.I, Complex.I_sq]; push_cast; ring
    have h2 : ((y : ℂ) * Complex.I) ^ (2 * n + 1) = (((-1) ^ n * y ^ (2 * n + 1) : ℝ) : ℂ) * Complex.I := by
      rw [pow_succ, h1]; push_cast; ring
    rw [h1, h2]
    have e1 : ((((-1) ^ n * y ^ (2 * n) : ℝ) : ℂ) / ((2 * n).factorial : ℂ)).im = 0 := by
      rw [← Complex.ofReal_natCast, ← Complex.ofReal_div, Complex.ofReal_im]
    have e2 : ((((-1) ^ n * y ^ (2 * n + 1) : ℝ) : ℂ) * Complex.I / ((2 * n + 1).factorial : ℂ)).im =
        (-1) ^ n * y ^ (2 * n + 1) / (2 * n + 1).factorial := by
      rw [mul_div_right_comm, ← Complex.ofReal_natCast, ← Complex.ofReal_div, Complex.im_ofReal_mul, Complex.I_im,
        mul_one]
    rw [e1, e2, zero_add]

/-- The Taylor polynomial up to the power 121 is near the sine. -/
theorem sine_taylor (y : ℝ) (h0 : 0 ≤ y) (h8 : y < 8) :
    |Real.sin y - ∑ j ∈ Finset.range 61, (-1) ^ j * y ^ (2 * j + 1) / (2 * j + 1).factorial| ≤ y / 2 ^ 304 := by
  have hn : ‖(y : ℂ) * Complex.I‖ = y := by simp [abs_of_nonneg h0]
  have hb := Complex.exp_bound' (x := (y : ℂ) * Complex.I) (n := 2 * 61) (by
    rw [hn, div_le_iff₀ (by positivity)]; norm_num; linarith)
  rw [hn] at hb
  have him : (Complex.exp ((y : ℂ) * Complex.I) -
      ∑ m ∈ Finset.range (2 * 61), ((y : ℂ) * Complex.I) ^ m / (m.factorial : ℂ)).im =
      Real.sin y - ∑ j ∈ Finset.range 61, (-1) ^ j * y ^ (2 * j + 1) / (2 * j + 1).factorial := by
    rw [Complex.sub_im, Complex.exp_ofReal_mul_I_im, exp_partial_im]
  rw [← him]
  refine (Complex.abs_im_le_norm _).trans (hb.trans ?_)
  have h1 : y ^ 121 ≤ (8 : ℝ) ^ 121 := pow_le_pow_left₀ h0 h8.le _
  have h2 : (8 : ℝ) ^ 121 / ((2 * 61).factorial : ℝ) * 2 ≤ 1 / 2 ^ 304 := by
    have h3 : 8 ^ 121 * 2 * 2 ^ 304 ≤ (2 * 61).factorial := by decide +kernel
    have hf : (0 : ℝ) < ((2 * 61).factorial : ℝ) := by exact_mod_cast Nat.factorial_pos _
    rw [div_mul_eq_mul_div, div_le_div_iff₀ hf (by positivity), one_mul]
    exact_mod_cast h3
  calc y ^ (2 * 61) / ((2 * 61).factorial : ℝ) * 2
      = y * (y ^ 121 / ((2 * 61).factorial : ℝ) * 2) := by rw [show 2 * 61 = 121 + 1 from rfl, pow_succ]; ring
    _ ≤ y * ((8 : ℝ) ^ 121 / ((2 * 61).factorial : ℝ) * 2) := by gcongr
    _ ≤ y * (1 / 2 ^ 304) := by gcongr
    _ = y / 2 ^ 304 := by ring

/-- The reference sine's exact sum, before its rounding, is within 2^-304 of its argument of the real sine. -/
theorem sineSum_near (x : Nat) (h : x < 8 * oneUnits) :
    |((sineSum x).1 : ℝ) / (sineSum x).2 / oneUnits - Real.sin ((x : ℝ) / oneUnits)| ≤
      (x : ℝ) / oneUnits / 2 ^ 304 := by
  have ho : (0 : ℝ) < oneUnits := by unfold oneUnits; push_cast; positivity
  have h8 : (x : ℝ) / oneUnits < 8 := by
    rw [div_lt_iff₀ ho]
    have h2 : (x : ℝ) < ((8 * oneUnits : Nat) : ℝ) := Nat.cast_lt.2 h
    rwa [Nat.cast_mul, Nat.cast_ofNat] at h2
  have e := sineTail_sum x sineTerms 1 one_pos
  have e2 : ((sineSum x).1 : ℝ) / (sineSum x).2 / oneUnits =
      ((x : ℝ) / oneUnits) ^ (2 * 1 - 1) / (2 * 1 - 1).factorial *
        (((sineTail x sineTerms 1).1 : ℝ) / (sineTail x sineTerms 1).2) := by
    unfold sineSum
    simp only [Int.cast_mul, Int.cast_natCast]
    rw [show 2 * 1 - 1 = 1 from rfl, pow_one, Nat.factorial_one, Nat.cast_one, div_one]
    generalize (oneUnits : ℝ) = u
    ring
  rw [e2, e, abs_sub_comm]
  have e3 : ∑ j ∈ Finset.range (sineTerms + 1),
      (-1) ^ j * ((x : ℝ) / oneUnits) ^ (2 * (1 + j) - 1) / ((2 * (1 + j) - 1).factorial : ℝ) =
      ∑ j ∈ Finset.range 61, (-1) ^ j * ((x : ℝ) / oneUnits) ^ (2 * j + 1) / ((2 * j + 1).factorial : ℝ) := by
    apply Finset.sum_congr rfl
    intro j _
    rw [show 2 * (1 + j) - 1 = 2 * j + 1 by omega]
  rw [e3]
  exact sine_taylor _ (div_nonneg (Nat.cast_nonneg _) (Nat.cast_nonneg _)) h8

end Sys2Proof.Machine
end

