-- ==== Sys2Proof/Tests/Slice0.lean ====
section
/-! SUPPORT. Tests, each of one step or one function; the expected results are the vectors of 95_test_vectors.md or
worked out from the rules by hand, and each names its source. After them, for every statement with hypotheses, a
witness that meets them, clause by clause. -/

-- One theorem at a time: run together, the kernel evaluations below ask for more threads than a small host grants.
set_option Elab.async false

namespace Sys2Proof.Tests

open Sys2Proof.Machine Sys2Proof.Claims

/-! ### Small states -/

/-- A state with the given registers, nothing presented and nothing answered. -/
def idle (r : Regs) : State := { regs := r, pending := [], responses := [] }

/-- The registers of V-N1: reset, then `NOTE_ON 69, 100`. -/
def voice : Regs := beginAttack (construct 69#7 0x407B800000000000#64 (latchEnv Regs.reset))

/-- `voice` with the given oscillator. -/
def voiceWith (w : Wave) (k : BaseWave) : Regs := { voice with oscSel := { wave := w, carrier := k } }

/-- `voice` in the given stage with the given last value. -/
def voiceIn (stage : Stage) (value : F64) : Regs := { voice with stage := stage, envValue := value }

/-- The state after one more command word. -/
def after (r : Regs) (w : Nat) : State := stepState ((idle r).withFetchWord 72 w)

/-- The last response of a state. -/
def reply (s : State) : BitVec 8 × BitVec 64 :=
  match s.responses with
  | p :: _ => (p.code, p.data)
  | [] => (0#8, 0#64)

/-! ### Decoding: one word of every command, written out field by field (30_encoding.md R82 to R84) -/

theorem test_decode_nop : decode (0b00000000#8 ++ 0#64) = .command .nop := by decide

theorem test_decode_set_freq :
    decode (0b00000001#8 ++ 0b0#1 ++ 0b10000000111#11 ++ 0xB800000000000#52) =
      .command (.setFreq 0x407B800000000000#64) := by decide

theorem test_decode_note_on :
    decode (0b00000010#8 ++ 0#49 ++ 0b1100100#7 ++ 0b0#1 ++ 0b1000101#7) = .command (.noteOn 69#7 100#7) := by decide

theorem test_decode_note_off :
    decode (0b00000011#8 ++ 0#57 ++ 0b1000101#7) = .command (.noteOff 69#7) := by decide

theorem test_decode_tick :
    decode (0b00000100#8 ++ 0b0#1 ++ 0b10000000010#11 ++ 0#52) = .command (.tick 0x4020000000000000#64) := by decide

theorem test_decode_prune : decode (0b00000101#8 ++ 0#64) = .command .prune := by decide

theorem test_decode_wr_attack :
    decode (0b00010000#8 ++ 0b1#1 ++ 0b11111111111#11 ++ 1#52) = .command (.wrAttack 0xFFF0000000000001#64) := by
  decide

theorem test_decode_wr_decay :
    decode (0b00010001#8 ++ 0b0#1 ++ 0b10000000000#11 ++ 0#52) = .command (.wrDecay 0x4000000000000000#64) := by
  decide

theorem test_decode_wr_sustain :
    decode (0b00010010#8 ++ 0b0#1 ++ 0b01111111110#11 ++ 0x8000000000000#52) =
      .command (.wrSustain 0x3FE8000000000000#64) := by decide

theorem test_decode_wr_release :
    decode (0b00010011#8 ++ 0b0#1 ++ 0b01111111111#11 ++ 0#52) = .command (.wrRelease 0x3FF0000000000000#64) := by
  decide

theorem test_decode_wr_oscsel :
    decode (0b00010100#8 ++ 0#60 ++ 0b10#2 ++ 0b11#2) = .command (.wrOscsel 3#2 2#2) := by decide

theorem test_decode_read : decode (0b00100000#8 ++ 0#56 ++ 0b00001001#8) = .command (.read 9#8) := by decide

theorem test_decode_clr_err : decode (0b00100001#8 ++ 0#64) = .command .clrErr := by decide

/-- V-D3: the opcode is checked before the operand. -/
theorem test_decode_reserved_opcode : decode 0x30FFFFFFFFFFFFFFFF#72 = .rejected .illegalOpcode := by decide

/-- V-D6: NOTE_OFF 60 with operand bit 7 set. -/
theorem test_decode_reserved_operand : decode 0x0300000000000000BC#72 = .rejected .reservedOperand := by decide

/-! ### Well-formedness: an ill-formed word for each check (V-D2 to V-D12) -/

theorem test_ill_formed_opcode : opcodeListed 0x060000000000000000#72 = false := by decide
theorem test_ill_formed_opcode_above : opcodeListed 0x220000000000000000#72 = false := by decide
theorem test_ill_formed_none : wellFormed 0x000000000000000001#72 = false := by decide
theorem test_ill_formed_notev_bit7 : wellFormed 0x020000000000000080#72 = false := by decide
theorem test_ill_formed_notev_high : wellFormed 0x020000000000008045#72 = false := by decide
theorem test_ill_formed_note : wellFormed 0x0300000000000000BC#72 = false := by decide
theorem test_ill_formed_sel : wellFormed 0x140000000000000010#72 = false := by decide
theorem test_ill_formed_idx : wellFormed 0x200000000000000100#72 = false := by decide
theorem test_well_formed_f64_any_bits : wellFormed 0x10FFFFFFFFFFFFFFFF#72 = true := by decide
theorem test_table_word : decodeTableWord 72 0x200000000000000009 = some (.read 9#8) := by decide

/-! ### Functions (V-O1 to V-O9, V-E1 to V-E7, the waveOut table) -/

/-- V-O1, V-O2, V-O3, V-O4. -/
theorem test_wrap :
    wrap 0x3FEFFFFFFFFFFFFF#64 = 0x3FEFFFFFFFFFFFFF#64 ∧ wrap 0x3FF0000000000000#64 = 0#64 ∧
    wrap 0x4004000000000000#64 = 0x3FE0000000000000#64 ∧
    wrap 0x412E848080000000#64 = 0x3FD0000000000000#64 := by decide +kernel

/-- V-O6: 0.9 + 2.5 is rounded, its fractional part is exact. -/
theorem test_ramp_above_the_rate :
    rampNext 0x3FECCCCCCCCCCCCD#64 0x4034000000000000#64 0x4020000000000000#64 = 0x3FD9999999999998#64 := by
  decide +kernel

/-- V-O7, V-O8: an inexact increment, and one that rounds to nothing. -/
theorem test_ramp_rounding :
    rampNext 0#64 0x407B800000000000#64 0x40E7700000000000#64 = 0x3F82C5F92C5F92C6#64 ∧
    rampNext half 1#64 0x40E7700000000000#64 = half := by decide +kernel

/-- The waveOut table: SINE at p = 0.125, 0.375, 0.5 and 0.75. -/
theorem test_sine_stage :
    sineStage reference 0x3FC0000000000000#64 = 0x3FE6A09E667F3BCC#64 ∧
    sineStage reference 0x3FD8000000000000#64 = 0x3FE6A09E667F3BCD#64 ∧
    sineStage reference 0x3FE0000000000000#64 = 0x3CA1A62633145C07#64 ∧
    sineStage reference 0x3FE8000000000000#64 = 0xBFF0000000000000#64 := by decide +kernel

/-- The waveOut table: SQUARE at the value below 0.5 and at 0.5. -/
theorem test_square_tie :
    waveOut reference .square 0x3FDFFFFFFFFFFFFF#64 = 0#64 ∧ waveOut reference .square half = one := by
  decide +kernel

/-- V-E1, V-E4, V-E6. -/
theorem test_ease :
    ease zero one 0x3FD8000000000000#64 half = half ∧
    ease one 0x3FE8000000000000#64 0x3FFC000000000000#64 0x4000000000000000#64 = 0x3FED2BEC33301886#64 ∧
    ease 0x3FECCCCCCCCCCCCD#64 zero 0x3FE8000000000000#64 one = 0x3FDCCCCCCCCCCCCD#64 := by decide +kernel

/-- IEEE corners worked out from 00_scope.md R10 and R13: signed zeros, an overflow, a subnormal sum, -0.0 = +0.0. -/
theorem test_ieee_corners :
    fadd 0x8000000000000000#64 0x8000000000000000#64 = 0x8000000000000000#64 ∧
    fsub one one = 0#64 ∧ fmul 0x7FEFFFFFFFFFFFFF#64 0x4000000000000000#64 = 0x7FF0000000000000#64 ∧
    fadd 1#64 0x000FFFFFFFFFFFFF#64 = 0x0010000000000000#64 ∧
    feq 0x8000000000000000#64 zero = true ∧ fle 0x7FF8000000000000#64 one = false := by decide +kernel

/-- 42_voice.md R162: entries 0, 57, 69 and 127. -/
theorem test_note_table :
    mtofRef 0#7 = 0x40205A0250C2B956#64 ∧ mtofRef 57#7 = 0x406B800000000000#64 ∧
    mtofRef 69#7 = 0x407B800000000000#64 ∧ mtofRef 127#7 = 0x40C87FED4E47ADFF#64 := by decide

/-- R162: an octave doubles the frequency, so its exponent is one more; a check of the transcription. -/
theorem test_note_table_octaves :
    (List.range 116).all (fun n => mtofTable.getD (n + 12) 0#64 == mtofTable.getD n 0#64 + 0x0010000000000000#64) =
      true := by decide +kernel

/-! ### Commands, one step each -/

/-- V-N27: NOP changes nothing, ERR included. -/
theorem test_nop :
    (after { voice with err := true, errCode := 4#8 } 0).regs = { voice with err := true, errCode := 4#8 } := by
  decide

/-- V-O17: P_FREQ_MAX itself is accepted. -/
theorem test_set_freq_maximum :
    (after (voiceWith (.plain .ramp) .ramp) 0x014130000000000000).regs.rampFreq = 0x4130000000000000#64 := by decide

/-- V-O14: SET_FREQ -0.0 is BAD_FREQUENCY and STATUS becomes 0x06014501. -/
theorem test_set_freq_negative_zero :
    reply (after voice 0x018000000000000000) = (6#8, 0#64) ∧
    statusWord (after voice 0x018000000000000000).regs = 0x06014501#64 := by decide

/-- V-N1: NOTE_ON 69, 100 from reset. -/
theorem test_note_on_from_reset :
    (after Regs.reset 0x020000000000006445).regs = voice ∧ statusWord voice = 0x4501#64 := by decide

/-- V-N6: a staged attack of -1.0 is refused and nothing is latched. -/
theorem test_note_on_bad_envelope :
    (after { Regs.reset with cfgAttack := 0xBFF0000000000000#64 } 0x02000000000000403C).regs =
      { Regs.reset with cfgAttack := 0xBFF0000000000000#64, err := true, errCode := 8#8 } := by decide

/-- 41_envelope.md R136, the example: STAGE = DECAY, ENV_VALUE = 0.9, ENV_RELEASE = 1.0. -/
theorem test_note_off_in_decay :
    (after (voiceIn .decay 0x3FECCCCCCCCCCCCD#64) 0x030000000000000045).regs =
      { voiceIn .release 0x3FECCCCCCCCCCCCD#64 with envTimeLeft := one, envRelStart := 0x3FECCCCCCCCCCCCD#64 } := by
  decide

/-- V-E12: NOTE_OFF for another note. -/
theorem test_note_off_mismatch : reply (after voice 0x030000000000000046) = (5#8, 0#64) := by decide

/-- V-N21: one TICK at 48000 Hz. -/
theorem test_tick_sine :
    reply (after voice 0x0440E7700000000000) = (0#8, 0x3F14A9B5394990CB#64) := by decide +kernel

/-- V-O10: one TICK at 8 Hz of a vibrato with a square carrier. -/
theorem test_tick_vibrato :
    reply (after (voiceWith .vibrato .square) 0x044020000000000000) = (0#8, 0x3FBB27247AFF148F#64) ∧
    (after (voiceWith .vibrato .square) 0x044020000000000000).regs.rampFreq = 0x407B4E383D1E81B0#64 := by
  decide +kernel

/-- V-E16: PRUNE in DONE frees the block, STATUS = 0x4540. -/
theorem test_prune_done : statusWord (after (voiceIn .done zero) 0x050000000000000000).regs = 0x4540#64 := by decide

/-- V-N26: PRUNE in ATTACK changes nothing. -/
theorem test_prune_attack : (after voice 0x050000000000000000).regs = voice := by decide

/-- V-G1: a NaN's payload is stored bit for bit. -/
theorem test_wr_attack_nan :
    (after voice 0x107FF8000000000001).regs = { voice with cfgAttack := 0x7FF8000000000001#64 } := by decide

/-- 43_registers.md R191. -/
theorem test_wr_decay : (after voice 0x113FB999999999999A).regs = { voice with cfgDecay := 0x3FB999999999999A#64 } := by
  decide

/-- 43_registers.md R192: WR_SUSTAIN 1.5 is accepted. -/
theorem test_wr_sustain : (after voice 0x123FF8000000000000).regs = { voice with cfgSustain := 0x3FF8000000000000#64 } := by
  decide

/-- 43_registers.md R193: WR_RELEASE 0.25 leaves ENV_RELEASE of the sounding voice. -/
theorem test_wr_release : (after voice 0x133FD0000000000000).regs = { voice with cfgRelease := 0x3FD0000000000000#64 } := by
  decide

/-- V-G3: WR_OSCSEL VIBRATO, SQUARE stores 0xB and leaves OSC_SEL. -/
theorem test_wr_oscsel :
    regValue reference (after voice 0x14000000000000000B).regs .cfgOscsel = 0xB#64 ∧
    (after voice 0x14000000000000000B).regs.oscSel = voice.oscSel := by decide

/-- V-G5: CARRIER = 3. -/
theorem test_wr_oscsel_reserved_carrier :
    statusWord (after Regs.reset 0x14000000000000000F).regs = 0x09010040#64 := by decide

/-- 43_registers.md R196: READ STATUS after reset. -/
theorem test_read_status : reply (after Regs.reset 0x200000000000000000) = (0#8, 0x40#64) := by decide

/-- V-G7, V-G8: the highest valid index and the lowest reserved one. -/
theorem test_read_bounds :
    reply (after Regs.reset 0x200000000000000014) = (0#8, 0x3FD3333333333333#64) ∧
    reply (after Regs.reset 0x200000000000000015) = (0xA#8, 0#64) := by decide

/-- V-G10. -/
theorem test_clr_err : (after { voice with err := true, errCode := 9#8 } 0x210000000000000000).regs = voice := by
  decide

/-- V-G11: with a nonzero operand the first error is kept. -/
theorem test_clr_err_operand :
    (after { voice with err := true, errCode := 9#8 } 0x210000000000000001).regs.errCode = 9#8 := by decide

/-- V-R1, V-R2: reset on a LIVE voice with an error recorded. -/
theorem test_reset :
    stepState { idle { voice with err := true, errCode := 9#8 } with pending := [.reset] } = State.reset := by decide

/-! ### Host duties (70_reset_and_hazards.md R256) -/

/-- H3: two rates in one voice's life break it; on a FREE block, or in two lives with a PRUNE or a reset between, they
do not. -/
theorem test_duty_rate :
    dutyRate reference none voice [.command (encode (.tick one)), .command (encode (.tick half))] = false ∧
    dutyRate reference none Regs.reset [.command (encode (.tick one)), .command (encode (.tick half))] = true ∧
    dutyRate reference (some one) (voiceIn .done zero)
      [.command (encode .prune), .command (encode (.noteOn 60#7 1#7)), .command (encode (.tick half))] = true ∧
    dutyRate reference (some one) voice
      [.reset, .command (encode (.noteOn 60#7 1#7)), .command (encode (.tick half))] = true := by decide +kernel

/-- H4: notes only; a SET_FREQ may go to a FREE slot, and a note that another slot serves may not go to a FREE one. -/
theorem test_duty_routing :
    dutyRouting Regs.reset (.setFreq one) = true ∧ dutyRouting voice (.noteOn 70#7 1#7) = false ∧
    dutyRouting Regs.reset (.noteOff 69#7) = false ∧ dutyRouting voice (.noteOff 69#7) = true ∧
    Bank.dutyRouting { slots := [idle Regs.reset, idle voice] } 0 (.noteOn 69#7 1#7) = false ∧
    Bank.dutyRouting { slots := [idle Regs.reset, idle voice] } 1 (.noteOn 69#7 1#7) = true ∧
    Bank.dutyRouting { slots := [idle Regs.reset, idle voice] } 0 (.noteOn 70#7 1#7) = true := by decide +kernel

/-- H1, H2: a RENDER of two frames and one of none, and a control command inside a buffer. -/
theorem test_duty_buffers :
    dutyBuffers false (Asm.expand (.render one 2) ++ [.noteOff 69#7] ++ Asm.expand (.render one 0)) = true ∧
    dutyBuffers false [.tick one, .noteOff 69#7, .prune] = false ∧ dutyBuffers false [.tick one] = false := by decide

/-! ### Assembler text (30_encoding.md R89 to R91; the programs of 95_test_vectors.md) -/

/-- The words of a source line, as text. -/
def words (line : String) : Option (List String) :=
  (Asm.assemble line).map (fun is => is.map (fun i => Asm.wordText (encode i)))

theorem test_asm_tick : words "TICK 48000.0  ; one frame" = some ["04_40E7700000000000"] := by decide +kernel

theorem test_asm_note_on : words "NOTE_ON 69, 100" = some ["02_0000000000006445"] := by decide +kernel

theorem test_asm_oscsel : words "WR_OSCSEL VIBRATO, SINE" = some ["14_0000000000000007"] := by decide +kernel

theorem test_asm_read : words "READ RAMP_PHASE" = some ["20_0000000000000009"] := by decide +kernel

theorem test_asm_render : words "RENDER 8.0, 2" =
    some ["04_4020000000000000", "04_4020000000000000", "05_0000000000000000"] := by decide +kernel

theorem test_asm_pattern : words "SET_FREQ f64(0x0000000000000001)" = some ["01_0000000000000001"] := by
  decide +kernel

/-! ### Witnesses: every statement with hypotheses, clause by clause, at the ends of the ranges -/

/-- A state with one word presented. -/
def withWord (r : Regs) (w : Command) : State := { idle r with pending := [.command w] }

/-- A state with an error recorded. -/
def errored : Regs := { Regs.reset with err := true, errCode := 4#8 }

theorem witness_DecodeMakesTheTwoChecksInOrder :
    (opcodeListed 0x060000000000000000#72 = false ∧ opcodeListed 0xFF0000000000000000#72 = false) ∧
    (opcodeListed 0x210000000000000001#72 = true ∧ reservedClear 0x210000000000000001#72 = false) ∧
    (opcodeListed 0x200000000000000100#72 = true ∧ reservedClear 0x200000000000000100#72 = false) ∧
    (opcodeListed 0x2000000000000000FF#72 = true ∧ reservedClear 0x2000000000000000FF#72 = true) := by decide

/-- The six ends of the three reserved ranges. -/
theorem witness_ReservedOpcodeIsRejectedWhateverItsOperand :
    ∀ opc ∈ [0x06#8, 0x0F#8, 0x15#8, 0x1F#8, 0x22#8, 0xFF#8],
      (0x06 ≤ opc.toNat ∧ opc.toNat ≤ 0x0F ∨ 0x15 ≤ opc.toNat ∧ opc.toNat ≤ 0x1F ∨ 0x22 ≤ opc.toNat) ∧
      (withWord voice (opc ++ 1#64)).pending = .command (opc ++ 1#64) :: [] := by decide

theorem witness_StepRunsTheDecodedCommand :
    (withWord voice 0x020000000000006445#72).pending = .command 0x020000000000006445#72 :: [] ∧
    decode 0x020000000000006445#72 = .command (.noteOn 69#7 100#7) := by decide

theorem witness_StepRejectsAWordThatIsNoCommand :
    (withWord voice 0x220000000000000000#72).pending = .command 0x220000000000000000#72 :: [] ∧
    decode 0x220000000000000000#72 = .rejected .illegalOpcode ∧
    (withWord voice 0x140000000000000010#72).pending = .command 0x140000000000000010#72 :: [] ∧
    decode 0x140000000000000010#72 = .rejected .reservedOperand := by decide

theorem witness_ResetSetsEveryRegister : ({ idle voice with pending := [.reset] } : State).pending = .reset :: [] := rfl

theorem witness_IdleBlockKeepsItsState : (idle voice).pending = [] := rfl

/-- A rejected command, a command other than TICK and READ, and both at once. -/
theorem witness_EveryCommandReturnsOneResponse :
    (reply (after voice 0x030000000000000046)).1 ≠ 0x00#8 ∧
    (∀ sr, Instr.noteOff 70#7 ≠ .tick sr) ∧ (∀ x, Instr.noteOff 70#7 ≠ .read x) :=
  ⟨by decide, nofun, nofun⟩

/-- A rejection that records its code, and one that finds an earlier code. -/
theorem witness_RejectionChangesOnlyTheStickyError :
    ∀ r ∈ [voice, errored], ∃ t p ps,
      (withWord r 0x2000000000000000FF#72).pending = .command 0x2000000000000000FF#72 :: [] ∧
      step (withWord r 0x2000000000000000FF#72) = .next t ∧ t.responses = p :: ps ∧ p.code ≠ 0x00#8 :=
  fun _ _ => ⟨_, _, _, rfl, rfl, rfl, by decide⟩

theorem witness_StepKeepsTheErrorFieldsConsistent :
    (errOk voice = true ∧ ∃ t, step (withWord voice 0xFF0000000000000000#72) = .next t) ∧
    (errOk errored = true ∧ ∃ t, step (withWord errored 0x210000000000000000#72) = .next t) :=
  ⟨⟨by decide, _, rfl⟩, by decide, _, rfl⟩

/-- Each of the three outcomes: kept, cleared, reset. -/
theorem witness_FirstErrorCodeIsKept :
    (errored.err = true ∧ ∃ t, step (withWord errored 0xFF0000000000000000#72) = .next t) ∧
    (errored.err = true ∧ ∃ t, step (withWord errored 0x210000000000000000#72) = .next t) ∧
    (errored.err = true ∧ ∃ t, step { idle errored with pending := [.reset] } = .next t) :=
  ⟨⟨rfl, _, rfl⟩, ⟨rfl, _, rfl⟩, rfl, _, rfl⟩

theorem witness_NopChangesNothing : (1#64 : BitVec 64) ≠ 0#64 ∧ (0xFFFFFFFFFFFFFFFF#64 : BitVec 64) ≠ 0#64 := by decide

/-- Freed; not LIVE; not in DONE; a nonzero operand. -/
theorem witness_PruneFreesADoneVoice :
    ((idle (voiceIn .done zero)).regs.live = true ∧ (idle (voiceIn .done zero)).regs.stage = .done) ∧
    (idle Regs.reset).regs.live = false ∧ (idle (voiceIn .release one)).regs.stage ≠ .done ∧
    (0x8000000000000000#64 : BitVec 64) ≠ 0#64 := by decide

/-- The least and the greatest accepted frequency, and the two values just outside. -/
theorem witness_SetFreqRetargets :
    ((idle voice).regs.live = true ∧ (idle voice).regs.oscSel.wave ≠ .vibrato ∧ goodFreq 1#64 ∧
      goodFreq 0x4130000000000000#64) ∧
    ((idle (voiceWith .vibrato .ramp)).regs.live = true ∧ (voiceWith .vibrato .ramp).oscSel.wave = .vibrato) ∧
    (idle Regs.reset).regs.live = false ∧ ¬ goodFreq 0#64 ∧ ¬ goodFreq 0x4130000000000001#64 ∧
    ¬ goodFreq 0x7FF8000000000000#64 := by
  unfold goodFreq; decide

theorem witness_NoteOnConstructsAVoice : (idle Regs.reset).regs.live = false ∧ goodEnv (idle Regs.reset).regs := by
  unfold goodEnv goodDuration goodLevel; decide

/-- A sine voice and a vibrato voice, with durations of -0.0 and a sustain of 1.0. -/
theorem witness_NoteOnRetriggersWithContinuity :
    ∀ r ∈ [voice, voiceWith .vibrato .square,
        { voice with cfgAttack := 0x8000000000000000#64, cfgSustain := one, cfgDecay := 0x7FEFFFFFFFFFFFFF#64 }],
      (idle r).regs.live = true ∧ goodEnv (idle r).regs := by
  unfold goodEnv goodDuration goodLevel; decide

/-- BUSY; and a bad envelope on a FREE block and on a LIVE one for its own note: a duration just below zero, a
sustain just above 1.0, a NaN and an infinity. -/
theorem witness_NoteOnRejections :
    ((idle voice).regs.live = true ∧ 70#7 ≠ (idle voice).regs.note) ∧
    (∀ r ∈ [{ Regs.reset with cfgAttack := 0x8000000000000001#64 },
        { voice with cfgSustain := 0x3FF0000000000001#64 }, { voice with cfgDecay := 0x7FF0000000000000#64 },
        { voice with cfgRelease := 0x7FF0000000000001#64 }],
      ((idle r).regs.live = true → 69#7 = (idle r).regs.note) ∧ ¬ goodEnv (idle r).regs) := by
  unfold goodEnv goodDuration goodLevel; decide

theorem witness_NoteOffBeginsTheRelease :
    (∀ st ∈ [Stage.attack, .decay, .sustain], (idle (voiceIn st half)).regs.live = true ∧
      ((idle (voiceIn st half)).regs.stage = .attack ∨ (idle (voiceIn st half)).regs.stage = .decay ∨
        (idle (voiceIn st half)).regs.stage = .sustain)) ∧
    (∀ st ∈ [Stage.release, .done], (idle (voiceIn st half)).regs.live = true ∧
      ((idle (voiceIn st half)).regs.stage = .release ∨ (idle (voiceIn st half)).regs.stage = .done)) ∧
    (idle Regs.reset).regs.live = false ∧ ((idle voice).regs.live = true ∧ 70#7 ≠ (idle voice).regs.note) := by
  decide

/-- The ends of the range of sample rates, and the values just outside. -/
theorem witness_TickProducesOneFrame :
    (idle voice).regs.live = true ∧ goodRate one ∧ goodRate 0x4170000000000000#64 ∧
    ¬ goodRate 0x3FEFFFFFFFFFFFFF#64 ∧ ¬ goodRate 0x4170000000000001#64 ∧ ¬ goodRate 0x7FF8000000000000#64 := by
  unfold goodRate; decide

theorem witness_TickOnAFreeBlockIsSilent :
    (idle Regs.reset).regs.live = false ∧ goodRate one ∧ goodRate 0x4170000000000000#64 ∧ ¬ goodRate zero := by
  unfold goodRate; decide

theorem witness_OscillatorAdvancesThenReads :
    (∀ w ∈ [BaseWave.ramp, .sine, .square], (voiceWith (.plain w) .ramp).oscSel.wave = .plain w) ∧
    (voiceWith .vibrato .ramp).oscSel.wave = .vibrato := by decide

/-- 0.0, -0.0, the value below 0.5, 0.5 and the value below 1.0. -/
theorem witness_OutputStages :
    [zero, 0x8000000000000000#64, 0x3FDFFFFFFFFFFFFF#64].all
      (fun p => inUnit p && flt p 0x3FE0000000000000#64) = true ∧
    [half, 0x3FEFFFFFFFFFFFFF#64].all (fun p => inUnit p && !flt p 0x3FE0000000000000#64) = true := by
  decide +kernel

/-- Below 1.0 (both zeros and the value below 1.0), from 1.0 to below 2.0, and from 2.0 on. -/
theorem witness_WrapIsTheExactFractionalPart :
    [zero, 0x8000000000000000#64, 0x3FEFFFFFFFFFFFFF#64].all
      (fun x => isFinite x && fle zero x && !fle one x) = true ∧
    [one, 0x3FFFFFFFFFFFFFFF#64].all
      (fun x => isFinite x && fle zero x && fle one x && flt x 0x4000000000000000#64) = true ∧
    [0x4000000000000000#64, 0x7FEFFFFFFFFFFFFF#64].all
      (fun x => isFinite x && fle zero x && fle one x) = true := by decide +kernel

theorem witness_SineArgumentOrderDoesNotMatter : inUnit 1#64 = true ∧ inUnit 0x3FEFFFFFFFFFFFFF#64 = true := by decide

theorem witness_EaseCurveAndItsEnds :
    isFinite (0x8000000000000000#64 : F64) = true ∧ isFinite one = true ∧
    isFinite (fsub one 0x8000000000000000#64) = true ∧ isFinite (1#64 : F64) = true ∧ flt zero 1#64 = true := by
  decide +kernel

/-- No time counted; still in the stage at exactly 0.0; ATTACK into DECAY, at exactly 0.0 too; ATTACK through DECAY
into SUSTAIN; DECAY into SUSTAIN; RELEASE into DONE. One period at a rate of 1.0 is 1.0. -/
theorem witness_EnvelopeStep :
    ((voiceIn .sustain half).stage = .sustain ∧ (voiceIn .done zero).stage = .done) ∧
    (∀ st ∈ [Stage.attack, .decay, .release], flt (fsub one (fdiv one one)) zero = false ∧
      ({ voiceIn st half with envTimeLeft := one } : Regs).envTimeLeft = one) ∧
    ([half, 0x4000000000000000#64].all (fun d => flt (fsub half (fdiv one one)) zero &&
      !flt (fadd (fsub half (fdiv one one)) d) zero &&
      ({ voice with envTimeLeft := half, envDecay := d } : Regs).stage == .attack) = true) ∧
    (flt (fsub half (fdiv one one)) zero = true ∧ flt (fadd (fsub half (fdiv one one)) zero) zero = true ∧
      ({ voice with envTimeLeft := half, envDecay := zero } : Regs).stage = .attack) ∧
    (∀ st ∈ [Stage.decay, .release], flt (fsub zero (fdiv one one)) zero = true ∧
      ({ voiceIn st half with envTimeLeft := zero } : Regs).stage = st) := by decide +kernel

theorem witness_StageValues :
    ∀ st ∈ [Stage.attack, .decay, .sustain, .release, .done], (voiceIn st half).stage = st := by decide

/-- A release of exactly one sample. -/
theorem witness_FirstReleaseSample :
    ∀ st ∈ [Stage.attack, .decay, .sustain],
      ((voiceIn st half).stage = .attack ∨ (voiceIn st half).stage = .decay ∨ (voiceIn st half).stage = .sustain) ∧
      flt (fsub (voiceIn st half).envRelease (fdiv one one)) zero = false := by decide +kernel

theorem witness_WrOscselStoresBothCodes : (2#2 : BitVec 2) ≠ 3#2 ∧ (0#2 : BitVec 2) ≠ 3#2 := by decide

/-- The first and the last index of each range. -/
theorem witness_ReadReturnsTheRegister :
    (readTable voice)[(0x00#8 : RegIndex).toNat]? = some (readTable voice).head! ∧
    (readTable voice)[(0x14#8 : RegIndex).toNat]? = some 0x3FD3333333333333#64 ∧
    (0x14#8 : RegIndex).toNat ≤ 0x14 ∧ 0x14 < (0x15#8 : RegIndex).toNat ∧ 0x14 < (0xFF#8 : RegIndex).toNat := by decide

theorem witness_ClrErrClearsTheStickyError :
    (1#64 : BitVec 64) ≠ 0#64 ∧
    (withWord errored (0x21#8 ++ 1#64)).pending = .command (0x21#8 ++ 1#64) :: [] := by decide

theorem witness_ReadsTellEveryRegister : ∀ name, regValue reference voice name = regValue reference voice name :=
  fun _ => rfl

/-- A NOTE_ON that writes eleven of the registers, and a TICK. -/
theorem witness_OnlyTheListedCommandsWriteARegister :
    (∃ t, exec (.noteOn 69#7 0#7) (idle Regs.reset) = .next t) ∧ (∃ t, exec (.tick one) (idle voice) = .next t) :=
  ⟨⟨_, exec_eq _ _⟩, _, exec_eq _ _⟩

theorem witness_LifecycleOfABlock :
    (∃ t, step (withWord Regs.reset 0x020000000000006445#72) = .next t ∧ (withWord Regs.reset 0#72).regs.live = false ∧
      t.regs.live = true) ∧
    (∃ t, step (withWord (voiceIn .done zero) 0x050000000000000000#72) = .next t ∧
      (withWord (voiceIn .done zero) 0#72).regs.live = true ∧ t.regs.live = false) ∧
    (∃ t, step { idle voice with pending := [.reset] } = .next t ∧ (idle voice).regs.live = true ∧
      t.regs.live = false) ∧
    (∃ t, step (withWord voice 0x030000000000000045#72) = .next t ∧ (withWord voice 0#72).regs.live = true ∧
      t.regs.live = true) :=
  ⟨⟨_, rfl, rfl, rfl⟩, ⟨_, rfl, rfl, rfl⟩, ⟨_, rfl, rfl, rfl⟩, _, rfl, rfl, rfl⟩

theorem witness_StageMovesOnlyAlongTheMachine :
    (∃ t, exec (.noteOn 69#7 1#7) (idle Regs.reset) = .next t ∧ t.regs.stage ≠ (idle Regs.reset).regs.stage) ∧
    (∃ t, exec (.noteOff 69#7) (idle voice) = .next t ∧ t.regs.stage ≠ (idle voice).regs.stage) ∧
    (∀ st ∈ [Stage.attack, .decay, .release],
      (stepState (withWord { voiceIn st half with envTimeLeft := zero } 0x043FF0000000000000#72)).regs.stage ≠ st) :=
  ⟨⟨_, rfl, by decide⟩, ⟨_, rfl, by decide⟩, by decide +kernel⟩

theorem witness_DoneIsTerminal :
    (∃ t, (idle (voiceIn .done zero)).regs.stage = .done ∧ exec (.tick one) (idle (voiceIn .done zero)) = .next t ∧
      ∀ n v, Instr.tick one ≠ .noteOn n v) ∧
    (voiceIn .done half).stage = .done ∧
    ((idle (voiceIn .done zero)).regs.live = true ∧ (idle (voiceIn .done zero)).regs.stage = .done) :=
  ⟨⟨_, rfl, exec_eq _ _, nofun⟩, rfl, rfl, rfl⟩

theorem witness_StagedRegistersActOnlyAtNoteOn :
    ((2#2 : BitVec 2) ≠ 3#2 ∧ ∃ t, exec (.wrOscsel 3#2 2#2) (idle voice) = .next t) ∧
    (∃ t, exec (.wrAttack one) (idle voice) = .next t) ∧
    ((∀ n v, Instr.tick one ≠ .noteOn n v) ∧ (∀ x, Instr.tick one ≠ .read x) ∧
      sameUnstaged (idle voice).regs (idle { voice with cfgAttack := zero, cfgSustain := half }).regs) :=
  ⟨⟨by decide, _, rfl⟩, ⟨_, rfl⟩, nofun, nofun, rfl⟩

theorem witness_FreeBlockForgetsTheLastVoice :
    ((idle Regs.reset).regs.live = false ∧ (∀ x, Instr.noteOn 60#7 1#7 ≠ .read x) ∧
      sameNonWorking (idle Regs.reset).regs
        (idle { Regs.reset with rampPhase := half, lfoPhase := half, envValue := one, envRelStart := one }).regs) ∧
    ((idle Regs.reset).regs.live = false ∧ (∀ n v, Instr.tick one ≠ .noteOn n v) ∧
      ∃ t, exec (.tick one) (idle Regs.reset) = .next t) :=
  ⟨⟨rfl, nofun, rfl⟩, rfl, nofun, _, exec_eq _ _⟩

theorem witness_InstancesShareNothing :
    (0 : Nat) ≠ 1 ∧ (Bank.reset 2).slots[1]? = some State.reset ∧
    ∃ t, step { State.reset with pending := .command 0x020000000000006445#72 :: State.reset.pending } = .next t :=
  ⟨by decide, rfl, _, rfl⟩

/-- Two finite values, a negative zero sum, and the bounds of the rounding clauses: the largest finite value added to
itself is above the boundary. -/
theorem witness_AddAndSubtractRoundToNearestEven :
    isFinite (0x8000000000000000#64 : F64) = true ∧
    signedUnits 0x8000000000000000#64 + signedUnits 0x8000000000000000#64 = 0 ∧
    signedUnits 0x8000000000000000#64 = signedUnits zero ∧ signedUnits one = signedUnits one ∧
    isFinite (0x7FEFFFFFFFFFFFFF#64 : F64) = true ∧
    (2 ^ 2098 - 2 ^ 2044) * 1 ≤ (signedUnits 0x7FEFFFFFFFFFFFFF#64 + signedUnits 0x7FEFFFFFFFFFFFFF#64).natAbs ∧
    (signedUnits 1#64 + signedUnits one).natAbs < (2 ^ 2098 - 2 ^ 2044) * 1 := by decide +kernel

theorem witness_MultiplyAndDivideRoundToNearestEven :
    isFinite one = true ∧ isFinite (0x8000000000000001#64 : F64) = true ∧ signedUnits 0x8000000000000001#64 ≠ 0 ∧
    isFinite zero = true ∧ signedUnits zero = 0 ∧ signedUnits one ≠ 0 := by decide +kernel

theorem witness_SquareRootIsCorrectlyRounded :
    [zero, 1#64, half, 0x7FEFFFFFFFFFFFFF#64].all (fun x => isFinite x && !signBit x) = true ∧
    isFinite one = true := by decide +kernel

theorem witness_ReferenceSineIsNearestToTheRealSine :
    [zero, one, 0x401FFFFFFFFFFFFF#64, 0xC01FFFFFFFFFFFFF#64].all
      (fun x => isFinite x && decide (units x < 8 * oneUnits)) = true ∧ isFinite half = true := by decide +kernel

theorem witness_ReferenceNoteTable : (126#7 : Note).toNat < (127#7 : Note).toNat ∧ (0#7 : Note).toNat < (1#7 : Note).toNat := by
  decide

/-- The invariant on a sounding voice in its attack. -/
theorem witness_StepKeepsTheInvariant :
    voice.live = true ∧ voice.Inv ∧ ∃ t, step (withWord voice 0x0440E7700000000000#72) = .next t :=
  ⟨rfl, ⟨by decide, fun _ =>
    { rampPhase := by decide, lfoPhase := by decide, baseFreq := by decide, rampFreq := by decide
      envAttack := by decide, envDecay := by decide, envRelease := by decide, envSustain := by decide
      timeInStage := fun total h => by cases h; decide
      timeFinite := by decide, envValue := by decide, envAtkStart := by decide, envRelStart := by decide }⟩,
    _, (step_command (i := .tick 0x40E7700000000000#64) rfl (by decide)).trans (exec_eq _ _)⟩

/-- An admissible configuration other than the reference one: no gain, a sine that is zero, and a note table of
neighbours of 220.0 up to note 57 and of 440.0 above it. -/
def plainConfig : Config where
  gain := zero
  sin := fun _ => zero
  mtof := fun n => BitVec.ofNat 64 ((if n.toNat ≤ 57 then 0x406B7FFFFFFFFFC7 else 0x407B7FFFFFFFFFBB) + n.toNat)
  freqMax := reference.freqMax
  srMin := reference.srMin
  srMax := reference.srMax

theorem plainConfig_admissible : plainConfig.Admissible where
  gainFinite := by decide
  sinBounded := fun _ _ _ _ => (by decide : isFinite zero = true ∧ fle (fneg one) zero = true ∧ fle zero one = true)
  sinZero := rfl
  mtofConcertA := by decide
  mtofOctave := by
    rw [show (signedUnits (plainConfig.mtof 57#7) - signedUnits 0x406B800000000000#64).natAbs = 0 by decide +kernel]
    exact Nat.zero_le _
  mtofIncreasing := by decide +kernel
  mtofValid := by decide

theorem witness_EveryAdmissibleBlockKeepsTheVoiceInvariant :
    plainConfig.Admissible ∧ refRanges plainConfig ∧ (Regs.reset.live = true → VoiceInv plainConfig Regs.reset) ∧
    ∃ r' data, commandEffect plainConfig (.noteOn 69#7 1#7) Regs.reset = .accept r' data ∧ r'.live = true :=
  ⟨plainConfig_admissible, ⟨rfl, rfl, rfl⟩, nofun, _, _, rfl, rfl⟩

theorem witness_PhaseStaysInUnitInterval :
    goodFreq 1#64 ∧ goodFreq 0x4130000000000000#64 ∧ goodRate one ∧ goodRate 0x4170000000000000#64 ∧
    inUnit zero = true ∧ inUnit 0x3FEFFFFFFFFFFFFF#64 = true := by
  unfold goodFreq goodRate; decide

theorem witness_SamplesAreFinite :
    (idle voice).regs.Inv ∧ goodRate one ∧ goodRate 0x4170000000000000#64 :=
  ⟨witness_StepKeepsTheInvariant.2.1, by unfold goodRate; decide, by unfold goodRate; decide⟩

/-- The least and the greatest rate, the latter also a power of two. -/
theorem witness_AttackLastsOneSecondOfSamples :
    ∀ p ∈ [(1, one), (2 ^ 24, 0x4170000000000000#64), (48000, 0x40E7700000000000#64)],
      1 ≤ p.1 ∧ p.1 ≤ 2 ^ 24 ∧ isFinite p.2 = true ∧ signedUnits p.2 = (p.1 : Nat) * oneUnits ∧
      voice.stage = .attack ∧ voice.envAttack = one ∧ voice.envTimeLeft = one ∧ voice.envAtkStart = zero := by
  decide +kernel

/-- The end of a release, and one of one second, at the least and the greatest rate 2^j. -/
theorem witness_ReleaseEndsAndIsPruned :
    ∀ q ∈ [(0, one, 0, zero), (0, one, 1, one), (24, 0x4170000000000000#64, 2 ^ 24, one)],
      q.1 ≤ 24 ∧ isFinite q.2.1 = true ∧ signedUnits q.2.1 = 2 ^ q.1 * oneUnits ∧ q.2.2.1 < 2 ^ 53 ∧
      isFinite q.2.2.2 = true ∧ signedUnits q.2.2.2 * 2 ^ q.1 = (q.2.2.1 : Nat) * oneUnits ∧
      ({ voiceIn .release half with envTimeLeft := q.2.2.2 } : Regs).stage = .release ∧
      ({ voiceIn .release half with envTimeLeft := q.2.2.2 } : Regs).live = true := by decide +kernel

end Sys2Proof.Tests
end

section
/-! PROOF. The oscillator's values at every admissible configuration (40_oscillator.md R101, R102, R108, R109): a phase
stays in [0, 1), and the vibrato's frequency stays finite and above zero. -/

namespace Sys2Proof.Machine

open Sys2Proof.Claims

/-! ### The checks of a configuration in units -/

theorem validSr_of_refRanges {c : Config} (hr : refRanges c) (sr : F64) : validSr c sr = validSr reference sr := by
  obtain ⟨-, hmin, hmax⟩ := hr
  unfold validSr
  rw [hmin, hmax]

/-- An accepted sample rate is a finite value of 1.0 or more. -/
theorem one_le_of_validSr {sr : F64} (h : validSr reference sr = true) :
    isFinite sr = true ∧ (oneUnits : Int) ≤ signedUnits sr := by
  unfold validSr at h
  simp only [Bool.and_eq_true] at h
  obtain ⟨⟨hfin, hmin⟩, -⟩ := h
  rw [show reference.srMin = one from rfl, fle_iff isFinite_one hfin, signedUnits_one] at hmin
  exact ⟨hfin, hmin⟩

theorem flt_zero_iff {x : F64} (hx : isFinite x = true) : flt zero x = true ↔ 0 < signedUnits x := by
  rw [flt_iff isFinite_zero hx, signedUnits_zero]

theorem validFreq_pos {c : Config} {f : F64} (h : validFreq c f = true) :
    isFinite f = true ∧ 0 < signedUnits f := by
  unfold validFreq at h
  simp only [Bool.and_eq_true] at h
  obtain ⟨⟨hfin, hpos⟩, -⟩ := h
  exact ⟨hfin, (flt_zero_iff hfin).1 hpos⟩

theorem validFreq_le_max {c : Config} {f : F64} (hr : refRanges c) (h : validFreq c f = true) :
    signedUnits f ≤ signedUnits reference.freqMax := by
  have hfin := (validFreq_pos h).1
  obtain ⟨hmax, -, -⟩ := hr
  unfold validFreq at h
  simp only [Bool.and_eq_true] at h
  rw [hmax, fle_iff hfin (by decide)] at h
  exact h.2

/-! ### The phase -/

theorem units_le_max {x : F64} (h : isFinite x = true) : units x ≤ 2 ^ 2098 - 2 ^ 2045 := by
  have hmax : unitsOfMag (infMag - 1) = 2 ^ 2098 - 2 ^ 2045 := by decide +kernel
  rw [← hmax]
  have hx := (isFinite_iff x).1 h
  exact unitsOfMag_le (by norm_num [infMag]) (by omega)

/-- `wrap` takes every finite value at or above zero into [0, 1). -/
theorem inUnit_wrap {x : F64} (hx : isFinite x = true) (h0 : 0 ≤ signedUnits x) : inUnit (wrap x) = true := by
  rw [inUnit_iff]
  unfold wrap
  cases hge : fle one x
  · rw [fle_false_iff isFinite_one hx, signedUnits_one] at hge
    exact ⟨hx, h0, hge⟩
  · obtain ⟨hfloor, hvalue⟩ := ffloor_value hx h0
    obtain ⟨-, f, hf, hfrac⟩ := exists_whole_and_fraction ((isFinite_iff x).1 hx)
    have hmod : signedUnits x - signedUnits (ffloor x) = signedUnits x % oneUnits := by
      rw [hvalue, Int.emod_def, mul_comm]
    have hpos : (0 : Int) < oneUnits := Int.ofNat_lt.2 oneUnits_pos
    have hunits : (signedUnits x % oneUnits).natAbs = unitsOfMag f := by
      have hx' : signedUnits x = (units x : Int) := by
        rw [← natAbs_signedUnits, Int.natAbs_of_nonneg h0]
      rw [hfrac, hx', ← Int.natCast_mod, Int.natAbs_natCast]
      rfl
    obtain ⟨hfin, hexact⟩ := fsub_exact hx hfloor hf (by rw [hmod, hunits])
    rw [if_pos rfl, hexact, hmod]
    exact ⟨hfin, Int.emod_nonneg _ hpos.ne', Int.emod_lt_of_pos _ hpos⟩

/-- One advance of a ramp keeps its phase in [0, 1), at any finite frequency that is not negative. -/
theorem inUnit_rampNext {phase freq sr : F64} (hp : inUnit phase = true) (hf : isFinite freq = true)
    (h0 : 0 ≤ signedUnits freq) (hsr : validSr reference sr = true) : inUnit (rampNext phase freq sr) = true := by
  obtain ⟨hpfin, hp0, hp1⟩ := (inUnit_iff phase).1 hp
  obtain ⟨hsfin, hs1⟩ := one_le_of_validSr hsr
  have hone : (0 : Int) < oneUnits := Int.ofNat_lt.2 oneUnits_pos
  have hq := fdiv_between (lo := zero) (hi := freq) hf hsfin isFinite_zero hf (by linarith)
    (by rw [signedUnits_zero, zero_mul]; exact mul_nonneg h0 hone.le) (mul_le_mul_of_nonneg_left hs1 h0)
  obtain ⟨hqfin, hq0, -⟩ := hq
  rw [signedUnits_zero] at hq0
  have hbound : (signedUnits phase + signedUnits (fdiv freq sr)).natAbs < (2 ^ 2098 - 2 ^ 2044) * 1 := by
    have hmax := units_le_max hqfin
    have hroom : 2 ^ 2098 - 2 ^ 2045 + oneUnits < (2 ^ 2098 - 2 ^ 2044) * 1 := by decide +kernel
    refine lt_trans ?_ hroom
    rw [← natAbs_signedUnits] at hmax
    generalize 2 ^ 2098 - 2 ^ 2045 = top at *
    omega
  obtain ⟨hsum, hsum0⟩ := fadd_nonneg hpfin hqfin (by linarith) hbound
  exact inUnit_wrap hsum hsum0

/-! ### The vibrato's frequency -/

/-- S1 of R8 at the sine stage: the sine of a phase is in [-1, 1]. -/
theorem sineStage_bounds {c : Config} (hc : c.Admissible) {p : F64} (hp : inUnit p = true) :
    isFinite (sineStage c p) = true ∧ -(oneUnits : Int) ≤ signedUnits (sineStage c p) ∧
      signedUnits (sineStage c p) ≤ oneUnits := by
  obtain ⟨hfin, h0, h1⟩ := (inUnit_iff p).1 hp
  have htwoPi : isFinite twoPi = true := by decide
  have h2pi : 0 < signedUnits twoPi := by decide +kernel
  have hlimit : signedUnits twoPi < signedUnits 0x4019333333333333#64 := by decide +kernel
  obtain ⟨harg, harg0, harg1⟩ := fmul_between (lo := zero) (hi := twoPi) hfin htwoPi isFinite_zero htwoPi
    (by rw [signedUnits_zero, zero_mul]; exact mul_nonneg h0 h2pi.le)
    (by rw [mul_comm]; exact mul_le_mul_of_nonneg_left h1.le h2pi.le)
  obtain ⟨hs, hlo, hhi⟩ := hc.sinBounded (fmul p twoPi) harg ((fle_iff isFinite_zero harg).2 harg0)
    ((flt_iff harg (by decide)).2 (harg1.trans_lt hlimit))
  rw [fle_iff (by simp) hs, signedUnits_fneg_one] at hlo
  rw [fle_iff hs isFinite_one, signedUnits_one] at hhi
  exact ⟨hs, hlo, hhi⟩

/-- A rounded quotient is at most twice the exact one, because zero is no nearer than it. -/
theorem roundDiv_le_double {n d : Nat} (hd : 0 < d) (h : n < (2 ^ 2098 - 2 ^ 2044) * d) :
    d * unitsOfMag (roundDiv n d) ≤ 2 * n := by
  have hnear := (roundDiv_nearest hd h (m := 0) (by norm_num [infMag])).1
  rw [unitsOfMag_zero, Nat.mul_zero, Nat.cast_zero, sub_zero, abs_of_nonneg (Int.natCast_nonneg n)] at hnear
  have hup := (abs_le.1 hnear).1
  generalize d * unitsOfMag (roundDiv n d) = v at *
  omega

/-- A hundredth of a finite value is finite and, after its rounding too, at most a fiftieth of it. -/
theorem fdiv_hundred {x : F64} (hx : isFinite x = true) :
    isFinite (fdiv x hundred) = true ∧ 50 * units (fdiv x hundred) ≤ units x := by
  have hunits : units hundred = 100 * oneUnits := by decide +kernel
  have hd : 0 < 100 * oneUnits := Nat.mul_pos (by norm_num) oneUnits_pos
  have hbound : units x * oneUnits < (2 ^ 2098 - 2 ^ 2044) * (100 * oneUnits) := by
    have htop : 2 ^ 2098 * oneUnits < (2 ^ 2098 - 2 ^ 2044) * (100 * oneUnits) := by decide +kernel
    exact (Nat.mul_lt_mul_of_pos_right (units_lt_top hx) oneUnits_pos).trans htop
  have hdouble := roundDiv_le_double hd hbound
  obtain ⟨_, _, -, hfin, -⟩ := roundDiv_lt_infMag hd hbound
  rw [fdiv_finite hx (by decide) (by rw [hunits]; exact hd.ne'), hunits, units_packBits _ (hfin.trans infMag_lt)]
  refine ⟨isFinite_packBits _ hfin, ?_⟩
  clear hfin
  generalize unitsOfMag (roundDiv (units x * oneUnits) (100 * oneUnits)) = v at *
  have hscaled : 50 * v * (2 * oneUnits) ≤ units x * (2 * oneUnits) := by
    calc 50 * v * (2 * oneUnits) = 100 * oneUnits * v := by ring
      _ ≤ 2 * (units x * oneUnits) := hdouble
      _ = units x * (2 * oneUnits) := by ring
  exact Nat.le_of_mul_le_mul_right hscaled (Nat.mul_pos two_pos oneUnits_pos)

/-- R109: the carrier's frequency under vibrato is finite and above zero, for every accepted base frequency. -/
theorem vibratoFreq_pos {c : Config} (hc : c.Admissible) (hr : refRanges c) {lfo base : F64}
    (hl : inUnit lfo = true) (hb : validFreq c base = true) :
    isFinite (vibratoFreq c lfo base) = true ∧ 0 < signedUnits (vibratoFreq c lfo base) := by
  obtain ⟨hbfin, hb0⟩ := validFreq_pos hb
  have hbmax := validFreq_le_max hr hb
  obtain ⟨hsfin, hslo, hshi⟩ := sineStage_bounds hc hl
  obtain ⟨hmfin, hmlo, hmhi⟩ := fmul_between (lo := fneg base) (hi := base) hsfin hbfin (by simpa using hbfin) hbfin
    (by rw [signedUnits_fneg, neg_mul, mul_comm, ← neg_mul]; exact mul_le_mul_of_nonneg_right hslo hb0.le)
    (by rw [mul_comm (signedUnits base)]; exact mul_le_mul_of_nonneg_right hshi hb0.le)
  rw [signedUnits_fneg] at hmlo
  obtain ⟨hqfin, hunits⟩ := fdiv_hundred hmfin
  rw [← natAbs_signedUnits, ← natAbs_signedUnits] at hunits
  unfold vibratoFreq
  generalize fdiv (fmul (sineStage c lfo) base) hundred = q at *
  have hstep : signedUnits 0x4140000000000000#64 = 2 * signedUnits reference.freqMax := by decide +kernel
  have hunit : signedUnits 1#64 = 1 := by decide +kernel
  obtain ⟨hfin, hlo, -⟩ := fadd_between (lo := 1#64) (hi := 0x4140000000000000#64) hbfin hqfin (by decide) (by decide)
    (by rw [hunit]; omega) (by rw [hstep]; omega)
  rw [hunit] at hlo
  exact ⟨hfin, by linarith⟩

end Sys2Proof.Machine
end

section
/-! PROOF. The envelope's time along a sample (41_envelope.md R133, R134): the loop ends with the time of a timed
stage in [0, total] and a total above zero, so the value it emits is a level. -/

namespace Sys2Proof.Machine

/-! ### The sign of a rounded sum -/

/-- A sum below zero stays below zero when it is rounded. -/
theorem fadd_neg {a b lo : F64} (ha : isFinite a = true) (hb : isFinite b = true) (hlo : isFinite lo = true)
    (hlow : signedUnits lo ≤ signedUnits a + signedUnits b) (hneg : signedUnits a + signedUnits b < 0) :
    signedUnits (fadd a b) < 0 := by
  have hunit : signedUnits 0x8000000000000001#64 = -1 := by decide +kernel
  obtain ⟨-, -, hhi⟩ := fadd_between (hi := 0x8000000000000001#64) ha hb hlo (by decide) hlow (by rw [hunit]; omega)
  rw [hunit] at hhi
  omega

/-- A time at or above zero, less one sample: finite, not above it, and negative unless the time was above zero. -/
theorem fsub_period {tl sr : F64} (htl : isFinite tl = true) (h0 : 0 ≤ signedUnits tl)
    (hsr : validSr reference sr = true) :
    isFinite (fsub tl (fdiv one sr)) = true ∧ signedUnits (fsub tl (fdiv one sr)) ≤ signedUnits tl ∧
      (0 ≤ signedUnits (fsub tl (fdiv one sr)) → 0 < signedUnits tl) := by
  obtain ⟨hp, hp0, hp1⟩ := period_bounds hsr
  generalize fdiv one sr = p at *
  have hlow : signedUnits (fneg one) ≤ signedUnits tl - signedUnits p := by rw [signedUnits_fneg_one]; linarith
  obtain ⟨hfin, -, hle⟩ := fsub_between (lo := fneg one) (hi := tl) htl hp (by simp) htl hlow (by linarith)
  refine ⟨hfin, hle, fun hnonneg => ?_⟩
  by_contra hzero
  have hneg : signedUnits tl + signedUnits (fneg p) < 0 := by rw [signedUnits_fneg]; linarith
  have := fadd_neg htl (b := fneg p) (by simpa using hp) (lo := fneg one) (by simp)
    (by rw [signedUnits_fneg p]; linarith) hneg
  rw [← fsub_finite htl hp] at this
  omega

/-! ### The loop of R133 -/

/-- What the loop of R133 keeps once the time has been decremented: the time is finite and at most the stage's total,
and it is below zero where that total is zero. -/
structure Elapsed (r : Regs) : Prop where
  finite : isFinite r.envTimeLeft = true
  atMost : ∀ total, stageTotal r = some total → signedUnits r.envTimeLeft ≤ signedUnits total
  totalPos : ∀ total, stageTotal r = some total → 0 ≤ signedUnits r.envTimeLeft → 0 < signedUnits total

theorem stageTotal_eq_none_iff (r : Regs) : stageTotal r = none ↔ r.stage.timed = false := by
  unfold stageTotal
  cases r.stage <;> simp [Stage.timed]

/-- The total of a timed stage is one of the latched durations. -/
theorem stageTotal_valid {r : Regs} (hatk : validDuration r.envAttack = true) (hdec : validDuration r.envDecay = true)
    (hrel : validDuration r.envRelease = true) {total : F64} (ht : stageTotal r = some total) :
    validDuration total = true := by
  unfold stageTotal at ht
  cases hs : r.stage <;> rw [hs] at ht <;> cases ht
  · exact hatk
  · exact hdec
  · exact hrel

theorem VoiceInv.total_valid {c : Config} {r : Regs} (h : VoiceInv c r) {total : F64}
    (ht : stageTotal r = some total) : validDuration total = true :=
  stageTotal_valid h.envAttack h.envDecay h.envRelease ht

/-- The invariant's clause I5 in units. -/
theorem timeInStage_units {c : Config} {r : Regs} (h : VoiceInv c r) {total : F64} (ht : stageTotal r = some total) :
    0 ≤ signedUnits r.envTimeLeft ∧ signedUnits r.envTimeLeft ≤ signedUnits total := by
  have htotal := ((validDuration_iff total).1 (h.total_valid ht)).1
  obtain ⟨h0, h1⟩ := h.timeInStage total ht
  rw [fle_iff isFinite_zero h.timeFinite, signedUnits_zero] at h0
  rw [fle_iff h.timeFinite htotal] at h1
  exact ⟨h0, h1⟩

/-- Overdue, in units. -/
theorem overdue_iff {r : Regs} (hfin : isFinite r.envTimeLeft = true) :
    overdue r = true ↔ r.stage.timed = true ∧ signedUnits r.envTimeLeft < 0 := by
  unfold overdue
  rw [Bool.and_eq_true, flt_iff hfin isFinite_zero, signedUnits_zero]

theorem elapsed_of_decrement {c : Config} {r : Regs} (h : VoiceInv c r) {sr : F64} (hsr : validSr reference sr = true)
    (ht : r.stage.timed = true) : Elapsed { r with envTimeLeft := fsub r.envTimeLeft (fdiv one sr) } := by
  obtain ⟨total, htotal⟩ : ∃ total, stageTotal r = some total := by
    rw [← Option.ne_none_iff_exists', Ne, stageTotal_eq_none_iff, ht]
    simp
  obtain ⟨h0, h1⟩ := timeInStage_units h htotal
  obtain ⟨hfin, hle, hpos⟩ := fsub_period h.timeFinite h0 hsr
  have hsame : ∀ x, stageTotal { r with envTimeLeft := fsub r.envTimeLeft (fdiv one sr) } = some x → x = total := by
    intro x hx
    exact Option.some.inj (hx.symm.trans htotal)
  refine ⟨hfin, fun x hx => ?_, fun x hx hnonneg => ?_⟩
  · rw [hsame x hx]; exact hle.trans h1
  · rw [hsame x hx]; exact (hpos hnonneg).trans_le h1

/-- One pass of the loop: only ATTACK to DECAY enters a timed stage, with the overshoot taken from the decay (R134). -/
theorem elapsed_leaveStage {r : Regs} (hd : validDuration r.envDecay = true) (he : Elapsed r)
    (ho : overdue r = true) : Elapsed (leaveStage r) := by
  obtain ⟨hdfin, hd0⟩ := (validDuration_iff _).1 hd
  have hneg := ((overdue_iff he.finite).1 ho).2
  unfold leaveStage
  cases hs : r.stage
  case attack =>
    obtain ⟨hfin, -, hle⟩ := fadd_between (lo := r.envTimeLeft) (hi := r.envDecay) he.finite hdfin he.finite hdfin
      (by linarith) (by linarith)
    refine ⟨hfin, fun total ht => ?_, fun total ht hnonneg => ?_⟩
    · cases ht; exact hle
    · cases ht
      by_contra hzero
      have := fadd_neg he.finite hdfin he.finite (by linarith) (by linarith)
      exact absurd hnonneg (not_le.2 this)
  case decay => exact ⟨he.finite, nofun, nofun⟩
  case sustain => exact he
  case release => exact ⟨he.finite, nofun, nofun⟩
  case done => exact he

theorem elapsed_passStages {r : Regs} (hd : validDuration r.envDecay = true) (he : Elapsed r) (fuel : Nat) :
    Elapsed (passStages fuel r) := by
  induction fuel generalizing r with
  | zero => exact he
  | succ fuel ih =>
    unfold passStages
    split
    · next ho => exact ih (by simpa using hd) (elapsed_leaveStage hd he ho)
    · exact he

/-- After the whole loop of R133 the time is as `Elapsed` says, and no timed stage is overdue. -/
theorem elapsed_envAdvance {c : Config} {r : Regs} (h : VoiceInv c r) {sr : F64} (hsr : validSr reference sr = true) :
    Elapsed (envAdvance sr r) ∧ overdue (envAdvance sr r) = false := by
  unfold envAdvance
  split
  · next ht =>
    refine ⟨elapsed_passStages ?_ (elapsed_of_decrement h hsr ht) 2, passStages_two_not_overdue _⟩
    exact h.envDecay
  · next ht =>
    have hnone := (stageTotal_eq_none_iff r).2 (by simpa using ht)
    refine ⟨⟨h.timeFinite, by simp [hnone], by simp [hnone]⟩, ?_⟩
    unfold overdue
    simp [ht]

/-- A stage's value is a level, wherever its time is in range and its total above zero. -/
theorem stageValue_level {c : Config} {r : Regs} (h : VoiceInv c r)
    (hpos : ∀ total, stageTotal r = some total → 0 < signedUnits total) : validLevel (stageValue r) = true := by
  have hone : validLevel one = true := by decide
  have hzero : validLevel zero = true := by decide
  have hease : ∀ start target total, validLevel start = true → validLevel target = true →
      stageTotal r = some total → validLevel (ease start target r.envTimeLeft total) = true := by
    intro start target total hstart htarget ht
    obtain ⟨h0, h1⟩ := timeInStage_units h ht
    have htotal := ((validDuration_iff total).1 (h.total_valid ht)).1
    exact ease_level hstart htarget h.timeFinite htotal h0 h1 (hpos total ht)
  unfold stageValue
  cases hs : r.stage
  case attack => exact hease _ _ _ h.envAtkStart hone (by simp [stageTotal, hs])
  case decay => exact hease _ _ _ hone h.envSustain (by simp [stageTotal, hs])
  case sustain => exact h.envSustain
  case release => exact hease _ _ _ h.envRelStart hzero (by simp [stageTotal, hs])
  case done => exact hzero

end Sys2Proof.Machine
end

section
/-! PROOF. The voice's invariant (10_state.md R29), operation by operation and then command by command. -/

namespace Sys2Proof.Machine

open Sys2Proof.Claims

section Voice

variable {c : Config} {r : Regs}

/-! ### The operations -/

theorem voiceInv_oscNext (hc : c.Admissible) (hr : refRanges c) (h : VoiceInv c r) {sr : F64}
    (hsr : validSr reference sr = true) : VoiceInv c (oscNext c sr r).1 := by
  unfold oscNext
  cases r.oscSel.wave with
  | plain w =>
    obtain ⟨hfin, hpos⟩ := h.rampFreq
    have hpos' := (flt_zero_iff hfin).1 hpos
    exact { h with rampPhase := inUnit_rampNext h.rampPhase hfin hpos'.le hsr }
  | vibrato =>
    have hlfo : inUnit (rampNext r.lfoPhase five sr) = true :=
      inUnit_rampNext h.lfoPhase (by decide) (by decide +kernel) hsr
    obtain ⟨hfin, hpos⟩ := vibratoFreq_pos hc hr hlfo h.baseFreq
    exact { h with
      lfoPhase := hlfo
      rampFreq := ⟨hfin, (flt_zero_iff hfin).2 hpos⟩
      rampPhase := inUnit_rampNext h.rampPhase hfin hpos.le hsr }

theorem voiceInv_envAdvance (h : VoiceInv c r) {sr : F64} (hsr : validSr reference sr = true) :
    VoiceInv c (envAdvance sr r) := by
  obtain ⟨he, hno⟩ := elapsed_envAdvance h hsr
  have htime : ∀ total, stageTotal (envAdvance sr r) = some total →
      fle zero (envAdvance sr r).envTimeLeft = true ∧ fle (envAdvance sr r).envTimeLeft total = true := by
    intro total ht
    have hdur : validDuration total = true := stageTotal_valid (by simpa using h.envAttack)
      (by simpa using h.envDecay) (by simpa using h.envRelease) ht
    have hfin := ((validDuration_iff total).1 hdur).1
    have htimed : (envAdvance sr r).stage.timed = true := by
      rw [← Bool.not_eq_false, ← stageTotal_eq_none_iff, ht]
      exact Option.some_ne_none total
    rw [fle_iff isFinite_zero he.finite, signedUnits_zero, fle_iff he.finite hfin]
    refine ⟨?_, he.atMost total ht⟩
    by_contra hneg
    exact absurd ((overdue_iff he.finite).2 ⟨htimed, not_le.1 hneg⟩) (by simp [hno])
  exact {
    rampPhase := by simpa using h.rampPhase
    lfoPhase := by simpa using h.lfoPhase
    baseFreq := by simpa using h.baseFreq
    rampFreq := by simpa using h.rampFreq
    envAttack := by simpa using h.envAttack
    envDecay := by simpa using h.envDecay
    envRelease := by simpa using h.envRelease
    envSustain := by simpa using h.envSustain
    timeInStage := htime
    timeFinite := he.finite
    envValue := by simpa using h.envValue
    envAtkStart := by simpa using h.envAtkStart
    envRelStart := by simpa using h.envRelStart }

theorem voiceInv_envNext (h : VoiceInv c r) {sr : F64} (hsr : validSr reference sr = true) :
    VoiceInv c (envNext sr r).1 := by
  have hadv := voiceInv_envAdvance h hsr
  obtain ⟨he, -⟩ := elapsed_envAdvance h hsr
  have hpos : ∀ total, stageTotal (envAdvance sr r) = some total → 0 < signedUnits total :=
    fun total ht => he.totalPos total ht (timeInStage_units hadv ht).1
  exact { hadv with envValue := stageValue_level hadv hpos }

theorem voiceInv_voiceNext (hc : c.Admissible) (hr : refRanges c) (h : VoiceInv c r) {sr : F64}
    (hsr : validSr reference sr = true) : VoiceInv c (voiceNext c sr r).1 :=
  voiceInv_envNext (voiceInv_oscNext hc hr h hsr) hsr

theorem voiceInv_retarget (h : VoiceInv c r) {f : F64} (hf : validFreq c f = true) : VoiceInv c (retarget f r) := by
  obtain ⟨hfin, hpos⟩ := validFreq_pos hf
  unfold retarget
  cases r.oscSel.wave with
  | plain w =>
    exact { h with
      baseFreq := hf
      rampFreq := ⟨hfin, (flt_zero_iff hfin).2 hpos⟩ }
  | vibrato => exact { h with baseFreq := hf }

/-- The whole of a stage is left where it begins: I5 for a stage begun at its own total. -/
theorem timeInStage_of_whole {x : F64} (hx : validDuration x = true) : fle zero x = true ∧ fle x x = true := by
  unfold validDuration at hx
  rw [Bool.and_eq_true] at hx
  exact ⟨hx.2, (fle_iff hx.1 hx.1).2 le_rfl⟩

theorem voiceInv_beginRelease (h : VoiceInv c r) : VoiceInv c (beginRelease r) :=
  { h with
    timeInStage := fun total ht => by cases ht; exact timeInStage_of_whole h.envRelease
    timeFinite := ((validDuration_iff _).1 h.envRelease).1
    envRelStart := h.envValue }

theorem voiceInv_releaseVoice (h : VoiceInv c r) : VoiceInv c (releaseVoice r) := by
  unfold releaseVoice
  cases r.stage
  case attack => exact voiceInv_beginRelease h
  case decay => exact voiceInv_beginRelease h
  case sustain => exact voiceInv_beginRelease h
  case release => exact h
  case done => exact h

theorem validEnv_parts (h : validEnv r = true) :
    validDuration r.cfgAttack = true ∧ validDuration r.cfgDecay = true ∧ validDuration r.cfgRelease = true ∧
      validLevel r.cfgSustain = true := by
  unfold validEnv at h
  simp only [Bool.and_eq_true] at h
  obtain ⟨⟨⟨hatk, hdec⟩, hrel⟩, hsus⟩ := h
  exact ⟨hatk, hdec, hrel, hsus⟩

theorem voiceInv_construct {n : Note} {f : F64} (hf : validFreq c f = true) (hv : validEnv r = true) :
    VoiceInv c (beginAttack (construct n f (latchEnv r))) := by
  obtain ⟨hatk, hdec, hrel, hsus⟩ := validEnv_parts hv
  obtain ⟨hfin, hpos⟩ := validFreq_pos hf
  have hphase : inUnit zero = true := by decide
  have hlevel : validLevel zero = true := by decide
  exact {
    rampPhase := hphase
    lfoPhase := hphase
    baseFreq := hf
    rampFreq := ⟨hfin, (flt_zero_iff hfin).2 hpos⟩
    envAttack := hatk
    envDecay := hdec
    envRelease := hrel
    envSustain := hsus
    timeInStage := fun total ht => by cases ht; exact timeInStage_of_whole hatk
    timeFinite := ((validDuration_iff _).1 hatk).1
    envValue := hlevel
    envAtkStart := hlevel
    envRelStart := hlevel }

/-- Latching the envelope's parameters does not touch what retargeting the oscillator does. -/
theorem retarget_latchEnv (f : F64) (r : Regs) : retarget f (latchEnv r) = latchEnv (retarget f r) := by
  unfold retarget
  rw [latchEnv_oscSel]
  cases r.oscSel.wave <;> rfl

theorem validEnv_retarget (f : F64) (r : Regs) : validEnv (retarget f r) = validEnv r := by simp [validEnv]

theorem voiceInv_retrigger (h : VoiceInv c r) {f : F64} (hf : validFreq c f = true) (hv : validEnv r = true) :
    VoiceInv c (beginAttack (retrigger f (latchEnv r))) := by
  have hosc := voiceInv_retarget h hf
  obtain ⟨hatk, hdec, hrel, hsus⟩ := validEnv_parts ((validEnv_retarget f r).trans hv)
  unfold retrigger
  rw [retarget_latchEnv]
  exact { hosc with
    envAttack := hatk
    envDecay := hdec
    envRelease := hrel
    envSustain := hsus
    timeInStage := fun total ht => by cases ht; exact timeInStage_of_whole hatk
    timeFinite := ((validDuration_iff _).1 hatk).1
    envAtkStart := h.envValue }

/-! ### The commands: everything an accepted one can do -/

/-- SET_FREQ accepted (40_oscillator.md R112). -/
theorem setFreqEffect_accept {f : F64} {r' : Regs} {data : BitVec 64} (h : setFreqEffect c f r = .accept r' data) :
    r.live = true ∧ validFreq c f = true ∧ r' = retarget f r ∧ data = 0#64 := by
  unfold setFreqEffect at h
  split at h
  · cases h
  · next hl =>
    split at h
    · cases h
    · next hf =>
      cases h
      exact ⟨by simpa using hl, by simpa using hf, rfl, rfl⟩

/-- NOTE_ON accepted (42_voice.md R163, R164): a retrigger of a LIVE block, a construction on a FREE one. -/
theorem noteOnEffect_accept {n : Note} {v : Velocity} {r' : Regs} {data : BitVec 64}
    (h : noteOnEffect c n v r = .accept r' data) :
    validEnv r = true ∧ data = 0#64 ∧
      (r.live = true ∧ n = r.note ∧ r' = beginAttack (retrigger (c.mtof n) (latchEnv r)) ∨
        r.live = false ∧ r' = beginAttack (construct n (c.mtof n) (latchEnv r))) := by
  unfold noteOnEffect at h
  split at h
  · cases h
  · next hbusy =>
    split at h
    · cases h
    · next hv =>
      refine ⟨by simpa using hv, ?_⟩
      split at h
      · next hl =>
        cases h
        exact ⟨rfl, .inl ⟨hl, by simpa [hl] using hbusy, rfl⟩⟩
      · next hl =>
        cases h
        exact ⟨rfl, .inr ⟨by simpa using hl, rfl⟩⟩

/-- NOTE_OFF accepted (41_envelope.md R136). -/
theorem noteOffEffect_accept {n : Note} {r' : Regs} {data : BitVec 64} (h : noteOffEffect n r = .accept r' data) :
    r.live = true ∧ n = r.note ∧ r' = releaseVoice r ∧ data = 0#64 := by
  unfold noteOffEffect at h
  split at h
  · cases h
  · next hl =>
    split at h
    · cases h
    · next hn =>
      cases h
      exact ⟨by simpa using hl, by simpa using hn, rfl, rfl⟩

/-- TICK accepted (42_voice.md R165, R166): one frame of a LIVE block, silence of a FREE one. -/
theorem tickEffect_accept {sr : F64} {r' : Regs} {data : BitVec 64} (h : tickEffect c sr r = .accept r' data) :
    validSr c sr = true ∧
      (r.live = true ∧ r' = (voiceNext c sr r).1 ∧ data = (voiceNext c sr r).2 ∨
        r.live = false ∧ r' = r ∧ data = zero) := by
  unfold tickEffect at h
  split at h
  · cases h
  · next hs =>
    refine ⟨by simpa using hs, ?_⟩
    split at h
    · next hl =>
      cases h
      exact .inr ⟨by simpa using hl, rfl, rfl⟩
    · next hl =>
      cases h
      exact .inl ⟨by simpa using hl, rfl, rfl⟩

/-- PRUNE (R167) frees a LIVE block in DONE and does nothing else. -/
theorem pruneEffect_accept {r' : Regs} {data : BitVec 64} (h : pruneEffect r = .accept r' data) :
    data = 0#64 ∧ (r.live = true ∧ r.stage = .done ∧ r' = { r with live := false } ∨
      ¬ (r.live = true ∧ r.stage = .done) ∧ r' = r) := by
  unfold pruneEffect at h
  split at h
  · next hd =>
    cases h
    rw [Bool.and_eq_true, beq_iff_eq] at hd
    exact ⟨rfl, .inl ⟨hd.1, hd.2, rfl⟩⟩
  · next hd =>
    cases h
    rw [Bool.and_eq_true, beq_iff_eq] at hd
    exact ⟨rfl, .inr ⟨hd, rfl⟩⟩

/-- WR_OSCSEL accepted (43_registers.md R194). -/
theorem wrOscselEffect_accept {w k : BitVec 2} {r' : Regs} {data : BitVec 64}
    (h : wrOscselEffect w k r = .accept r' data) :
    ∃ carrier, BaseWave.ofCode k = some carrier ∧ data = 0#64 ∧
      r' = { r with cfgOscsel := { wave := Wave.ofCode w, carrier := carrier } } := by
  unfold wrOscselEffect at h
  split at h
  · cases h
  · next carrier hk =>
    cases h
    exact ⟨carrier, hk, rfl, rfl⟩

/-- READ accepted (R196). -/
theorem readEffect_accept {i : RegIndex} {r' : Regs} {data : BitVec 64} (h : readEffect c i r = .accept r' data) :
    ∃ name, RegName.ofIndex i = some name ∧ r' = r ∧ data = regValue c r name := by
  unfold readEffect at h
  split at h
  · cases h
  · next name hi =>
    cases h
    exact ⟨name, hi, rfl, rfl⟩

end Voice

/-- Settles O54. The NOTE_ON of a FREE block establishes the invariant; every other accepted command leaves a LIVE
block only where it found one, and keeps the invariant it found; the staged registers and the sticky error are not in
it. -/
theorem everyAdmissibleBlockKeepsTheVoiceInvariant : Obligations.EveryAdmissibleBlockKeepsTheVoiceInvariant := by
  intro c i r r' data hc hr hinv he hlive
  cases i with
  | nop => cases he; exact hinv hlive
  | setFreq f =>
    obtain ⟨hl, hf, rfl, -⟩ := setFreqEffect_accept he
    exact voiceInv_retarget (hinv hl) hf
  | noteOn n v =>
    obtain ⟨hv, -, ⟨hl, -, rfl⟩ | ⟨-, rfl⟩⟩ := noteOnEffect_accept (v := v) he
    · exact voiceInv_retrigger (hinv hl) (hc.mtofValid n) hv
    · exact voiceInv_construct (hc.mtofValid n) hv
  | noteOff n =>
    obtain ⟨hl, -, rfl, -⟩ := noteOffEffect_accept he
    exact voiceInv_releaseVoice (hinv hl)
  | tick sr =>
    obtain ⟨hsr, ⟨hl, rfl, -⟩ | ⟨-, rfl, -⟩⟩ := tickEffect_accept he
    · exact voiceInv_voiceNext hc hr (hinv hl) (by rwa [validSr_of_refRanges hr] at hsr)
    · exact hinv hlive
  | prune =>
    obtain ⟨-, ⟨-, -, rfl⟩ | ⟨-, rfl⟩⟩ := pruneEffect_accept he
    · cases hlive
    · exact hinv hlive
  | wrAttack x => cases he; exact { hinv hlive with }
  | wrDecay x => cases he; exact { hinv hlive with }
  | wrSustain x => cases he; exact { hinv hlive with }
  | wrRelease x => cases he; exact { hinv hlive with }
  | wrOscsel w k =>
    obtain ⟨_, -, -, rfl⟩ := wrOscselEffect_accept he
    exact { hinv hlive with }
  | read i =>
    obtain ⟨_, -, rfl, -⟩ := readEffect_accept he
    exact hinv hlive
  | clrErr => cases he; exact { hinv hlive with }

end Sys2Proof.Machine
end

section
/-! PROOF. The four operations of 00_scope.md R10 rounded to nearest even, from what `roundDiv` is known to answer
(Laws/Nearest.lean). -/

namespace Sys2Proof.Machine

open Sys2Proof.Claims

/-- The number with the given sign and magnitude. -/
def withSign (s : Bool) (n : Nat) : Int := if s then -(n : Int) else n

theorem natAbs_withSign (s : Bool) (n : Nat) : (withSign s n).natAbs = n := by
  unfold withSign; split <;> simp

theorem natAbs_withSign_sub (s : Bool) (n m : Nat) : (withSign s n - withSign s m).natAbs = ((n : Int) - m).natAbs := by
  unfold withSign; split <;> omega

theorem natAbs_withSign_sub_opposite {s t : Bool} (h : t ≠ s) (n m : Nat) :
    (withSign s n - withSign t m).natAbs = n + m := by
  unfold withSign
  cases s <;> cases t <;> simp at h ⊢ <;> omega

theorem mul_withSign (d : Nat) (s : Bool) (n : Nat) : (d : Int) * withSign s n = withSign s (d * n) := by
  unfold withSign; split <;> push_cast <;> ring

theorem signedUnits_eq_withSign (x : F64) : signedUnits x = withSign (signBit x) (units x) := rfl

/-- The distance of a signed quotient from a finite value is that of the quotient from a magnitude: the value's own
where the signs agree, and zero's, or more, where they differ. -/
theorem exists_mag_distance (s : Bool) (n d : Nat) {z : F64} (hz : isFinite z = true) :
    ∃ m, m < infMag ∧ ((n : Int) - (d * unitsOfMag m : Nat)).natAbs ≤ (withSign s n - d * signedUnits z).natAbs ∧
      (((n : Int) - (d * unitsOfMag m : Nat)).natAbs = (withSign s n - d * signedUnits z).natAbs → 0 < d →
        signedUnits z = withSign s (unitsOfMag m)) := by
  rw [signedUnits_eq_withSign, mul_withSign]
  by_cases hs : signBit z = s
  · refine ⟨magBits z, (isFinite_iff z).1 hz, ?_, fun _ _ => by rw [hs]; rfl⟩
    rw [hs, natAbs_withSign_sub]
    rfl
  · refine ⟨0, by norm_num [infMag], ?_⟩
    rw [natAbs_withSign_sub_opposite hs, unitsOfMag_zero, Nat.mul_zero, Nat.cast_zero, sub_zero, Int.natAbs_natCast]
    refine ⟨Nat.le_add_right _ _, fun heq hd => ?_⟩
    have hzero : units z = 0 := by
      have : d * units z = 0 := by omega
      exact (Nat.mul_eq_zero.1 this).resolve_left hd.ne'
    rw [hzero]
    unfold withSign
    split <;> split <;> rfl

/-- The one rounding of every operation: a sign and a rounded quotient are the signed quotient rounded to nearest
even. -/
theorem nearestEven_roundDiv (s : Bool) (n : Nat) {d : Nat} (hd : 0 < d) :
    NearestEven (withSign s n) d (packBits s (roundDiv n d)) := by
  have hbits := (roundDiv_le_infMag n d).trans_lt infMag_lt
  unfold NearestEven
  rw [natAbs_withSign, signBit_packBits s hbits, magBits_packBits s hbits]
  constructor
  · intro hlt
    obtain ⟨_, _, -, hfin, -⟩ := roundDiv_lt_infMag hd hlt
    have hvalue : signedUnits (packBits s (roundDiv n d)) = withSign s (unitsOfMag (roundDiv n d)) :=
      signedUnits_packBits s hbits
    refine ⟨isFinite_packBits s hfin, fun z hz => ?_⟩
    obtain ⟨m, hm, hle, heq⟩ := exists_mag_distance s n d hz
    obtain ⟨hnear, htie⟩ := roundDiv_nearest hd hlt hm
    rw [Int.abs_eq_natAbs, Int.abs_eq_natAbs, Int.ofNat_le] at hnear
    rw [Int.abs_eq_natAbs, Int.abs_eq_natAbs, Int.natCast_inj] at htie
    rw [hvalue, mul_withSign, natAbs_withSign_sub]
    refine ⟨hnear.trans hle, fun hsame => ?_⟩
    have hmid := le_antisymm hnear (hle.trans hsame.ge)
    refine (htie hmid).imp (fun hmr => ?_) id
    rw [heq (hmid.symm.trans hsame) hd, hmr]
  · intro hge
    rw [roundDiv_overflow hd hge]
    refine ⟨?_, ?_⟩
    · unfold isInf; rw [magBits_packBits s infMag_lt]; exact beq_self_eq_true _
    · have hn : 0 < n := lt_of_lt_of_le (Nat.mul_pos (by decide +kernel) hd) hge
      clear hge hbits
      unfold withSign
      cases s
      · simp
      · simpa using hn

/-! ### Addition and subtraction -/

theorem withSign_natAbs (z : Int) : withSign (decide (z < 0)) z.natAbs = z := by
  unfold withSign; simp only [decide_eq_true_eq]; split <;> omega

theorem zeroOf_eq_roundDiv (s : Bool) : zeroOf s = packBits s (roundDiv 0 1) := by
  have : roundDiv 0 1 = 0 := by decide +kernel
  rw [this]; rfl

theorem nearestEven_fadd {a b : F64} (ha : isFinite a = true) (hb : isFinite b = true) :
    NearestEven (signedUnits a + signedUnits b) 1 (fadd a b) := by
  rw [fadd_finite ha hb]
  split
  · next hz =>
    have := nearestEven_roundDiv (signBit a && signBit b) 0 one_pos
    rw [zeroOf_eq_roundDiv, hz]
    rwa [show withSign (signBit a && signBit b) 0 = 0 by unfold withSign; simp] at this
  · have := nearestEven_roundDiv (decide (signedUnits a + signedUnits b < 0)) (signedUnits a + signedUnits b).natAbs
      one_pos
    rwa [withSign_natAbs] at this

theorem signBit_fadd_of_zero {a b : F64} (ha : isFinite a = true) (hb : isFinite b = true)
    (hz : signedUnits a + signedUnits b = 0) : signBit (fadd a b) = (signBit a && signBit b) := by
  rw [fadd_finite ha hb, if_pos hz]
  exact signBit_packBits _ (by norm_num)

/-- Settles O46. A difference is the sum with the subtrahend's sign changed. -/
theorem addAndSubtractRoundToNearestEven : Obligations.AddAndSubtractRoundToNearestEven := by
  intro a b ha hb
  have hnb : isFinite (fneg b) = true := by simpa using hb
  rw [fsub_finite ha hb, sub_eq_add_neg, ← signedUnits_fneg]
  refine ⟨nearestEven_fadd ha hb, nearestEven_fadd ha hnb, fun hz => ?_, fun heq => ?_⟩
  · rw [signBit_fadd_of_zero ha hb hz, Bool.and_eq_true]
  · have hz : signedUnits a + signedUnits (fneg b) = 0 := by rw [signedUnits_fneg]; omega
    rw [signBit_fadd_of_zero ha hnb hz, Bool.and_eq_true, signBit_fneg, Bool.not_eq_true']

/-! ### Multiplication and division -/

theorem signBit_roundDiv (s : Bool) (n d : Nat) : signBit (packBits s (roundDiv n d)) = s :=
  signBit_packBits s ((roundDiv_le_infMag n d).trans_lt infMag_lt)

theorem nearestEven_fmul {a b : F64} (ha : isFinite a = true) (hb : isFinite b = true) :
    NearestEven (signedUnits a * signedUnits b) oneUnits (fmul a b) := by
  rw [fmul_finite ha hb, ← signed_mul]
  exact nearestEven_roundDiv _ _ oneUnits_pos

/-- The quotient's numerator, with the sign of the divisor taken into it. -/
theorem withSign_div (a b : F64) (hb : units b ≠ 0) :
    withSign (signBit a != signBit b) (units a * oneUnits) =
      signedUnits a * oneUnits * (signedUnits b).sign := by
  have hpos : (0 : Int) < units b := by omega
  unfold withSign signedUnits
  rw [Nat.cast_mul]
  generalize (oneUnits : Int) = scale
  cases signBit a <;> cases signBit b <;> simp [Int.sign_eq_one_of_pos hpos]

theorem nearestEven_fdiv {a b : F64} (ha : isFinite a = true) (hb : isFinite b = true) (h0 : units b ≠ 0) :
    NearestEven (signedUnits a * oneUnits * (signedUnits b).sign) (signedUnits b).natAbs (fdiv a b) := by
  rw [fdiv_finite ha hb h0, ← withSign_div a b h0, natAbs_signedUnits]
  exact nearestEven_roundDiv _ _ (Nat.pos_of_ne_zero h0)

theorem fdiv_by_zero {a b : F64} (ha : isFinite a = true) (hb : isFinite b = true) (hb0 : units b = 0)
    (ha0 : units a ≠ 0) : fdiv a b = infOf (signBit a != signBit b) := by
  unfold fdiv
  simp [isNan_of_isFinite ha, isNan_of_isFinite hb, isInf_of_isFinite ha, isInf_of_isFinite hb, hb0, ha0]

theorem isInf_infOf (s : Bool) : isInf (infOf s) = true := by
  unfold isInf infOf; rw [magBits_packBits s infMag_lt]; exact beq_self_eq_true _

theorem signedUnits_ne_zero_iff (x : F64) : signedUnits x ≠ 0 ↔ units x ≠ 0 := by
  rw [← natAbs_signedUnits, Ne, Ne, Int.natAbs_eq_zero]

/-- Settles O47. Products and quotients of finite values are one `roundDiv` each, with the exclusive or of the signs. -/
theorem multiplyAndDivideRoundToNearestEven : Obligations.MultiplyAndDivideRoundToNearestEven := by
  intro a b ha hb
  refine ⟨nearestEven_fmul ha hb, ?_, fun hb0 => ?_, fun hb0 ha0 => ?_⟩
  · rw [fmul_finite ha hb, signBit_roundDiv, bne_iff_ne]
  · rw [signedUnits_ne_zero_iff] at hb0
    refine ⟨nearestEven_fdiv ha hb hb0, ?_⟩
    rw [fdiv_finite ha hb hb0, signBit_roundDiv, bne_iff_ne]
  · rw [signedUnits_ne_zero_iff] at ha0
    rw [fdiv_by_zero ha hb (by rw [← natAbs_signedUnits, hb0]; rfl) ha0]
    exact ⟨isInf_infOf _, by rw [infOf, signBit_packBits _ infMag_lt, bne_iff_ne]⟩

end Sys2Proof.Machine
end

section
/-! PROOF. The square root (00_scope.md R10) against the real one, from `sqrtMag_nearest` (Laws/Root.lean). -/

namespace Sys2Proof.Machine

/-- Twice `S` lies on `R`'s side of every sum of `R` and a representable magnitude; then `R` is nearest to `S`, among
the magnitudes and also among the values below zero. -/
theorem nearest_of_sum {R V S : ℝ} (habove : R < V → 2 * S ≤ R + V) (hbelow : V < R → R + V ≤ 2 * S) :
    |R - S| ≤ |V - S| := by
  rcases lt_trichotomy R V with h | h | h
  · have := habove h
    rw [abs_of_nonneg (by linarith : 0 ≤ V - S)]
    exact abs_le.2 ⟨by linarith, by linarith⟩
  · rw [h]
  · have := hbelow h
    rw [abs_of_nonpos (by linarith : V - S ≤ 0)]
    exact abs_le.2 ⟨by linarith, by linarith⟩

/-- `nearest_of_sum` at a square root, its hypotheses said without reals. -/
theorem nearest_root {n R V : Nat} (habove : R < V → 4 * n ≤ (R + V) * (R + V))
    (hbelow : V < R → (R + V) * (R + V) ≤ 4 * n) : |(R : ℝ) - √n| ≤ |(V : ℝ) - √n| := by
  apply nearest_of_sum <;> intro hlt
  · have hsq : (4 * n : ℝ) ≤ (R + V) * (R + V) := by exact_mod_cast habove (by exact_mod_cast hlt)
    have hroot : √(n : ℝ) ≤ ((R : ℝ) + V) / 2 := Real.sqrt_le_iff.2 ⟨by positivity, by linarith⟩
    linarith
  · have hsq : ((R + V) * (R + V) : ℝ) ≤ 4 * n := by exact_mod_cast hbelow (by exact_mod_cast hlt)
    have hroot : ((R : ℝ) + V) / 2 ≤ √(n : ℝ) := Real.le_sqrt_of_sq_le (by linarith)
    linarith

/-- The rounded root of `u` units is nearest to the real root among the finite magnitudes. -/
theorem sqrtMag_nearest_real {u m : Nat} (h0 : 0 < u) (hu : u < 2 ^ 2098) (hm : m < infMag) :
    |(unitsOfMag (sqrtMag u) : ℝ) - √((u : ℝ) * oneUnits)| ≤ |(unitsOfMag m : ℝ) - √((u : ℝ) * oneUnits)| := by
  obtain ⟨habove, hbelow⟩ := (sqrtMag_nearest h0 hu).2 m hm
  rw [← Nat.cast_mul]
  exact nearest_root habove hbelow

/-- Every finite value is as far from a point at or above zero as some finite magnitude, or further. -/
theorem exists_mag_nearer {z : F64} (hz : isFinite z = true) {S : ℝ} (hS : 0 ≤ S) :
    ∃ m, m < infMag ∧ |(unitsOfMag m : ℝ) - S| ≤ |(signedUnits z : ℝ) - S| := by
  cases hs : signBit z
  · refine ⟨magBits z, (isFinite_iff z).1 hz, ?_⟩
    rw [signedUnits_of_signBit hs, Int.cast_natCast]
    exact le_rfl
  · refine ⟨0, by norm_num [infMag], ?_⟩
    have hneg : (signedUnits z : ℝ) ≤ 0 := by
      rw [signedUnits_eq_withSign, hs]
      exact_mod_cast neg_nonpos.2 (Int.natCast_nonneg (units z))
    rw [unitsOfMag_zero, Nat.cast_zero, abs_of_nonpos (by linarith), abs_of_nonpos (by linarith)]
    linarith

/-- Settles O48. A zero is its own root; any other value's root is nearest among the magnitudes, so among all values. -/
theorem squareRootIsCorrectlyRounded : Obligations.SquareRootIsCorrectlyRounded := by
  refine ⟨fsqrt_zero_value (by decide) (by decide), fun x hx hs => ?_⟩
  by_cases h0 : units x = 0
  · have hroot : √((units x : ℝ) * oneUnits) = 0 := by rw [h0, Nat.cast_zero, zero_mul, Real.sqrt_zero]
    have hvalue : signedUnits x = 0 := by rw [signedUnits_of_signBit hs, h0]; rfl
    rw [fsqrt_zero_value hx h0, hroot, hvalue]
    exact ⟨hx, hs, fun z _ => by simp⟩
  · have hpos := Nat.pos_of_ne_zero h0
    have hfin := (sqrtMag_nearest hpos (units_lt_top hx)).1
    have hbits := hfin.trans infMag_lt
    rw [fsqrt_finite hx hs h0]
    refine ⟨isFinite_packBits _ hfin, signBit_packBits _ hbits, fun z hz => ?_⟩
    obtain ⟨m, hm, hle⟩ := exists_mag_nearer hz (Real.sqrt_nonneg ((units x : ℝ) * oneUnits))
    rw [signedUnits_packBits _ hbits]
    exact (sqrtMag_nearest_real hpos (units_lt_top hx) hm).trans hle

end Sys2Proof.Machine
end

section
/-! PROOF. The reference sine (00_scope.md R8; log entry 4): one rounding of a sum that is within 2^-304 of its argument
of the real sine, and 1.0 where the rounding would pass it. -/

namespace Sys2Proof.Machine

open Sys2Proof.Claims

/-- The numerator of the series' exact sum at a signed argument; the denominator is `(sineSum (units x)).2`. -/
def signedSineSum (x : F64) : Int :=
  withSign (signBit x != decide ((sineSum (units x)).1 < 0)) (sineSum (units x)).1.natAbs

theorem withSign_bne (s t : Bool) (n : Nat) : withSign (s != t) n = if s then -withSign t n else withSign t n := by
  unfold withSign
  cases s <;> cases t <;> simp

theorem signedSineSum_eq (x : F64) :
    signedSineSum x = if signBit x then -(sineSum (units x)).1 else (sineSum (units x)).1 := by
  unfold signedSineSum
  rw [withSign_bne, withSign_natAbs]

theorem sineSum_den_pos (u : Nat) : 0 < (sineSum u).2 := sineTail_pos u sineTerms 1 one_pos

/-- The real sine of the real value of `x`, in units. -/
noncomputable def realSine (x : F64) : ℝ := oneUnits * Real.sin ((signedUnits x : ℝ) / oneUnits)

theorem oneUnits_pos_real : (0 : ℝ) < oneUnits := Nat.cast_pos.2 oneUnits_pos

theorem abs_realSine_le (x : F64) : |realSine x| ≤ oneUnits := by
  unfold realSine
  rw [abs_mul, abs_of_pos oneUnits_pos_real]
  exact mul_le_of_le_one_right oneUnits_pos_real.le (Real.abs_sin_le_one _)

/-- `sineSum_near` in units and for both signs: sum and sine are both odd. -/
theorem signedSineSum_near {x : F64} (h : units x < 8 * oneUnits) :
    |(signedSineSum x : ℝ) / (sineSum (units x)).2 - realSine x| ≤ (units x : ℝ) / 2 ^ 304 := by
  have hnear := sineSum_near (units x) h
  rw [signedSineSum_eq, realSine, signedUnits]
  generalize sineSum (units x) = p at *
  generalize (2 : ℝ) ^ 304 = P at *
  have hone := oneUnits_pos_real
  generalize (oneUnits : ℝ) = scale at *
  have hscaled : |(p.1 : ℝ) / p.2 - scale * Real.sin ((units x : ℝ) / scale)| ≤ (units x : ℝ) / P := by
    have hmul := mul_le_mul_of_nonneg_left hnear hone.le
    rw [← abs_of_pos hone, ← abs_mul, abs_of_pos hone, mul_sub, mul_div_cancel₀ _ hone.ne'] at hmul
    refine hmul.trans_eq ?_
    field_simp
  cases signBit x
  · simpa using hscaled
  · simp only [if_true, Int.cast_neg, Int.cast_natCast, neg_div, Real.sin_neg, mul_neg]
    rwa [← neg_sub', abs_neg]

/-- A value rounded to nearest is nearest as a real, too. -/
theorem nearestEven_real {num : Int} {den : Nat} {r z : F64} (h : NearestEven num den r) (hd : 0 < den)
    (hlt : num.natAbs < (2 ^ 2098 - 2 ^ 2044) * den) (hz : isFinite z = true) :
    |(num : ℝ) / den - signedUnits r| ≤ |(num : ℝ) / den - signedUnits z| := by
  have hle := ((h.1 hlt).2 z hz).1
  clear h hlt
  have hd' : (0 : ℝ) < den := Nat.cast_pos.2 hd
  have hscale : ∀ v : Int, |(num : ℝ) / den - v| = ((num - den * v).natAbs : ℝ) / den := by
    intro v
    rw [Nat.cast_natAbs, Int.cast_abs, ← abs_of_pos hd', ← abs_div, abs_of_pos hd']
    congr 1
    push_cast
    field_simp
  rw [hscale, hscale]
  gcongr

/-- Where the sum is at most 1.0, the reference sine is the sum rounded to nearest. -/
theorem sineRef_eq_round {x : F64} (hx : isFinite x = true) (h8 : units x < 8 * oneUnits)
    (h1 : (sineSum (units x)).1.natAbs ≤ oneUnits * (sineSum (units x)).2) :
    NearestEven (signedSineSum x) (sineSum (units x)).2 (sineRef x) := by
  have hd := sineSum_den_pos (units x)
  have hle : roundDiv (sineSum (units x)).1.natAbs (sineSum (units x)).2 ≤ magBits one :=
    roundDiv_le hd (by decide) (by rw [unitsOfMag_one]; exact h1)
  unfold sineRef
  rw [if_pos ⟨hx, h8⟩]
  simp only [Nat.min_eq_left hle]
  exact nearestEven_roundDiv _ _ hd

/-- Where the sum is above 1.0, the reference sine is 1.0 with the sum's sign. -/
theorem sineRef_eq_one {x : F64} (hx : isFinite x = true) (h8 : units x < 8 * oneUnits)
    (h1 : oneUnits * (sineSum (units x)).2 ≤ (sineSum (units x)).1.natAbs) :
    signedUnits (sineRef x) = withSign (signBit x != decide ((sineSum (units x)).1 < 0)) oneUnits := by
  have hle : magBits one ≤ roundDiv (sineSum (units x)).1.natAbs (sineSum (units x)).2 :=
    le_roundDiv (sineSum_den_pos (units x)) (by decide) (by rw [unitsOfMag_one]; exact h1)
  unfold sineRef
  rw [if_pos ⟨hx, h8⟩]
  simp only [Nat.min_eq_right hle]
  rw [signedUnits_packBits _ (magBits_lt one), unitsOfMag_one]
  rfl

/-- A sine in [-1, 1] whose approximation is above 1.0 in magnitude is as near to 1.0 of that sign as to it. -/
theorem near_one_of_above {s : Bool} {n : Nat} {d one S δ : ℝ} (hd : 0 < d) (hS : |S| ≤ one)
    (habove : one * d ≤ n) (hnear : |(withSign s n : ℝ) / d - S| ≤ δ) :
    |(if s then -one else one) - S| ≤ δ := by
  have habove' : one ≤ n / d := by rwa [le_div_iff₀ hd]
  obtain ⟨hS1, hS2⟩ := abs_le.1 hS
  obtain ⟨hn1, hn2⟩ := abs_le.1 hnear
  unfold withSign at hn1 hn2
  cases s
  · simp only [Bool.false_eq_true, if_false, Int.cast_natCast] at hn1 hn2 ⊢
    exact abs_le.2 ⟨by linarith, by linarith⟩
  · simp only [if_true, Int.cast_neg, Int.cast_natCast, neg_div] at hn1 hn2 ⊢
    exact abs_le.2 ⟨by linarith, by linarith⟩

/-- The reference sine is nearest to the exact sum, or 1.0 in magnitude and within the series' error of the real sine;
so it is nearest to the real sine up to twice that error. -/
theorem sineRef_error {x z : F64} (hx : isFinite x = true) (h8 : units x < 8 * oneUnits) (hz : isFinite z = true) :
    |(signedUnits (sineRef x) : ℝ) - realSine x| ≤
      |(signedUnits z : ℝ) - realSine x| + 2 * ((units x : ℝ) / 2 ^ 304) := by
  have hnear := signedSineSum_near h8
  have hd := sineSum_den_pos (units x)
  have hpos : 0 ≤ (units x : ℝ) / 2 ^ 304 := div_nonneg (Nat.cast_nonneg _) (pow_nonneg zero_le_two _)
  generalize (units x : ℝ) / 2 ^ 304 = δ at *
  rcases le_total (sineSum (units x)).1.natAbs (oneUnits * (sineSum (units x)).2) with h1 | h1
  · have hlt : (signedSineSum x).natAbs < (2 ^ 2098 - 2 ^ 2044) * (sineSum (units x)).2 := by
      rw [signedSineSum, natAbs_withSign]
      exact h1.trans_lt (Nat.mul_lt_mul_of_pos_right (by decide +kernel) hd)
    have hround := nearestEven_real (sineRef_eq_round hx h8 h1) hd hlt hz
    generalize (signedSineSum x : ℝ) / (sineSum (units x)).2 = E at *
    have hleft := abs_sub_le (signedUnits (sineRef x) : ℝ) E (realSine x)
    have hright := abs_sub_le (signedUnits z : ℝ) (realSine x) E
    rw [abs_sub_comm _ E] at hleft hright
    rw [abs_sub_comm (realSine x) E] at hright
    linarith
  · have hclose := near_one_of_above (s := signBit x != decide ((sineSum (units x)).1 < 0))
      (Nat.cast_pos.2 hd) (abs_realSine_le x) (by exact_mod_cast h1) hnear
    rw [sineRef_eq_one hx h8 h1]
    have habs := abs_nonneg ((signedUnits z : ℝ) - realSine x)
    unfold withSign
    push_cast
    linarith

/-- Settles O49. The series' error counts twice, in the distance from the reference sine and in that from `z`. -/
theorem referenceSineIsNearestToTheRealSine : Obligations.ReferenceSineIsNearestToTheRealSine := by
  intro x z hx h8 hz
  have hdouble : (units x : ℝ) / 2 ^ 303 = 2 * ((units x : ℝ) / 2 ^ 304) := by
    rw [show (2 : ℝ) ^ 304 = 2 ^ 303 * 2 from pow_succ 2 303]
    generalize (2 : ℝ) ^ 303 = P
    ring
  rw [hdouble]
  exact sineRef_error hx h8 hz

end Sys2Proof.Machine
end

section
/-! PROOF. The reference configuration (00_scope.md R7 to R9): its note table and its sine are admissible. -/

namespace Sys2Proof.Machine

open Sys2Proof.Claims

/-! ### The note table -/

/-- M4 for the reference table. -/
theorem mtofRef_valid : ∀ n : Note, validFreq reference (mtofRef n) = true := by decide

/-- The table's neighbours increase, so all its entries do. -/
theorem mtofTable_increasing : (mtofTable.map orderKey).Pairwise (· < ·) := by
  rw [← List.isChain_iff_pairwise]
  decide +kernel

/-- M3 for the reference table. -/
theorem mtofRef_increasing (m n : Note) (h : m.toNat < n.toNat) : flt (mtofRef m) (mtofRef n) = true := by
  have hfin (k : Note) : isFinite (mtofRef k) = true := (validFreq_pos (mtofRef_valid k)).1
  have hlen : mtofTable.length = 128 := rfl
  have hentry (k : Note) : mtofRef k = mtofTable[k.toNat]'(hlen ▸ k.isLt) := List.getD_eq_getElem _ _ _
  have hlt := List.pairwise_iff_getElem.1 mtofTable_increasing m.toNat n.toNat
    (by rw [List.length_map]; exact hlen ▸ m.isLt) (by rw [List.length_map]; exact hlen ▸ n.isLt) h
  rw [List.getElem_map, List.getElem_map, ← hentry, ← hentry] at hlt
  simp [flt, isNan_of_isFinite (hfin m), isNan_of_isFinite (hfin n), hlt]

/-- Settles O51, by the table's entries and its neighbours. -/
theorem referenceNoteTable : Obligations.ReferenceNoteTable := by
  refine ⟨rfl, rfl, mtofRef_increasing, fun n => ?_⟩
  have h := mtofRef_valid n
  unfold validFreq at h
  simp only [Bool.and_eq_true] at h
  obtain ⟨⟨hfin, hpos⟩, hmax⟩ := h
  exact ⟨hfin, hpos, hmax⟩

/-! ### The sine -/

/-- The reference sine is clamped to [-1, 1], so it is finite and in that range below 8.0. -/
theorem sineRef_bounded {x : F64} (hx : isFinite x = true) (h8 : units x < 8 * oneUnits) :
    isFinite (sineRef x) = true ∧ fle (fneg one) (sineRef x) = true ∧ fle (sineRef x) one = true := by
  unfold sineRef
  rw [if_pos ⟨hx, h8⟩]
  simp only
  generalize (signBit x != decide ((sineSum (units x)).1 < 0)) = s
  generalize roundDiv (sineSum (units x)).1.natAbs (sineSum (units x)).2 = m
  have hle : min m (magBits one) ≤ magBits one := Nat.min_le_right _ _
  generalize min m (magBits one) = k at *
  have hone : magBits one < infMag := by decide
  have hk := hle.trans_lt hone
  have hfin := isFinite_packBits s hk
  have hunits : unitsOfMag k ≤ oneUnits := by rw [← unitsOfMag_one]; exact unitsOfMag_le hone hle
  rw [fle_iff (by simp) hfin, fle_iff hfin isFinite_one, signedUnits_fneg_one, signedUnits_one,
    signedUnits_packBits s (hk.trans infMag_lt)]
  generalize oneUnits = u at *
  refine ⟨hfin, ?_, ?_⟩ <;> split <;> omega

/-- Settles O50. S1 holds below 8.0, so below 6.3; M2 holds with no tolerance. -/
theorem referenceConfigurationIsAdmissible : Obligations.ReferenceConfigurationIsAdmissible where
  gainFinite := by decide
  sinBounded x hx h0 hlt := by
    have hlimit : signedUnits 0x4019333333333333#64 < (8 * oneUnits : Nat) := by decide +kernel
    rw [fle_iff isFinite_zero hx, signedUnits_zero] at h0
    rw [flt_iff hx (by decide)] at hlt
    refine sineRef_bounded hx ?_
    rw [← natAbs_signedUnits]
    omega
  sinZero := by decide +kernel
  mtofConcertA := rfl
  mtofOctave := by
    rw [show reference.mtof 57#7 = 0x406B800000000000#64 from rfl, sub_self]
    exact Nat.zero_le _
  mtofIncreasing := mtofRef_increasing
  mtofValid := mtofRef_valid

end Sys2Proof.Machine
end

section
/-! PROOF. A bank of blocks (00_scope.md R6, 60_exceptions.md R232; log entry 10). -/

namespace Sys2Proof.Machine

theorem issue_slots (b : Bank) (k j : Nat) (w : Command) :
    (b.issue k w).slots[j]? = if k = j then (b.slots[j]?).map (fun s => stepState (s.present w)) else b.slots[j]? := by
  unfold Bank.issue
  rw [List.getElem?_modify]
  split <;> simp

theorem stepState_of_step {s t : State} (h : step s = .next t) : stepState s = t := by
  unfold stepState; rw [h]

/-- Settles O45. -/
theorem instancesShareNothing : Obligations.InstancesShareNothing := by
  intro b k j w
  refine ⟨fun hne => ?_, fun s t hs ht => ?_⟩
  · rw [issue_slots, if_neg (Ne.symm hne)]
  · rw [issue_slots, if_pos rfl, hs, Option.map_some, stepState_of_step (s := s.present w) ht]

end Sys2Proof.Machine
end

section
/-! PROOF. What every step keeps of the registers (10_state.md R24, R29): the consistency of the sticky error and the
voice's invariant, each from what reset, a recorded error and an accepted command do to it. -/

namespace Sys2Proof.Machine

/-- The induction step of every invariant of the registers: reset establishes it, a recorded error keeps it, and so
does every accepted command. -/
theorem step_keeps {P : Regs → Prop} (hreset : P Regs.reset) (herror : ∀ code r, P r → P (recordError code r))
    (haccept : ∀ i r r' data, P r → commandEffect reference i r = .accept r' data → P r') {s t : State} (hs : P s.regs)
    (h : step s = .next t) : P t.regs := by
  rcases step_cases h with ⟨-, rfl⟩ | ⟨_, -, rfl⟩ | ⟨_, _, i, -, -, rfl⟩ | ⟨_, _, code, -, -, rfl⟩
  · exact hs
  · exact hreset
  · cases he : commandEffect reference i s.regs with
    | accept r data => exact haccept i s.regs r data hs he
    | reject code => exact herror code _ hs
  · exact herror code _ hs

/-! ### The sticky error -/

theorem errOk_eq_of_same {r r' : Regs} (herr : r'.err = r.err) (hcode : r'.errCode = r.errCode) : errOk r' = errOk r := by
  unfold errOk
  rw [herr, hcode]

theorem errorCodeBits_range (code : ErrorCode) : 1 ≤ (errorCodeBits code).toNat ∧ (errorCodeBits code).toNat ≤ 10 := by
  cases code <;> decide

/-- Only CLR_ERR, once accepted, touches the sticky error. -/
theorem commandEffect_accept_error {c : Config} {i : Instr} {r r' : Regs} {data : BitVec 64}
    (h : commandEffect c i r = .accept r' data) :
    (r'.err = r.err ∧ r'.errCode = r.errCode) ∨ (i = .clrErr ∧ r' = clearError r) := by
  cases i with
  | clrErr => cases h; exact .inr ⟨rfl, rfl⟩
  | setFreq f => obtain ⟨-, -, rfl, -⟩ := setFreqEffect_accept h; simp
  | noteOn n v => obtain ⟨-, -, ⟨-, -, rfl⟩ | ⟨-, rfl⟩⟩ := noteOnEffect_accept (v := v) h <;> simp
  | noteOff n => obtain ⟨-, -, rfl, -⟩ := noteOffEffect_accept h; simp
  | tick sr => obtain ⟨-, ⟨-, rfl, -⟩ | ⟨-, rfl, -⟩⟩ := tickEffect_accept h <;> simp
  | prune => obtain ⟨-, ⟨-, -, rfl⟩ | ⟨-, rfl⟩⟩ := pruneEffect_accept h <;> simp
  | wrOscsel w k => obtain ⟨_, -, -, rfl⟩ := wrOscselEffect_accept h; simp
  | read idx => obtain ⟨_, -, rfl, -⟩ := readEffect_accept h; simp
  | nop => cases h; exact .inl ⟨rfl, rfl⟩
  | wrAttack x => cases h; exact .inl ⟨rfl, rfl⟩
  | wrDecay x => cases h; exact .inl ⟨rfl, rfl⟩
  | wrSustain x => cases h; exact .inl ⟨rfl, rfl⟩
  | wrRelease x => cases h; exact .inl ⟨rfl, rfl⟩

theorem errOk_recordError (code : ErrorCode) {r : Regs} (h : errOk r = true) : errOk (recordError code r) = true := by
  unfold recordError
  split
  · exact h
  · simpa [errOk] using errorCodeBits_range code

/-- Settles O14. A recorded error has one of the ten codes, and an accepted command leaves the sticky error or clears
it. -/
theorem stepKeepsTheErrorFieldsConsistent : Obligations.StepKeepsTheErrorFieldsConsistent := by
  intro s t hs h
  refine step_keeps (P := fun r => errOk r = true) (by decide) (fun code _ => errOk_recordError code) ?_ hs h
  intro i r r' data hr he
  obtain ⟨herr, hcode⟩ | ⟨-, rfl⟩ := commandEffect_accept_error he
  · exact (errOk_eq_of_same herr hcode).trans hr
  · rfl

/-! ### The invariant -/

theorem voiceInv_recordError {c : Config} {r : Regs} (code : ErrorCode) (h : VoiceInv c r) :
    VoiceInv c (recordError code r) := by
  unfold recordError
  split
  · exact h
  · exact { h with }

/-- Settles O52. The block is FREE after reset, so no voice has to meet anything. -/
theorem resetMeetsTheInvariant : Obligations.ResetMeetsTheInvariant where
  sticky := by decide
  voice := nofun

/-- Settles O53. The sticky error is O14's; the voice's part is O54's at the reference configuration, which is
admissible (O50) and of the reference ranges. -/
theorem stepKeepsTheInvariant : Obligations.StepKeepsTheInvariant := by
  intro s t hs h
  refine ⟨stepKeepsTheErrorFieldsConsistent s t hs.sticky h, ?_⟩
  refine step_keeps (P := fun r => r.live = true → VoiceInv reference r) resetMeetsTheInvariant.voice ?_ ?_ hs.voice h
  · intro code r hr hlive
    exact voiceInv_recordError code (hr (by simpa using hlive))
  · intro i r r' data hr he
    exact everyAdmissibleBlockKeepsTheVoiceInvariant reference i r r' data referenceConfigurationIsAdmissible
      ⟨rfl, rfl, rfl⟩ hr he

end Sys2Proof.Machine
end

section
/-! PROOF. READ hides nothing (10_state.md R31): the packed words of STATUS and of the selectors determine their
fields. -/

namespace Sys2Proof.Machine

theorem append_inj {v w : Nat} {a a' : BitVec v} {b b' : BitVec w} (h : a ++ b = a' ++ b') : a = a' ∧ b = b' := by
  have hright : b = b' := by simpa only [BitVec.setWidth_append_eq_right] using congrArg (BitVec.setWidth w) h
  subst hright
  exact ⟨(BitVec.append_left_inj b).1 h, rfl⟩

theorem Stage.code_inj {a b : Stage} : a.code = b.code → a = b := by
  cases a <;> cases b <;> decide

theorem BaseWave.code_inj {a b : BaseWave} : a.code = b.code → a = b := by
  cases a <;> cases b <;> decide

theorem Wave.code_inj {a b : Wave} : a.code = b.code → a = b := by
  rcases a with (_ | _ | _) | _ <;> rcases b with (_ | _ | _) | _ <;> decide

/-- STATUS determines its five fields (R24). -/
theorem statusWord_inj {r r' : Regs} (h : statusWord r = statusWord r') :
    r.live = r'.live ∧ r.stage = r'.stage ∧ r.note = r'.note ∧ r.err = r'.err ∧ r.errCode = r'.errCode := by
  unfold statusWord at h
  obtain ⟨h, hlive⟩ := append_inj h
  obtain ⟨h, hstage⟩ := append_inj (append_inj h).1
  obtain ⟨h, hnote⟩ := append_inj (append_inj h).1
  obtain ⟨h, herr⟩ := append_inj (append_inj h).1
  obtain ⟨-, hcode⟩ := append_inj (append_inj h).1
  exact ⟨BitVec.ofBool_eq_iff_eq.1 hlive, Stage.code_inj hstage, hnote, BitVec.ofBool_eq_iff_eq.1 herr, hcode⟩

/-- A selector as READ shows it determines its waveform and its carrier (R25). -/
theorem oscSel_word_inj {o o' : OscSel} (h : o.bits.setWidth 64 = o'.bits.setWidth 64) : o = o' := by
  have hbits : o.carrier.code ++ o.wave.code = o'.carrier.code ++ o'.wave.code := by
    simpa [OscSel.bits] using congrArg (BitVec.setWidth 4) h
  obtain ⟨hcarrier, hwave⟩ := append_inj hbits
  cases o
  cases o'
  rw [OscSel.mk.injEq]
  exact ⟨Wave.code_inj hwave, BaseWave.code_inj hcarrier⟩

/-- Settles O38. Each register stands at an index of its own, STATUS and the selectors packed into a word each. -/
theorem readsTellEveryRegister : Obligations.ReadsTellEveryRegister := by
  intro c r r' h
  obtain ⟨hlive, hstage, hnote, herr, hcode⟩ := statusWord_inj (h .status)
  have hcfg := oscSel_word_inj (h .cfgOscsel)
  have hosc := oscSel_word_inj (h .oscSel)
  cases r
  cases r'
  rw [Regs.mk.injEq]
  exact ⟨hlive, hstage, hnote, herr, hcode, hcfg, h .cfgAttack, h .cfgDecay, h .cfgSustain, h .cfgRelease, hosc,
    h .baseFreq, h .rampFreq, h .rampPhase, h .lfoPhase, h .envAttack, h .envDecay, h .envSustain, h .envRelease,
    h .envValue, h .envTimeLeft, h .envAtkStart, h .envRelStart⟩

/-- Settles O9. -/
theorem resetStateReadsAsTheTable : Obligations.ResetStateReadsAsTheTable := by
  unfold Obligations.ResetStateReadsAsTheTable
  decide

end Sys2Proof.Machine
end

section
/-! PROOF. Which command changes which register (10_state.md R22, R24), and how STAGE moves (R26, R28). -/

namespace Sys2Proof.Machine

/-! ### The oscillator and the stage over one operation -/

/-- RAMP_FREQ and LFO_PHASE move with the sample only under vibrato (40_oscillator.md R108). -/
theorem oscNext_plain_or_vibrato (c : Config) (sr : F64) (r : Regs) :
    ((oscNext c sr r).1.rampFreq = r.rampFreq ∧ (oscNext c sr r).1.lfoPhase = r.lfoPhase) ∨
      r.oscSel.wave = .vibrato := by
  unfold oscNext
  cases r.oscSel.wave with
  | plain w => exact .inl ⟨rfl, rfl⟩
  | vibrato => exact .inr rfl

/-- The stage after a stage (10_state.md R28); SUSTAIN and DONE are left by commands only. -/
def Stage.next : Stage → Stage
  | .attack => .decay
  | .decay => .sustain
  | .sustain => .sustain
  | .release => .done
  | .done => .done

/-- The moves along one or two arrows of the machine. -/
theorem Stage.moved {a b : Stage} (h : b = a ∨ b = a.next ∨ b = a.next.next) (hne : b ≠ a) :
    (a = .attack ∧ (b = .decay ∨ b = .sustain)) ∨ (a = .decay ∧ b = .sustain) ∨ (a = .release ∧ b = .done) := by
  obtain hsame | hone | htwo := h
  · exact absurd hsame hne
  · subst hone
    cases a <;> simp [Stage.next] at hne ⊢
  · subst htwo
    cases a <;> simp [Stage.next] at hne ⊢

theorem leaveStage_stage (r : Regs) : (leaveStage r).stage = r.stage.next := by
  unfold leaveStage
  cases hs : r.stage <;> simp [Stage.next, hs]

/-- The loop of 41_envelope.md R133 makes no pass, one or two. -/
theorem passStages_two_stage (r : Regs) :
    (passStages 2 r).stage = r.stage ∨ (passStages 2 r).stage = r.stage.next ∨
      (passStages 2 r).stage = r.stage.next.next := by
  simp only [passStages]
  split
  · split <;> simp [leaveStage_stage]
  · simp

theorem envAdvance_stage (sr : F64) (r : Regs) :
    (envAdvance sr r).stage = r.stage ∨ (envAdvance sr r).stage = r.stage.next ∨
      (envAdvance sr r).stage = r.stage.next.next := by
  unfold envAdvance
  split
  · exact passStages_two_stage _
  · simp

theorem voiceNext_stage (c : Config) (sr : F64) (r : Regs) :
    (voiceNext c sr r).1.stage = r.stage ∨ (voiceNext c sr r).1.stage = r.stage.next ∨
      (voiceNext c sr r).1.stage = r.stage.next.next := by
  simpa [voiceNext] using envAdvance_stage sr (oscNext c sr r).1

/-- NOTE_OFF begins a release from no other stage than ATTACK, DECAY and SUSTAIN (41_envelope.md R136). -/
theorem releaseVoice_stage (r : Regs) :
    (releaseVoice r).stage = r.stage ∨ ((releaseVoice r).stage = .release ∧ r.stage ≠ .done) := by
  unfold releaseVoice
  cases hs : r.stage <;> simp [hs]

/-! ### The commands -/

theorem errorCodeBits_ne_zero (code : ErrorCode) : errorCodeBits code ≠ 0x00#8 := by
  cases code <;> decide

/-- Settles O39. A rejected command changes the sticky error only, and its response carries its code; of an accepted
one everything it can write is known, register by register. -/
theorem onlyTheListedCommandsWriteARegister : Obligations.OnlyTheListedCommandsWriteARegister := by
  intro i s t h
  rw [exec_eq] at h
  cases h
  cases he : commandEffect reference i s.regs with
  | reject code => simp [errorCodeBits_ne_zero]
  | accept r data =>
    rw [State.answer_accept_regs]
    cases i with
    | nop => cases he; simp
    | setFreq f => obtain ⟨-, -, rfl, -⟩ := setFreqEffect_accept he; simp
    | noteOn n v => obtain ⟨-, -, ⟨hl, -, rfl⟩ | ⟨hl, rfl⟩⟩ := noteOnEffect_accept (v := v) he <;> simp [hl]
    | noteOff n => obtain ⟨-, -, rfl, -⟩ := noteOffEffect_accept he; simp
    | tick sr =>
      obtain ⟨-, ⟨-, rfl, -⟩ | ⟨-, rfl, -⟩⟩ := tickEffect_accept he
      · obtain ⟨hfreq, hlfo⟩ | hvib := oscNext_plain_or_vibrato reference sr s.regs
        · simp [hfreq, hlfo]
        · simp [hvib]
      · simp
    | prune => obtain ⟨-, ⟨-, -, rfl⟩ | ⟨-, rfl⟩⟩ := pruneEffect_accept he <;> simp
    | wrAttack x => cases he; simp
    | wrDecay x => cases he; simp
    | wrSustain x => cases he; simp
    | wrRelease x => cases he; simp
    | wrOscsel w k => obtain ⟨_, -, -, rfl⟩ := wrOscselEffect_accept he; simp
    | read idx => obtain ⟨_, -, rfl, -⟩ := readEffect_accept he; simp
    | clrErr => cases he; simp

/-- Settles O41. By O39 only three commands are left to look at. -/
theorem stageMovesOnlyAlongTheMachine : Obligations.StageMovesOnlyAlongTheMachine := by
  intro i s t h hne
  obtain ⟨-, hwriters, -⟩ := onlyTheListedCommandsWriteARegister i s t h
  rw [exec_eq] at h
  cases h
  cases he : commandEffect reference i s.regs with
  | reject code => simp [he] at hne
  | accept r data =>
    rw [he, State.answer_accept_regs] at hne hwriters
    rw [State.answer_accept_regs]
    rcases hwriters with hsame | ⟨n, v, rfl⟩ | ⟨n, rfl⟩ | ⟨sr, rfl⟩
    · exact absurd hsame hne
    · obtain ⟨-, -, ⟨-, -, rfl⟩ | ⟨-, rfl⟩⟩ := noteOnEffect_accept (v := v) he <;> exact .inl ⟨rfl, n, v, rfl⟩
    · obtain ⟨-, -, rfl, -⟩ := noteOffEffect_accept he
      obtain hsame | ⟨hrel, hdone⟩ := releaseVoice_stage s.regs
      · exact absurd hsame hne
      · exact .inr (.inl ⟨hrel, hdone, n, rfl⟩)
    · obtain ⟨-, ⟨-, rfl, -⟩ | ⟨-, rfl, -⟩⟩ := tickEffect_accept he
      · exact .inr (.inr ⟨sr, rfl, Stage.moved (voiceNext_stage reference sr s.regs) hne⟩)
      · exact absurd rfl hne

end Sys2Proof.Machine
end

section
/-! PROOF. A FREE block and its working registers (10_state.md R30): every command but NOTE_ON leaves them alone, and
NOTE_ON writes them all from the others. -/

namespace Sys2Proof.Machine

open Sys2Proof.Claims

/-- The registers `r` with the working registers, indices 0x06 to 0x12, of `w`. -/
def Regs.withWorking (r w : Regs) : Regs :=
  { r with
    oscSel := w.oscSel, baseFreq := w.baseFreq, rampFreq := w.rampFreq, rampPhase := w.rampPhase,
    lfoPhase := w.lfoPhase, envAttack := w.envAttack, envDecay := w.envDecay, envSustain := w.envSustain,
    envRelease := w.envRelease, envValue := w.envValue, envTimeLeft := w.envTimeLeft,
    envAtkStart := w.envAtkStart, envRelStart := w.envRelStart }

theorem sameNonWorking_iff (r r' : Regs) : sameNonWorking r r' ↔ ∃ w, r' = r.withWorking w := by
  constructor
  · intro h
    exact ⟨r', h.symm⟩
  · rintro ⟨w, rfl⟩
    rfl

theorem recordError_withWorking (code : ErrorCode) (r w : Regs) :
    recordError code (r.withWorking w) = (recordError code r).withWorking w := by
  rcases herr : r.err <;> simp [recordError, Regs.withWorking, herr]

/-! ### The commands that look at LIVE, on a FREE block -/

section Free

variable {c : Config} {r : Regs} (hfree : r.live = false)
include hfree

theorem setFreqEffect_free (f : F64) : setFreqEffect c f r = .reject .noVoice := by
  simp [setFreqEffect, hfree]

theorem noteOffEffect_free (n : Note) : noteOffEffect n r = .reject .noVoice := by
  simp [noteOffEffect, hfree]

theorem noteOnEffect_free (n : Note) (v : Velocity) :
    noteOnEffect c n v r =
      if validEnv r then .accept (beginAttack (construct n (c.mtof n) (latchEnv r))) 0#64
      else .reject .badEnvParam := by
  cases hv : validEnv r <;> simp [noteOnEffect, hfree, hv]

theorem tickEffect_free (sr : F64) :
    tickEffect c sr r = if validSr c sr then .accept r zero else .reject .badSampleRate := by
  cases hs : validSr c sr <;> simp [tickEffect, hfree, hs]

theorem pruneEffect_free : pruneEffect r = .accept r 0#64 := by
  simp [pruneEffect, hfree]

end Free

/-! ### Two FREE blocks that differ in the working registers -/

/-- What a command comes to on two FREE blocks with the same registers but the working ones: the same rejection, the
same data on blocks that are again so, or one and the same voice. -/
inductive Effect.Alike : Effect → Effect → Prop
  | rejected (code : ErrorCode) : Alike (.reject code) (.reject code)
  | free {r r' : Regs} (data : BitVec 64) (hfree : r.live = false) (hsame : sameNonWorking r r') :
    Alike (.accept r data) (.accept r' data)
  | voice (r : Regs) (data : BitVec 64) : Alike (.accept r data) (.accept r data)

/-- NOTE_ON checks staged registers only, and the voice it makes has nothing left of the working ones. -/
theorem noteOnEffect_alike {c : Config} {r : Regs} (w : Regs) (hfree : r.live = false) (n : Note) (v : Velocity) :
    (noteOnEffect c n v r).Alike (noteOnEffect c n v (r.withWorking w)) := by
  rw [noteOnEffect_free hfree, noteOnEffect_free (r := r.withWorking w) hfree]
  have hvalid : validEnv (r.withWorking w) = validEnv r := rfl
  rw [hvalid]
  split
  · exact .voice _ _
  · exact .rejected _

theorem tickEffect_alike {c : Config} {r : Regs} (w : Regs) (hfree : r.live = false) (sr : F64) :
    (tickEffect c sr r).Alike (tickEffect c sr (r.withWorking w)) := by
  rw [tickEffect_free hfree, tickEffect_free (r := r.withWorking w) hfree]
  split
  · exact .free _ hfree rfl
  · exact .rejected _

theorem wrOscselEffect_alike {r : Regs} (w : Regs) (hfree : r.live = false) (wave carrier : BitVec 2) :
    (wrOscselEffect wave carrier r).Alike (wrOscselEffect wave carrier (r.withWorking w)) := by
  unfold wrOscselEffect
  split
  · exact .rejected _
  · exact .free _ hfree rfl

theorem commandEffect_alike {c : Config} {i : Instr} {r : Regs} (w : Regs) (hfree : r.live = false)
    (hread : ∀ x, i ≠ .read x) : (commandEffect c i r).Alike (commandEffect c i (r.withWorking w)) := by
  have hfree' : (r.withWorking w).live = false := hfree
  cases i with
  | setFreq f =>
    change (setFreqEffect c f r).Alike (setFreqEffect c f (r.withWorking w))
    rw [setFreqEffect_free hfree, setFreqEffect_free hfree']
    exact .rejected _
  | noteOn n v => exact noteOnEffect_alike w hfree n v
  | noteOff n =>
    change (noteOffEffect n r).Alike (noteOffEffect n (r.withWorking w))
    rw [noteOffEffect_free hfree, noteOffEffect_free hfree']
    exact .rejected _
  | tick sr => exact tickEffect_alike w hfree sr
  | prune =>
    change (pruneEffect r).Alike (pruneEffect (r.withWorking w))
    rw [pruneEffect_free hfree, pruneEffect_free hfree']
    exact .free _ hfree rfl
  | wrOscsel wave carrier => exact wrOscselEffect_alike w hfree wave carrier
  | read x => exact absurd rfl (hread x)
  | nop => exact .free _ hfree rfl
  | wrAttack x => exact .free _ hfree rfl
  | wrDecay x => exact .free _ hfree rfl
  | wrSustain x => exact .free _ hfree rfl
  | wrRelease x => exact .free _ hfree rfl
  | clrErr => exact .free _ hfree rfl

/-! ### The frame of a FREE block -/

theorem sameWorking_refl (r : Regs) : sameWorking r r :=
  ⟨rfl, rfl, rfl, rfl, rfl, rfl, rfl, rfl, rfl, rfl, rfl, rfl, rfl⟩

theorem sameWorking_recordError (code : ErrorCode) (r : Regs) : sameWorking (recordError code r) r := by
  simp [sameWorking]

theorem commandEffect_free_sameWorking {c : Config} {i : Instr} {r r' : Regs} {data : BitVec 64}
    (hfree : r.live = false) (hi : ∀ n v, i ≠ .noteOn n v) (h : commandEffect c i r = .accept r' data) :
    sameWorking r' r := by
  cases i with
  | setFreq f => cases (setFreqEffect_free hfree f).symm.trans h
  | noteOn n v => exact absurd rfl (hi n v)
  | noteOff n => cases (noteOffEffect_free hfree n).symm.trans h
  | tick sr =>
    obtain ⟨-, ⟨hl, -⟩ | ⟨-, rfl, -⟩⟩ := tickEffect_accept h
    · simp [hfree] at hl
    · exact sameWorking_refl r'
  | prune => cases (pruneEffect_free hfree).symm.trans h; exact sameWorking_refl r
  | wrOscsel w k => obtain ⟨_, -, -, rfl⟩ := wrOscselEffect_accept h; exact sameWorking_refl r
  | read x => obtain ⟨_, -, rfl, -⟩ := readEffect_accept h; exact sameWorking_refl r'
  | nop => cases h; exact sameWorking_refl r
  | wrAttack x => cases h; exact sameWorking_refl r
  | wrDecay x => cases h; exact sameWorking_refl r
  | wrSustain x => cases h; exact sameWorking_refl r
  | wrRelease x => cases h; exact sameWorking_refl r
  | clrErr => cases h; exact sameWorking_refl r

/-- Settles O44. Commands to two FREE blocks that differ in the working registers come to effects that are alike, and
so do the states answered; the frame is that of each effect. -/
theorem freeBlockForgetsTheLastVoice : Obligations.FreeBlockForgetsTheLastVoice := by
  refine ⟨fun i s s' hfree hread hsame => ?_, fun i s t hfree hi h => ?_⟩
  · obtain ⟨w, hw⟩ := (sameNonWorking_iff _ _).1 hsame
    have halike := commandEffect_alike (c := reference) w hfree hread
    rw [exec_eq, exec_eq, hw]
    generalize commandEffect reference i s.regs = e, commandEffect reference i (s.regs.withWorking w) = e' at halike ⊢
    cases halike with
    | rejected code =>
      refine ⟨_, _, rejection code, rfl, rfl, ?_, rfl, rfl, ?_⟩
      · rw [State.answer_reject_regs, State.answer_reject_regs, hw, recordError_withWorking]
        rfl
      · simp [hfree]
    | free data hfree' hsame' => exact ⟨_, _, acceptance data, rfl, rfl, hsame', rfl, rfl, by simp [hfree']⟩
    | voice r data => exact ⟨_, _, acceptance data, rfl, rfl, rfl, rfl, rfl, fun _ => rfl⟩
  · rw [exec_eq] at h
    cases h
    cases he : commandEffect reference i s.regs with
    | accept r data => exact commandEffect_free_sameWorking hfree hi he
    | reject code => exact sameWorking_recordError code s.regs

end Sys2Proof.Machine
end

section
/-! PROOF. The encoding (30_encoding.md R82 to R85): the decoder's masks are the rules' bit ranges, so the decoder makes
the two checks of R85, and encoding and decoding undo each other. -/

namespace Sys2Proof

/-- The operand form of a command (R84). -/
def Instr.form : Instr → Form
  | .nop | .prune | .clrErr => .none
  | .setFreq _ | .tick _ | .wrAttack _ | .wrDecay _ | .wrSustain _ | .wrRelease _ => .f64
  | .noteOn _ _ => .notev
  | .noteOff _ => .note
  | .wrOscsel _ _ => .sel
  | .read _ => .idx

theorem opcodeForm_opcodeOf (i : Instr) : opcodeForm (opcodeOf i).toNat = some i.form := by
  cases i <;> rfl

/-! ### The two checks -/

theorem toNat_opcField (w : Command) : (opcField w).toNat = w.toNat / 2 ^ 64 := by
  unfold opcField
  rw [BitVec.extractLsb'_toNat, Nat.shiftRight_eq_div_pow]
  omega

theorem operandField_eq_ofNat (w : Command) : operandField w = BitVec.ofNat 64 w.toNat := rfl

theorem opcodeListed_eq (w : Command) : opcodeListed w = (opcodeForm (opcField w).toNat).isSome := by
  unfold opcodeListed
  rw [toNat_opcField]

/-- No reserved operand bit of the form is 1 (R83). -/
def Form.clear (form : Form) (x : BitVec 64) : Bool := form.reservedRanges.all (rangeClear x)

theorem reservedClear_of_form {w : Command} {form : Form} (h : opcodeForm (opcField w).toNat = some form) :
    reservedClear w = form.clear (operandField w) := by
  rw [toNat_opcField] at h
  unfold reservedClear
  rw [h]
  rfl

theorem rangeClear_iff (x : BitVec 64) (r : Nat × Nat) :
    rangeClear x r = true ↔ ∀ k, r.2 ≤ k → k ≤ r.1 → x.getLsbD k = false := by
  have hbit (j : Nat) : (x.toNat / 2 ^ r.2 % 2 ^ (r.1 + 1 - r.2)).testBit j =
      (decide (j < r.1 + 1 - r.2) && x.getLsbD (r.2 + j)) := by
    rw [Nat.testBit_mod_two_pow, Nat.testBit_div_two_pow, BitVec.testBit_toNat, Nat.add_comm j]
  unfold rangeClear
  rw [beq_iff_eq]
  constructor
  · intro h k hlo hhi
    have hk := hbit (k - r.2)
    rw [h, Nat.zero_testBit, Nat.add_sub_cancel' hlo, decide_eq_true (by omega), Bool.true_and] at hk
    exact hk.symm
  · intro h
    refine Nat.eq_of_testBit_eq fun j => ?_
    rw [hbit, Nat.zero_testBit]
    by_cases hj : j < r.1 + 1 - r.2
    · rw [h (r.2 + j) (by omega) (by omega), Bool.and_false]
    · rw [decide_eq_false hj, Bool.false_and]

/-- The decoder's mask of a form has a 1 at exactly the bits of the rule's ranges (R83). -/
theorem getLsbD_reservedMask (form : Form) :
    ∀ k < 64, (reservedMask form).getLsbD k = form.reservedRanges.any fun r => decide (r.2 ≤ k ∧ k ≤ r.1) := by
  cases form <;> decide

theorem reservedRanges_lt (form : Form) : ∀ r ∈ form.reservedRanges, r.1 < 64 := by
  cases form <;> decide

theorem and_reservedMask_eq_zero_iff (form : Form) (x : BitVec 64) :
    x &&& reservedMask form = 0#64 ↔ form.clear x = true := by
  unfold Form.clear
  rw [List.all_eq_true]
  constructor
  · intro h r hr
    refine (rangeClear_iff x r).2 fun k hlo hhi => ?_
    have hk : k < 64 := Nat.lt_of_le_of_lt hhi (reservedRanges_lt form r hr)
    have hmask : (reservedMask form).getLsbD k = true := by
      rw [getLsbD_reservedMask form k hk, List.any_eq_true]
      exact ⟨r, hr, decide_eq_true ⟨hlo, hhi⟩⟩
    simpa [hmask] using congrArg (·.getLsbD k) h
  · intro h
    refine BitVec.eq_of_getLsbD_eq fun k hk => ?_
    rw [BitVec.getLsbD_and, BitVec.getLsbD_zero, getLsbD_reservedMask form k hk]
    cases hany : form.reservedRanges.any fun r => decide (r.2 ≤ k ∧ k ≤ r.1) with
    | false => rw [Bool.and_false]
    | true =>
      obtain ⟨r, hr, hin⟩ := List.any_eq_true.1 hany
      obtain ⟨hlo, hhi⟩ := of_decide_eq_true hin
      rw [(rangeClear_iff x r).1 (h r hr) k hlo hhi, Bool.false_and]

/-- The decoder's second check is R85's. -/
theorem checkReserved_eq (form : Form) (x : BitVec 64) (i : Instr) :
    checkReserved form x i = if form.clear x = true then .command i else .rejected .reservedOperand := by
  unfold checkReserved
  simp only [and_reservedMask_eq_zero_iff]

/-! ### The fields of an operand (R83) -/

/-- The command of the opcode of `i` whose operands are the fields of `x`. -/
def Instr.withOperand (x : BitVec 64) : Instr → Instr
  | .nop => .nop
  | .setFreq _ => .setFreq x
  | .noteOn _ _ => .noteOn (noteField x) (velField x)
  | .noteOff _ => .noteOff (noteField x)
  | .tick _ => .tick x
  | .prune => .prune
  | .wrAttack _ => .wrAttack x
  | .wrDecay _ => .wrDecay x
  | .wrSustain _ => .wrSustain x
  | .wrRelease _ => .wrRelease x
  | .wrOscsel _ _ => .wrOscsel (waveField x) (carrierField x)
  | .read _ => .read (idxField x)
  | .clrErr => .clrErr

theorem opcodeOf_withOperand (x : BitVec 64) (i : Instr) : opcodeOf (i.withOperand x) = opcodeOf i := by
  cases i <;> rfl

theorem toNat_field (x : BitVec 64) (lo len : Nat) :
    (x.extractLsb' lo len).toNat = x.toNat / 2 ^ lo % 2 ^ len := by
  rw [BitVec.extractLsb'_toNat, Nat.shiftRight_eq_div_pow]

theorem fields_of_noteOn (n : Note) (v : Velocity) :
    noteField (operandOf (.noteOn n v)) = n ∧ velField (operandOf (.noteOn n v)) = v := by
  have := n.isLt
  have := v.isLt
  constructor <;> apply BitVec.eq_of_toNat_eq
  · rw [noteField, toNat_field, Laws.operandOf_noteOn]
    omega
  · rw [velField, toNat_field, Laws.operandOf_noteOn]
    omega

theorem fields_of_wrOscsel (w k : BitVec 2) :
    waveField (operandOf (.wrOscsel w k)) = w ∧ carrierField (operandOf (.wrOscsel w k)) = k := by
  have := w.isLt
  have := k.isLt
  constructor <;> apply BitVec.eq_of_toNat_eq
  · rw [waveField, toNat_field, Laws.operandOf_wrOscsel]
    omega
  · rw [carrierField, toNat_field, Laws.operandOf_wrOscsel]
    omega

/-- The fields of a command's operand are its operands. -/
theorem withOperand_operandOf (i : Instr) : i.withOperand (operandOf i) = i := by
  cases i with
  | noteOn n v =>
    obtain ⟨hn, hv⟩ := fields_of_noteOn n v
    rw [Instr.withOperand, hn, hv]
  | noteOff n => exact congrArg Instr.noteOff BitVec.extractLsb'_append_eq_right
  | wrOscsel w k =>
    obtain ⟨hw, hk⟩ := fields_of_wrOscsel w k
    rw [Instr.withOperand, hw, hk]
  | read x => exact congrArg Instr.read BitVec.extractLsb'_append_eq_right
  | nop | prune | clrErr => rfl
  | setFreq x | tick x | wrAttack x | wrDecay x | wrSustain x | wrRelease x => rfl

theorem eq_zero_of_clear {x : BitVec 64} (h : Form.none.clear x = true) : x = 0#64 := by
  have hx := (and_reservedMask_eq_zero_iff .none x).2 h
  rwa [show reservedMask .none = BitVec.allOnes 64 by decide, BitVec.and_allOnes] at hx

/-- With no reserved bit set the fields make up the whole operand. -/
theorem operandOf_withOperand {i : Instr} {x : BitVec 64} (h : i.form.clear x = true) :
    operandOf (i.withOperand x) = x := by
  have := x.isLt
  cases i with
  | noteOn n v =>
    apply BitVec.eq_of_toNat_eq
    rw [Instr.withOperand, Laws.operandOf_noteOn, noteField, velField, toNat_field, toNat_field]
    have hbits : x.toNat / 2 ^ 7 % 2 = 0 ∧ x.toNat / 2 ^ 15 % 2 ^ 49 = 0 := by
      simpa [Instr.form, Form.clear, Form.reservedRanges, rangeClear] using h
    omega
  | noteOff n =>
    apply BitVec.eq_of_toNat_eq
    rw [Instr.withOperand, Laws.operandOf_noteOff, noteField, toNat_field]
    have hbits : x.toNat / 2 ^ 7 % 2 ^ 57 = 0 := by
      simpa [Instr.form, Form.clear, Form.reservedRanges, rangeClear] using h
    omega
  | wrOscsel w k =>
    apply BitVec.eq_of_toNat_eq
    rw [Instr.withOperand, Laws.operandOf_wrOscsel, waveField, carrierField, toNat_field, toNat_field]
    have hbits : x.toNat / 2 ^ 4 % 2 ^ 60 = 0 := by
      simpa [Instr.form, Form.clear, Form.reservedRanges, rangeClear] using h
    omega
  | read i =>
    apply BitVec.eq_of_toNat_eq
    rw [Instr.withOperand, Laws.operandOf_read, idxField, toNat_field]
    have hbits : x.toNat / 2 ^ 8 % 2 ^ 56 = 0 := by
      simpa [Instr.form, Form.clear, Form.reservedRanges, rangeClear] using h
    omega
  | nop | prune | clrErr => exact (eq_zero_of_clear h).symm
  | setFreq x | tick x | wrAttack x | wrDecay x | wrSustain x | wrRelease x => rfl

/-! ### The decoder -/

/-- A word with the opcode of a command selects that command, unless a reserved bit is set (R84, R85). -/
theorem decode_of_opcode {w : Command} {i : Instr} (h : opcField w = opcodeOf i) :
    decode w = if i.form.clear (operandField w) = true then .command (i.withOperand (operandField w))
      else .rejected .reservedOperand := by
  rw [← checkReserved_eq]
  unfold decode
  rw [h]
  cases i <;> rfl

theorem decode_of_form_none {w : Command} (h : opcodeForm (opcField w).toNat = none) :
    decode w = .rejected .illegalOpcode := by
  have hne (opc : BitVec 8) (hlisted : opcodeForm opc.toNat ≠ none) : opcField w ≠ opc := by
    rintro rfl
    exact hlisted h
  simp [decode, hne, opcodeForm]

/-- One command of every opcode (R84). -/
def oneOfEachOpcode : List Instr :=
  [.nop, .setFreq 0#64, .noteOn 0#7 0#7, .noteOff 0#7, .tick 0#64, .prune, .wrAttack 0#64, .wrDecay 0#64,
    .wrSustain 0#64, .wrRelease 0#64, .wrOscsel 0#2 0#2, .read 0#8, .clrErr]

/-- An opcode is listed by R84 only if a command has it. -/
theorem exists_opcodeOf :
    ∀ opc : BitVec 8, opcodeForm opc.toNat ≠ none → ∃ i ∈ oneOfEachOpcode, opc = opcodeOf i := by
  decide

/-! ### Encoding and decoding -/

theorem encode_wellFormed (i : Instr) : wellFormed (encode i) = true := by
  cases i with
  | nop => exact Laws.EncodedWellFormed.nop
  | setFreq f => exact Laws.EncodedWellFormed.setFreq f
  | noteOn n v => exact Laws.EncodedWellFormed.noteOn n v
  | noteOff n => exact Laws.EncodedWellFormed.noteOff n
  | tick sr => exact Laws.EncodedWellFormed.tick sr
  | prune => exact Laws.EncodedWellFormed.prune
  | wrAttack x => exact Laws.EncodedWellFormed.wrAttack x
  | wrDecay x => exact Laws.EncodedWellFormed.wrDecay x
  | wrSustain x => exact Laws.EncodedWellFormed.wrSustain x
  | wrRelease x => exact Laws.EncodedWellFormed.wrRelease x
  | wrOscsel w k => exact Laws.EncodedWellFormed.wrOscsel w k
  | read x => exact Laws.EncodedWellFormed.read x
  | clrErr => exact Laws.EncodedWellFormed.clrErr

theorem opcField_encode (i : Instr) : opcField (encode i) = opcodeOf i := opcField_append _ _

theorem operandField_encode (i : Instr) : operandField (encode i) = operandOf i := operandField_append _ _

theorem form_of_opcode {w : Command} {i : Instr} (h : opcField w = opcodeOf i) :
    opcodeForm (opcField w).toNat = some i.form := by
  rw [h, opcodeForm_opcodeOf]

theorem clear_operandOf (i : Instr) : i.form.clear (operandOf i) = true := by
  obtain ⟨-, hclear⟩ := Bool.and_eq_true_iff.1 (encode_wellFormed i)
  rwa [reservedClear_of_form (form_of_opcode (opcField_encode i)), operandField_encode] at hclear

/-- Settles O1. The opcode selects the command, its operand has no reserved bit, and the fields of the operand are the
command's operands. -/
theorem decodeEncodeGivesTheCommandBack : Obligations.DecodeEncodeGivesTheCommandBack := by
  intro i
  rw [decode_of_opcode (opcField_encode i), operandField_encode, if_pos (clear_operandOf i), withOperand_operandOf]

theorem encode_withOperand_operandField {w : Command} {i : Instr} (h : opcField w = opcodeOf i)
    (hclear : i.form.clear (operandField w) = true) : encode (i.withOperand (operandField w)) = w := by
  rw [encode, opcodeOf_withOperand, operandOf_withOperand hclear, ← h, opcField_append_operandField]

/-- Settles O2. A listed opcode is that of a command, whose form has the reserved bits of the rule. -/
theorem decodeMakesTheTwoChecksInOrder : Obligations.DecodeMakesTheTwoChecksInOrder := by
  intro w
  rw [opcodeListed_eq]
  by_cases hnone : opcodeForm (opcField w).toNat = none
  · simp [hnone, decode_of_form_none]
  · obtain ⟨i, -, hopc⟩ := exists_opcodeOf _ hnone
    have hform := form_of_opcode hopc
    rw [hform, decode_of_opcode hopc, reservedClear_of_form hform]
    refine ⟨nofun, fun _ hset => if_neg (by simp [hset]), fun _ hclear => ?_⟩
    exact ⟨_, if_pos hclear, encode_withOperand_operandField hopc hclear⟩

/-- Settles O3. The words are fixed, so this is an evaluation of the decoder. -/
theorem exampleWordsDecode : Obligations.ExampleWordsDecode := by
  unfold Obligations.ExampleWordsDecode
  decide

end Sys2Proof
end

section
/-! PROOF. Steps and their answers (30_encoding.md R80, R81, R85, R86, R90). -/

namespace Sys2Proof.Machine

open Sys2Proof.Claims

/-! ### The step on a command word -/

theorem accepted_eq_taken {s : State} {p : PortInput} {rest : List PortInput} (h : s.pending = p :: rest) :
    s.accepted = taken s rest := by
  rw [State.accepted, taken, h, List.tail_cons]

theorem takeError_eq_errAnswer (code : ErrorCode) (s : State) :
    s.takeError code = errAnswer s (errorCodeBits code) := rfl

theorem step_rejected_eq_errAnswer {s : State} {w : Command} {rest : List PortInput} {code : ErrorCode}
    (h : s.pending = .command w :: rest) (hd : decode w = .rejected code) :
    step s = .next (errAnswer (taken s rest) (errorCodeBits code)) := by
  rw [step_rejected h hd, takeError_eq_errAnswer, accepted_eq_taken h]

/-- Settles O6. -/
theorem stepRunsTheDecodedCommand : Obligations.StepRunsTheDecodedCommand := by
  intro s w rest i h hd
  rw [step_command h hd, accepted_eq_taken h]

/-- Settles O7. -/
theorem stepRejectsAWordThatIsNoCommand : Obligations.StepRejectsAWordThatIsNoCommand :=
  fun _ _ _ h => ⟨step_rejected_eq_errAnswer h, step_rejected_eq_errAnswer h⟩

theorem opcodeForm_reserved {opc : Nat}
    (h : 0x06 ≤ opc ∧ opc ≤ 0x0F ∨ 0x15 ≤ opc ∧ opc ≤ 0x1F ∨ 0x22 ≤ opc) : opcodeForm opc = none := by
  unfold opcodeForm
  rw [if_neg, if_neg, if_neg, if_neg, if_neg, if_neg] <;> omega

/-- Settles O4. The decoder's first check fails whatever the operand. -/
theorem reservedOpcodeIsRejectedWhateverItsOperand : Obligations.ReservedOpcodeIsRejectedWhateverItsOperand := by
  intro opc x s rest hopc h
  have hd : decode (opc ++ x) = .rejected .illegalOpcode :=
    decode_of_form_none (by rw [opcField_append, opcodeForm_reserved hopc])
  exact step_rejected_eq_errAnswer h hd

/-! ### The response of a command -/

/-- Only TICK and READ answer with data. -/
theorem commandEffect_accept_data {c : Config} {i : Instr} {r r' : Regs} {data : BitVec 64}
    (h : commandEffect c i r = .accept r' data) (htick : ∀ sr, i ≠ .tick sr) (hread : ∀ x, i ≠ .read x) :
    data = 0#64 := by
  cases i with
  | tick sr => exact absurd rfl (htick sr)
  | read x => exact absurd rfl (hread x)
  | setFreq f => obtain ⟨-, -, -, hdata⟩ := setFreqEffect_accept h; exact hdata
  | noteOn n v => obtain ⟨-, hdata, -⟩ := noteOnEffect_accept (v := v) h; exact hdata
  | noteOff n => obtain ⟨-, -, -, hdata⟩ := noteOffEffect_accept h; exact hdata
  | prune => obtain ⟨hdata, -⟩ := pruneEffect_accept h; exact hdata
  | wrOscsel w k => obtain ⟨_, -, hdata, -⟩ := wrOscselEffect_accept h; exact hdata
  | nop | clrErr => cases h; rfl
  | wrAttack x | wrDecay x | wrSustain x | wrRelease x => cases h; rfl

/-- Settles O12. The one response is that of the command's effect, accepted or rejected. -/
theorem everyCommandReturnsOneResponse : Obligations.EveryCommandReturnsOneResponse := by
  intro i s
  rw [exec_eq]
  cases he : commandEffect reference i s.regs with
  | accept r data =>
    exact ⟨_, acceptance data, rfl, rfl, rfl, fun hcode => absurd rfl hcode, commandEffect_accept_data he⟩
  | reject code => exact ⟨_, rejection code, rfl, rfl, rfl, fun _ => rfl, fun _ _ => rfl⟩

/-- Settles O5. -/
theorem pseudoInstructionsExpand : Obligations.PseudoInstructionsExpand :=
  ⟨fun _ => rfl, fun _ _ _ _ => rfl, fun _ _ => rfl⟩

end Sys2Proof.Machine
end

section
/-! PROOF. The oscillator's parts (40_oscillator.md R101 to R113): `wrap` is exact, doubling a phase is exact, and what
SET_FREQ, one oscillator step and the output stages do. -/

namespace Sys2Proof.Machine

open Sys2Proof.Claims

/-! ### The wrap -/

/-- R101: the subtraction of `wrap` is exact, because the fractional part of a binary64 is a binary64. -/
theorem signedUnits_fsub_ffloor {x : F64} (hx : isFinite x = true) (h0 : 0 ≤ signedUnits x) :
    signedUnits (fsub x (ffloor x)) = signedUnits x % oneUnits := by
  obtain ⟨hfloor, hvalue⟩ := ffloor_value hx h0
  obtain ⟨-, f, hf, hfrac⟩ := exists_whole_and_fraction ((isFinite_iff x).1 hx)
  have hdiff : signedUnits x - signedUnits (ffloor x) = signedUnits x % oneUnits := by
    rw [hvalue, Int.emod_def, mul_comm]
  have hunits : signedUnits x = (units x : Int) := by rw [← natAbs_signedUnits, Int.natAbs_of_nonneg h0]
  have hmag : (signedUnits x - signedUnits (ffloor x)).natAbs = unitsOfMag f := by
    rw [hdiff, hunits, ← Int.natCast_mod, Int.natAbs_natCast, hfrac]
    rfl
  rw [(fsub_exact hx hfloor hf hmag).2, hdiff]

theorem wrap_below_one {x : F64} (h : fle one x = false) : wrap x = x := by
  unfold wrap
  rw [h, if_neg Bool.false_ne_true]

theorem wrap_from_one {x : F64} (h : fle one x = true) : wrap x = fsub x (ffloor x) := if_pos h

theorem signedUnits_wrap {x : F64} (hx : isFinite x = true) (h0 : 0 ≤ signedUnits x) :
    signedUnits (wrap x) = signedUnits x % oneUnits := by
  cases hone : fle one x with
  | true => rw [wrap_from_one hone, signedUnits_fsub_ffloor hx h0]
  | false =>
    rw [wrap_below_one hone]
    rw [fle_false_iff isFinite_one hx, signedUnits_one] at hone
    exact (Int.emod_eq_of_lt h0 hone).symm

theorem ffloor_eq_one {x : F64} (hx : isFinite x = true) (h1 : fle one x = true)
    (h2 : flt x 0x4000000000000000#64 = true) : ffloor x = one := by
  have hone : (0 : Int) < oneUnits := Int.ofNat_lt.2 oneUnits_pos
  have htwo : signedUnits 0x4000000000000000#64 = 2 * (oneUnits : Int) := by decide +kernel
  rw [fle_iff isFinite_one hx, signedUnits_one] at h1
  rw [flt_iff hx (by decide), htwo] at h2
  obtain ⟨hfin, hvalue⟩ := ffloor_value hx (hone.le.trans h1)
  have hquot : signedUnits x / oneUnits = 1 := by
    rw [Int.ediv_eq_iff_of_pos hone]
    omega
  rw [hquot, one_mul] at hvalue
  exact eq_of_signedUnits hfin isFinite_one (by rw [hvalue, signedUnits_one]) (by rw [hvalue]; exact hone.ne')

/-- Settles O28. Below 1.0 nothing is taken off; from 1.0 on the floor is, exactly. -/
theorem wrapIsTheExactFractionalPart : Obligations.WrapIsTheExactFractionalPart := by
  intro x hx hnonneg
  have h0 : 0 ≤ signedUnits x := by rwa [fle_iff isFinite_zero hx, signedUnits_zero] at hnonneg
  refine ⟨wrap_below_one, wrap_from_one, fun h1 h2 => ?_, signedUnits_wrap hx h0, inUnit_wrap hx h0⟩
  rw [wrap_from_one h1, ffloor_eq_one hx h1 h2]

/-! ### The order of the sine's argument -/

/-- Twice a magnitude below 1.0 is a magnitude: the significand stays and the exponent rises by one. -/
theorem exists_mag_double {m : Nat} (hm : m < magBits one) :
    ∃ m', m' < infMag ∧ unitsOfMag m' = 2 * unitsOfMag m := by
  obtain ⟨k, sig, rfl, hsig, hnormal⟩ := mag_split m
  have hk : k + 1 ≤ 2044 := by
    rw [show magBits one = 1023 * 2 ^ 52 from by decide] at hm
    omega
  obtain ⟨m', hfin, hunits⟩ := exists_mag_of_mul_pow hsig.le hk
  refine ⟨m', hfin, ?_⟩
  rw [hunits, unitsOfMag_mul_add hsig.le hnormal, pow_succ]
  ring

theorem magBits_lt_one {p : F64} (h : inUnit p = true) : magBits p < magBits one := by
  obtain ⟨hfin, h0, h1⟩ := (inUnit_iff p).1 h
  rw [← Int.natAbs_of_nonneg h0, natAbs_signedUnits, Int.ofNat_lt, ← unitsOfMag_one] at h1
  by_contra hge
  exact absurd (unitsOfMag_le ((isFinite_iff p).1 hfin) (not_lt.1 hge)) (not_le.2 h1)

/-- Doubling a phase is exact, subnormal phases included, and keeps its sign. -/
theorem fmul_two {p : F64} (h : inUnit p = true) :
    isFinite (fmul p 0x4000000000000000#64) = true ∧ units (fmul p 0x4000000000000000#64) = 2 * units p ∧
      signBit (fmul p 0x4000000000000000#64) = signBit p := by
  have hfin := ((inUnit_iff p).1 h).1
  obtain ⟨m, hm, hdouble⟩ := exists_mag_double (magBits_lt_one h)
  have htwo : units 0x4000000000000000#64 = 2 * oneUnits := by decide +kernel
  have hround : roundDiv (units p * units 0x4000000000000000#64) oneUnits = m := by
    rw [htwo, show units p * (2 * oneUnits) = unitsOfMag m * oneUnits by rw [hdouble, units]; ring]
    exact roundDiv_unitsOfMag oneUnits_pos hm
  have hsign : (signBit p != signBit 0x4000000000000000#64) = signBit p := by
    rw [show signBit 0x4000000000000000#64 = false from by decide, Bool.bne_false]
  rw [fmul_finite hfin (by decide), hround, hsign]
  exact ⟨isFinite_packBits _ hm, by rw [units_packBits _ (hm.trans infMag_lt), hdouble, units],
    signBit_packBits _ (hm.trans infMag_lt)⟩

/-- Settles O29. Doubling is exact and TWO_PI is twice the binary64 π, so both products round the same number. -/
theorem sineArgumentOrderDoesNotMatter : Obligations.SineArgumentOrderDoesNotMatter := by
  intro p hp
  obtain ⟨hfin, hunits, hsign⟩ := fmul_two hp
  have htwoPi : units 0x401921FB54442D18#64 = 2 * units 0x400921FB54442D18#64 := by decide +kernel
  have hproduct : 2 * units p * units 0x400921FB54442D18#64 = units p * units 0x401921FB54442D18#64 := by
    rw [htwoPi]; ring
  rw [fmul_finite hfin (by decide), hunits, hsign, hproduct, fmul_finite ((inUnit_iff p).1 hp).1 (by decide)]
  rfl

/-! ### The phase over any number of samples -/

theorem validSr_iff_goodRate (sr : F64) : validSr reference sr = true ↔ goodRate sr := by
  rw [validSr, Bool.and_eq_true, Bool.and_eq_true, and_assoc]
  rfl

theorem validFreq_iff_goodFreq (f : F64) : validFreq reference f = true ↔ goodFreq f := by
  rw [validFreq, Bool.and_eq_true, Bool.and_eq_true, and_assoc]
  rfl

/-- Settles O55, by induction on the number of samples. -/
theorem phaseStaysInUnitInterval : Obligations.PhaseStaysInUnitInterval := by
  intro freq sr phase hfreq hsr hphase k
  obtain ⟨hfin, hpos⟩ := validFreq_pos ((validFreq_iff_goodFreq freq).2 hfreq)
  induction k with
  | zero => exact hphase
  | succ k ih =>
    rw [Function.iterate_succ_apply']
    exact inUnit_rampNext ih hfin hpos.le ((validSr_iff_goodRate sr).2 hsr)

/-! ### SET_FREQ -/

theorem retarget_eq_of_ne_vibrato {r : Regs} (f : F64) (h : r.oscSel.wave ≠ .vibrato) :
    retarget f r = { r with baseFreq := f, rampFreq := f } := by
  unfold retarget
  cases hw : r.oscSel.wave with
  | plain w => rfl
  | vibrato => exact absurd hw h

theorem retarget_eq_of_vibrato {r : Regs} (f : F64) (h : r.oscSel.wave = .vibrato) :
    retarget f r = { r with baseFreq := f } := by
  unfold retarget
  rw [h]

theorem setFreqEffect_valid {c : Config} {r : Regs} {f : F64} (hlive : r.live = true) (hf : validFreq c f = true) :
    setFreqEffect c f r = .accept (retarget f r) 0#64 := by
  simp [setFreqEffect, hlive, hf]

theorem setFreqEffect_invalid {c : Config} {r : Regs} {f : F64} (hlive : r.live = true) (hf : validFreq c f = false) :
    setFreqEffect c f r = .reject .badFrequency := by
  simp [setFreqEffect, hlive, hf]

/-- Settles O18, one clause for each branch of the effect. -/
theorem setFreqRetargets : Obligations.SetFreqRetargets := by
  refine ⟨fun s f hlive hf hw => ?_, fun s f hlive hf hw => ?_, fun s f hfree => ?_, fun s f hlive hf => ?_⟩ <;>
    rw [exec_eq, commandEffect]
  · rw [setFreqEffect_valid hlive ((validFreq_iff_goodFreq f).2 hf), retarget_eq_of_ne_vibrato f hw]
    rfl
  · rw [setFreqEffect_valid hlive ((validFreq_iff_goodFreq f).2 hf), retarget_eq_of_vibrato f hw]
    rfl
  · rw [setFreqEffect_free hfree]
    rfl
  · rw [← validFreq_iff_goodFreq, Bool.not_eq_true] at hf
    rw [setFreqEffect_invalid hlive hf]
    rfl

/-! ### One oscillator step and its output -/

theorem oscNext_plain {r : Regs} {w : BaseWave} (c : Config) (sr : F64) (h : r.oscSel.wave = .plain w) :
    oscNext c sr r = plainNext c w sr r := by
  unfold oscNext
  rw [h]

theorem oscNext_vibrato {r : Regs} (c : Config) (sr : F64) (h : r.oscSel.wave = .vibrato) :
    oscNext c sr r = vibratoNext c sr r := by
  unfold oscNext
  rw [h]

/-- Settles O26. The rules' formulas are `rampNext` and `vibratoFreq` written out. -/
theorem oscillatorAdvancesThenReads : Obligations.OscillatorAdvancesThenReads := by
  intro c sr r
  constructor
  · intro w hw
    rw [oscNext_plain c sr hw]
    rfl
  · intro hw
    refine ⟨_, _, _, rfl, rfl, rfl, ?_⟩
    rw [oscNext_vibrato c sr hw]
    rfl

theorem waveOut_square_low {p : F64} (c : Config) (hp : isFinite p = true) (h : flt p half = true) :
    waveOut c .square p = zero := by
  have hhalf : fle half p = false := by
    rwa [fle_false_iff (by decide) hp, ← flt_iff hp (by decide)]
  rw [waveOut, hhalf, if_neg Bool.false_ne_true]

theorem waveOut_square_high {p : F64} (c : Config) (hp : isFinite p = true) (h : flt p half = false) :
    waveOut c .square p = one := by
  rw [flt_false_iff hp (by decide), ← fle_iff (by decide) hp] at h
  rw [waveOut, if_pos h]

/-- Settles O27. A phase is finite, so one that is not below 0.5 is 0.5 or more. -/
theorem outputStages : Obligations.OutputStages := by
  intro c p hp
  have hfin := ((inUnit_iff p).1 hp).1
  exact ⟨rfl, rfl, waveOut_square_low c hfin, waveOut_square_high c hfin⟩

end Sys2Proof.Machine
end

section
/-! PROOF. The envelope (41_envelope.md R131 to R139): the ends of the ease curve, the value of each stage, one step,
NOTE_OFF and DONE. -/

namespace Sys2Proof.Machine

open Sys2Proof.Claims

/-! ### Operations with an exact result -/

theorem signBit_of_pos {x : F64} (h : 0 < signedUnits x) : signBit x = false := by
  by_contra hs
  rw [signedUnits, if_pos (by simpa using hs)] at h
  omega

theorem fsub_self {x : F64} (hx : isFinite x = true) : fsub x x = zero := by
  have hsign : (signBit x && signBit (fneg x)) = false := by rw [signBit_fneg, Bool.and_not_self]
  rw [fsub_finite hx hx, fadd_finite hx (by simpa using hx), signedUnits_fneg, add_neg_cancel, if_pos rfl, hsign]
  rfl

theorem fdiv_self {x : F64} (hx : isFinite x = true) (hpos : 0 < signedUnits x) : fdiv x x = one := by
  have hu : units x ≠ 0 := (signedUnits_ne_zero_iff x).1 hpos.ne'
  have hround : roundDiv (units x * oneUnits) (units x) = magBits one := by
    rw [Nat.mul_comm, ← unitsOfMag_one]
    exact roundDiv_unitsOfMag (Nat.pos_of_ne_zero hu) (by decide)
  rw [fdiv_finite hx hx hu, hround, bne_self_eq_false, ← signBit_one, packBits_eta]

theorem fmul_one {x : F64} (hx : isFinite x = true) : fmul x one = x := by
  have hround : roundDiv (units x * units one) oneUnits = magBits x := by
    rw [show units one = oneUnits from unitsOfMag_one]
    exact roundDiv_unitsOfMag oneUnits_pos ((isFinite_iff x).1 hx)
  rw [fmul_finite hx isFinite_one, hround, signBit_one, Bool.bne_false, packBits_eta]

/-- A product with zero is a zero, of either sign. -/
theorem fmul_zero_value {x : F64} (hx : isFinite x = true) :
    isFinite (fmul x zero) = true ∧ signedUnits (fmul x zero) = 0 := by
  obtain ⟨hfin, hlo, hhi⟩ := fmul_between (lo := zero) (hi := zero) hx isFinite_zero isFinite_zero isFinite_zero
    (by rw [signedUnits_zero, mul_zero, zero_mul]) (by rw [signedUnits_zero, mul_zero, zero_mul])
  rw [signedUnits_zero] at hlo hhi
  exact ⟨hfin, le_antisymm hhi hlo⟩

theorem fdiv_zero_value {x : F64} (hx : isFinite x = true) (hpos : 0 < signedUnits x) :
    isFinite (fdiv zero x) = true ∧ signedUnits (fdiv zero x) = 0 := by
  obtain ⟨hfin, hlo, hhi⟩ := fdiv_between (lo := zero) (hi := zero) isFinite_zero hx isFinite_zero isFinite_zero hpos
    (by rw [signedUnits_zero, zero_mul, zero_mul]) (by rw [signedUnits_zero, zero_mul, zero_mul])
  rw [signedUnits_zero] at hlo hhi
  exact ⟨hfin, le_antisymm hhi hlo⟩

theorem fadd_zero_value {x z : F64} (hx : isFinite x = true) (hz : isFinite z = true) (h0 : signedUnits z = 0) :
    isFinite (fadd x z) = true ∧ signedUnits (fadd x z) = signedUnits x := by
  have hexact := fadd_exact hx hz ((isFinite_iff x).1 hx) (by rw [h0, add_zero, natAbs_signedUnits]; rfl)
  rwa [h0, add_zero] at hexact

theorem one_fsub_zero_value {z : F64} (hz : isFinite z = true) (h0 : signedUnits z = 0) : fsub one z = one := by
  have hone : signedUnits one ≠ 0 := by decide +kernel
  obtain ⟨hfin, hvalue⟩ := fsub_exact isFinite_one hz ((isFinite_iff one).1 isFinite_one)
    (by rw [h0, sub_zero, natAbs_signedUnits]; rfl)
  rw [h0, sub_zero] at hvalue
  exact eq_of_signedUnits hfin isFinite_one hvalue (by rwa [hvalue])

theorem fsqrt_one : fsqrt one = one := by decide +kernel

/-! ### The ease curve (R131) -/

/-- With the whole time left the curve is at its start. -/
theorem ease_start {start target total : F64} (hs : isFinite start = true) (hd : isFinite (fsub target start) = true)
    (ht : isFinite total = true) (hpos : 0 < signedUnits total) :
    isFinite (ease start target total total) = true ∧
      signedUnits (ease start target total total) = signedUnits start := by
  have hroot : fsqrt (fsub one (fdiv total total)) = zero := by
    rw [fdiv_self ht hpos, fsub_self isFinite_one, fsqrt_zero_value isFinite_zero (by decide)]
  obtain ⟨hfin, hvalue⟩ := fmul_zero_value hd
  rw [ease, hroot]
  exact fadd_zero_value hs hfin hvalue

/-- With no time left the whole difference is added to the start. -/
theorem ease_end {start target total : F64} (hd : isFinite (fsub target start) = true) (ht : isFinite total = true)
    (hpos : 0 < signedUnits total) : ease start target zero total = fadd start (fsub target start) := by
  obtain ⟨hfin, hvalue⟩ := fdiv_zero_value ht hpos
  rw [ease, one_fsub_zero_value hfin hvalue, fsqrt_one, fmul_one hd]

/-- Settles O30. -/
theorem easeCurveAndItsEnds : Obligations.EaseCurveAndItsEnds := by
  refine ⟨fun _ _ _ _ => rfl, fun start target total hs _ hd ht hpos => ?_⟩
  have hpos' := (flt_zero_iff ht).1 hpos
  obtain ⟨hfin, hvalue⟩ := ease_start hs hd ht hpos'
  exact ⟨(feq_iff hfin hs).2 hvalue, ease_end hd ht hpos'⟩

/-! ### The value of a stage (R132) -/

section

variable {r : Regs}

theorem stageValue_attack (h : r.stage = .attack) :
    stageValue r = ease r.envAtkStart one r.envTimeLeft r.envAttack := by rw [stageValue, h]

theorem stageValue_decay (h : r.stage = .decay) :
    stageValue r = ease one r.envSustain r.envTimeLeft r.envDecay := by rw [stageValue, h]

theorem stageValue_sustain (h : r.stage = .sustain) : stageValue r = r.envSustain := by rw [stageValue, h]

theorem stageValue_release (h : r.stage = .release) :
    stageValue r = ease r.envRelStart zero r.envTimeLeft r.envRelease := by rw [stageValue, h]

theorem stageValue_done (h : r.stage = .done) : stageValue r = zero := by rw [stageValue, h]

end

/-- Settles O32. -/
theorem stageValues : Obligations.StageValues :=
  fun _ => ⟨stageValue_attack, stageValue_decay, stageValue_sustain, stageValue_release, stageValue_done⟩

/-! ### One step (R133, R134) -/

/-- The time of a stage less one sample period, as R133 takes it. -/
def Regs.decremented (sr : F64) (r : Regs) : Regs := { r with envTimeLeft := fsub r.envTimeLeft (fdiv one sr) }

section

variable {r : Regs}

theorem overdue_timed (h : r.stage.timed = true) : overdue r = flt r.envTimeLeft zero := by
  rw [overdue, h, Bool.true_and]

theorem overdue_untimed (h : r.stage.timed = false) : overdue r = false := by rw [overdue, h, Bool.false_and]

theorem passStages_not_overdue (fuel : Nat) (h : overdue r = false) : passStages fuel r = r := by
  cases fuel with
  | zero => rfl
  | succ fuel => rw [passStages, h, if_neg Bool.false_ne_true]

theorem passStages_overdue (fuel : Nat) (h : overdue r = true) :
    passStages (fuel + 1) r = passStages fuel (leaveStage r) := by rw [passStages, if_pos h]

theorem leaveStage_attack (h : r.stage = .attack) :
    leaveStage r = { r with stage := .decay, envTimeLeft := fadd r.envTimeLeft r.envDecay } := by rw [leaveStage, h]

theorem leaveStage_decay (h : r.stage = .decay) : leaveStage r = { r with stage := .sustain } := by rw [leaveStage, h]

theorem leaveStage_release (h : r.stage = .release) : leaveStage r = { r with stage := .done } := by rw [leaveStage, h]

variable {sr : F64}

theorem envAdvance_untimed (h : r.stage.timed = false) : envAdvance sr r = r := by
  rw [envAdvance, h, if_neg Bool.false_ne_true]

theorem envAdvance_timed (h : r.stage.timed = true) : envAdvance sr r = passStages 2 (r.decremented sr) := if_pos h

theorem envAdvance_stays (h : r.stage.timed = true) (ht : flt (fsub r.envTimeLeft (fdiv one sr)) zero = false) :
    envAdvance sr r = r.decremented sr := by
  rw [envAdvance_timed h, passStages_not_overdue]
  rw [overdue_timed (r := r.decremented sr) h]
  exact ht

theorem envAdvance_overdue (h : r.stage.timed = true) (ht : flt (fsub r.envTimeLeft (fdiv one sr)) zero = true) :
    envAdvance sr r = passStages 1 (leaveStage (r.decremented sr)) := by
  rw [envAdvance_timed h, passStages_overdue]
  rw [overdue_timed (r := r.decremented sr) h]
  exact ht

/-- ATTACK carries its overshoot into DECAY (R134), and is passed by SUSTAIN where the decay is used up too. -/
theorem envAdvance_attack (h : r.stage = .attack) (ht : flt (fsub r.envTimeLeft (fdiv one sr)) zero = true) :
    envAdvance sr r =
      { r with
        stage := if flt (fadd (fsub r.envTimeLeft (fdiv one sr)) r.envDecay) zero = true then .sustain else .decay
        envTimeLeft := fadd (fsub r.envTimeLeft (fdiv one sr)) r.envDecay } := by
  have hleave := leaveStage_attack (r := r.decremented sr) h
  have hover : overdue (leaveStage (r.decremented sr)) =
      flt (fadd (fsub r.envTimeLeft (fdiv one sr)) r.envDecay) zero := by
    rw [hleave]
    exact overdue_timed rfl
  rw [envAdvance_overdue (by rw [h]; rfl) ht]
  cases hd : flt (fadd (fsub r.envTimeLeft (fdiv one sr)) r.envDecay) zero with
  | false =>
    rw [passStages_not_overdue 1 (hover.trans hd), hleave, if_neg Bool.false_ne_true]
    rfl
  | true =>
    rw [passStages_overdue 0 (hover.trans hd), hleave, leaveStage_decay rfl, if_pos rfl]
    rfl

theorem envAdvance_decay (h : r.stage = .decay) (ht : flt (fsub r.envTimeLeft (fdiv one sr)) zero = true) :
    envAdvance sr r = { r.decremented sr with stage := .sustain } := by
  rw [envAdvance_overdue (by rw [h]; rfl) ht, leaveStage_decay (r := r.decremented sr) h]
  exact passStages_not_overdue 1 (overdue_untimed rfl)

theorem envAdvance_release (h : r.stage = .release) (ht : flt (fsub r.envTimeLeft (fdiv one sr)) zero = true) :
    envAdvance sr r = { r.decremented sr with stage := .done } := by
  rw [envAdvance_overdue (by rw [h]; rfl) ht, leaveStage_release (r := r.decremented sr) h]
  exact passStages_not_overdue 1 (overdue_untimed rfl)

theorem envNext_of_advance {r' : Regs} (h : envAdvance sr r = r') :
    envNext sr r = ({ r' with envValue := stageValue r' }, stageValue r') := by rw [envNext, h]

end

/-- Settles O31, one clause for each way through the loop of R133. -/
theorem envelopeStep : Obligations.EnvelopeStep := by
  intro sr r
  refine ⟨fun h => envNext_of_advance (envAdvance_untimed ?_), ?_⟩
  · obtain h | h := h <;> rw [h] <;> rfl
  · rintro t rfl
    refine ⟨fun h ht => ⟨_, rfl, envNext_of_advance (envAdvance_stays ?_ ht)⟩, fun h ht hd => ⟨_, rfl, ?_⟩,
      fun h ht hd => ?_, fun h ht => envNext_of_advance (envAdvance_decay h ht),
      fun h ht => envNext_of_advance (envAdvance_release h ht)⟩
    · obtain h | h | h := h <;> rw [h] <;> rfl
    · have hadvance := envAdvance_attack h ht
      rw [hd, if_neg Bool.false_ne_true] at hadvance
      exact envNext_of_advance hadvance
    · have hadvance := envAdvance_attack h ht
      rw [hd, if_pos rfl] at hadvance
      exact envNext_of_advance hadvance

/-! ### NOTE_OFF (R136, R138) -/

section

variable {r : Regs}

theorem releaseVoice_begins (h : r.stage = .attack ∨ r.stage = .decay ∨ r.stage = .sustain) :
    releaseVoice r = beginRelease r := by
  obtain h | h | h := h <;> rw [releaseVoice, h]

theorem releaseVoice_keeps (h : r.stage = .release ∨ r.stage = .done) : releaseVoice r = r := by
  obtain h | h := h <;> rw [releaseVoice, h]

theorem noteOffEffect_served (hlive : r.live = true) : noteOffEffect r.note r = .accept (releaseVoice r) 0#64 := by
  simp [noteOffEffect, hlive]

theorem noteOffEffect_other {n : Note} (hlive : r.live = true) (hn : n ≠ r.note) :
    noteOffEffect n r = .reject .noteMismatch := by
  simp [noteOffEffect, hlive, hn]

end

/-- Settles O23. -/
theorem noteOffBeginsTheRelease : Obligations.NoteOffBeginsTheRelease := by
  refine ⟨fun s hlive hs => ?_, fun s hlive hs => ?_, fun s n hfree => ?_, fun s n hlive hn => ?_⟩ <;>
    rw [exec_eq, commandEffect]
  · rw [noteOffEffect_served hlive, releaseVoice_begins hs]
    rfl
  · rw [noteOffEffect_served hlive, releaseVoice_keeps hs]
    rfl
  · rw [noteOffEffect_free hfree]
    rfl
  · rw [noteOffEffect_other hlive hn]
    rfl

/-- The value a frame leaves is that of the stage it leaves. -/
theorem voiceNext_envValue (c : Config) (sr : F64) (r : Regs) :
    (voiceNext c sr r).1.envValue = stageValue (voiceNext c sr r).1 := rfl

/-- A timed stage whose time does not cross zero goes on, one sample period shorter. -/
theorem voiceNext_stays {c : Config} {sr : F64} {r : Regs} (h : r.stage.timed = true)
    (ht : flt (fsub r.envTimeLeft (fdiv one sr)) zero = false) :
    (voiceNext c sr r).1.stage = r.stage ∧
      (voiceNext c sr r).1.envTimeLeft = fsub r.envTimeLeft (fdiv one sr) := by
  have hadvance := envAdvance_stays (r := (oscNext c sr r).1) (sr := sr) (by simpa using h) (by simpa using ht)
  simp [voiceNext, hadvance, Regs.decremented]

/-- Settles O33. The release begins with its whole time left and with the value before as its start. -/
theorem firstReleaseSample : Obligations.FirstReleaseSample := by
  intro c sr r hs ht
  rw [releaseVoice_begins hs]
  obtain ⟨hstage, htime⟩ := voiceNext_stays (c := c) (sr := sr) (r := beginRelease r) rfl ht
  refine ⟨hstage, ?_⟩
  rw [voiceNext_envValue, stageValue_release hstage, htime, voiceNext_envRelStart, voiceNext_envRelease]
  rfl

/-! ### DONE (R139) -/

theorem pruneEffect_done {r : Regs} (hlive : r.live = true) (hs : r.stage = .done) :
    pruneEffect r = .accept { r with live := false } 0#64 := by
  simp [pruneEffect, hlive, hs]

theorem envAdvance_done {r : Regs} (sr : F64) (hs : r.stage = .done) : envAdvance sr r = r :=
  envAdvance_untimed (by rw [hs]; rfl)

/-- Settles O42. Of the moves that O41 leaves, only NOTE_ON's starts in DONE. -/
theorem doneIsTerminal : Obligations.DoneIsTerminal := by
  refine ⟨fun i s t hs h hon => ?_, fun sr r hs => ?_, fun s hlive hs => ?_⟩
  · by_contra hne
    obtain ⟨-, n, v, hi⟩ | ⟨-, hnot, -⟩ | ⟨_, -, hmove⟩ := stageMovesOnlyAlongTheMachine i s t h (by rwa [hs])
    · exact hon n v hi
    · exact hnot hs
    · simp [hs] at hmove
  · rw [envNext_of_advance (envAdvance_done sr hs)]
    exact ⟨stageValue_done hs, hs⟩
  · rw [exec_eq, commandEffect, pruneEffect_done hlive hs]
    rfl

end Sys2Proof.Machine
end

section
/-! PROOF. How long a timed stage lasts (41_envelope.md R133, R137, R139; 42_voice.md R172): the time left, one sample
period taken off at each TICK, decides the stage alone, so what remains is arithmetic on that time. -/

namespace Sys2Proof.Machine

open Sys2Proof.Claims

/-! ### The stages of a run of TICKs -/

/-- The time left of a stage after `k` sample periods have been taken off. -/
def countdown (sr t : F64) (k : Nat) : F64 := (fun x => fsub x (fdiv one sr))^[k] t

theorem countdown_zero (sr t : F64) : countdown sr t 0 = t := rfl

theorem countdown_succ (sr t : F64) (k : Nat) : countdown sr t (k + 1) = fsub (countdown sr t k) (fdiv one sr) :=
  Function.iterate_succ_apply' _ _ _

theorem afterTicks_succ (c : Config) (sr : F64) (k : Nat) (r : Regs) :
    afterTicks c sr (k + 1) r = (voiceNext c sr (afterTicks c sr k r)).1 :=
  Function.iterate_succ_apply' _ _ _

/-- What one frame keeps, any number of frames keeps. -/
theorem afterTicks_keeps {α : Type} (f : Regs → α) {c : Config} {sr : F64} (hf : ∀ r, f (voiceNext c sr r).1 = f r)
    (k : Nat) (r : Regs) : f (afterTicks c sr k r) = f r := by
  induction k with
  | zero => rfl
  | succ k ih => rw [afterTicks_succ, hf, ih]

theorem afterTicks_succ_envValue (c : Config) (sr : F64) (k : Nat) (r : Regs) :
    (afterTicks c sr (k + 1) r).envValue = stageValue (afterTicks c sr (k + 1) r) := by
  rw [afterTicks_succ, voiceNext_envValue]

/-- From the second arrow of the machine on there is none left. -/
theorem Stage.next_next_next (s : Stage) : s.next.next.next = s.next.next := by cases s <;> rfl

/-- A timed stage whose time crosses zero is left. -/
theorem voiceNext_leaves {c : Config} {sr : F64} {r : Regs} (h : r.stage.timed = true)
    (ht : flt (fsub r.envTimeLeft (fdiv one sr)) zero = true) :
    (voiceNext c sr r).1.stage = r.stage.next ∨ (voiceNext c sr r).1.stage = r.stage.next.next := by
  have hadvance := envAdvance_overdue (r := (oscNext c sr r).1) (sr := sr) (by simpa using h) (by simpa using ht)
  simp only [voiceNext, envNext_stage, hadvance, passStages]
  split <;> simp [leaveStage_stage, Regs.decremented]

section

variable {c : Config} {sr : F64} {r : Regs}

/-- While the time does not cross zero the stage stays, and the time is the countdown's. -/
theorem afterTicks_stays (h : r.stage.timed = true) {n : Nat}
    (hstay : ∀ k, k < n → flt (countdown sr r.envTimeLeft (k + 1)) zero = false) {k : Nat} (hk : k ≤ n) :
    (afterTicks c sr k r).stage = r.stage ∧ (afterTicks c sr k r).envTimeLeft = countdown sr r.envTimeLeft k := by
  induction k with
  | zero => exact ⟨rfl, rfl⟩
  | succ k ih =>
    obtain ⟨hstage, htime⟩ := ih (by omega)
    have hcross := hstay k (by omega)
    rw [countdown_succ, ← htime] at hcross
    obtain ⟨hstage', htime'⟩ := voiceNext_stays (c := c) (by rwa [hstage]) hcross
    rw [afterTicks_succ, countdown_succ, ← htime]
    exact ⟨hstage'.trans hstage, htime'⟩

/-- Once the time has crossed zero the stage has been left, and no TICK brings it back. -/
theorem afterTicks_left (h : r.stage.timed = true) {n : Nat}
    (hstay : ∀ k, k < n → flt (countdown sr r.envTimeLeft (k + 1)) zero = false)
    (hend : flt (countdown sr r.envTimeLeft (n + 1)) zero = true) {k : Nat} (hk : n < k) :
    (afterTicks c sr k r).stage = r.stage.next ∨ (afterTicks c sr k r).stage = r.stage.next.next := by
  induction k, hk using Nat.le_induction with
  | base =>
    obtain ⟨hstage, htime⟩ := afterTicks_stays (c := c) h hstay le_rfl
    rw [countdown_succ, ← htime] at hend
    have hleft := voiceNext_leaves (c := c) (by rwa [hstage]) hend
    rw [hstage] at hleft
    rwa [Nat.succ_eq_add_one, afterTicks_succ]
  | succ k _ ih =>
    have hmove := voiceNext_stage c sr (afterTicks c sr k r)
    rw [afterTicks_succ]
    obtain hone | htwo := ih
    · rw [hone, Stage.next_next_next] at hmove
      exact hmove.imp_right (·.elim id id)
    · rw [htwo, Stage.next_next_next, Stage.next_next_next] at hmove
      exact .inr (hmove.elim id (·.elim id id))

end

/-! ### The sample period -/

theorem signedUnits_rate_max : signedUnits 0x4170000000000000#64 = 2 ^ 24 * (oneUnits : Int) := by decide +kernel

/-- An integer rate from 1 to 2^24 is an accepted sample rate. -/
theorem validSr_of_integer_rate {sr : F64} {rate : Nat} (h1 : 1 ≤ rate) (h2 : rate ≤ 2 ^ 24)
    (hsr : isFinite sr = true) (hrate : signedUnits sr = rate * oneUnits) : validSr reference sr = true := by
  have hone : (0 : Int) < oneUnits := Int.ofNat_lt.2 oneUnits_pos
  have hlo : (1 : Int) ≤ rate := by exact_mod_cast h1
  have hhi : (rate : Int) ≤ 2 ^ 24 := by exact_mod_cast h2
  rw [validSr_iff_goodRate]
  refine ⟨hsr, (fle_iff isFinite_one hsr).2 ?_, (fle_iff hsr (by decide)).2 ?_⟩
  · rw [signedUnits_one, hrate]
    exact le_mul_of_one_le_left hone.le hlo
  · rw [signedUnits_rate_max, hrate]
    exact mul_le_mul_of_nonneg_right hhi hone.le

/-- The period at an integer rate is one rounded quotient. -/
theorem signedUnits_period {sr : F64} {rate : Nat} (h1 : 1 ≤ rate) (hsr : isFinite sr = true)
    (hrate : signedUnits sr = rate * oneUnits) :
    signedUnits (fdiv one sr) = unitsOfMag (roundDiv (oneUnits * oneUnits) (rate * oneUnits)) := by
  have hpos : 0 < rate * oneUnits := Nat.mul_pos h1 oneUnits_pos
  rw [← Nat.cast_mul] at hrate
  have hunits : units sr = rate * oneUnits := by rw [← natAbs_signedUnits, hrate, Int.natAbs_natCast]
  have hsign : signBit sr = false := signBit_of_pos (by rw [hrate]; exact Int.ofNat_lt.2 hpos)
  rw [fdiv_finite isFinite_one hsr (by rw [hunits]; exact hpos.ne'), hunits, hsign, signBit_one, bne_self_eq_false,
    show units one = oneUnits from unitsOfMag_one,
    signedUnits_packBits _ ((roundDiv_le_infMag _ _).trans_lt infMag_lt), if_neg Bool.false_ne_true]

/-- `rate` rounded periods make 1.0 second, but for the rounding of each. -/
theorem period_error {sr : F64} {rate : Nat} (h1 : 1 ≤ rate) (hsr : isFinite sr = true)
    (hrate : signedUnits sr = rate * oneUnits) :
    |rate * signedUnits (fdiv one sr) - oneUnits| ≤ rate * (2 ^ 1020 : Nat) := by
  obtain ⟨hup, hlow⟩ := roundDiv_error (n := oneUnits * oneUnits) (Nat.mul_pos h1 oneUnits_pos)
    (Nat.mul_le_mul_left _ (Nat.le_mul_of_pos_left _ h1))
  rw [signedUnits_period h1 hsr hrate]
  have hpos := oneUnits_pos
  generalize unitsOfMag (roundDiv (oneUnits * oneUnits) (rate * oneUnits)) = D at *
  generalize 2 ^ 1020 = e at *
  generalize oneUnits = u at *
  have hup' : rate * D ≤ u + rate * e := Nat.le_of_mul_le_mul_right (by linarith) hpos
  have hlow' : u ≤ rate * D + rate * e := Nat.le_of_mul_le_mul_right (by linarith) hpos
  zify at hup' hlow'
  rw [abs_le]
  constructor <;> linarith

theorem oneUnits_split {j : Nat} (hj : j ≤ 24) : oneUnits = 2 ^ (1074 - j) * 2 ^ j := by
  rw [oneUnits, ← pow_add]
  congr 1
  omega

/-- At a rate 2^j the period is exact. -/
theorem signedUnits_period_pow {sr : F64} {j : Nat} (hj : j ≤ 24) (hsr : isFinite sr = true)
    (hrate : signedUnits sr = 2 ^ j * oneUnits) : signedUnits (fdiv one sr) = (2 ^ (1074 - j) : Nat) := by
  obtain ⟨m, hm, hunits⟩ := exists_mag_of_mul_pow (sig := 1) (k := 1074 - j) (by norm_num) (by omega)
  rw [one_mul] at hunits
  have hround : roundDiv (oneUnits * oneUnits) (2 ^ j * oneUnits) = m := by
    rw [show oneUnits * oneUnits = unitsOfMag m * (2 ^ j * oneUnits) by rw [hunits, ← mul_assoc, ← oneUnits_split hj]]
    exact roundDiv_unitsOfMag (Nat.mul_pos (Nat.two_pow_pos j) oneUnits_pos) hm
  rw [signedUnits_period (rate := 2 ^ j) Nat.one_le_two_pow hsr (by rw [hrate]; push_cast; rfl), hround, hunits]

/-- A time at or above zero and shorter than one period crosses zero. -/
theorem fsub_period_crosses {tl sr : F64} (htl : isFinite tl = true) (h0 : 0 ≤ signedUnits tl)
    (hsr : validSr reference sr = true) (h1 : signedUnits tl < signedUnits (fdiv one sr)) :
    flt (fsub tl (fdiv one sr)) zero = true := by
  obtain ⟨hp, -, hp1⟩ := period_bounds hsr
  rw [flt_iff (fsub_period htl h0 hsr).1 isFinite_zero, signedUnits_zero, fsub_finite htl hp]
  refine fadd_neg htl (by simpa using hp) (lo := fneg one) (by simp) ?_ ?_ <;> rw [signedUnits_fneg (fdiv one sr)]
  · rw [signedUnits_fneg_one]
    linarith
  · linarith

/-! ### A time of whole periods, at a rate 2^j -/

/-- Whole periods come off exactly, down to zero. -/
theorem countdown_exact {sr t : F64} {j m : Nat} (hp : isFinite (fdiv one sr) = true)
    (hperiod : signedUnits (fdiv one sr) = (2 ^ (1074 - j) : Nat)) (hm : m < 2 ^ 53) (ht : isFinite t = true)
    (htime : signedUnits t = m * (2 ^ (1074 - j) : Nat)) {k : Nat} (hk : k ≤ m) :
    isFinite (countdown sr t k) = true ∧ signedUnits (countdown sr t k) = (m - k : Nat) * (2 ^ (1074 - j) : Nat) := by
  induction k with
  | zero => exact ⟨ht, htime⟩
  | succ k ih =>
    obtain ⟨hfin, hvalue⟩ := ih (by omega)
    obtain ⟨mag, hmag, hunits⟩ := exists_mag_of_mul_pow (sig := m - (k + 1)) (k := 1074 - j) (by omega) (by omega)
    have hdiff : signedUnits (countdown sr t k) - signedUnits (fdiv one sr) =
        (m - (k + 1) : Nat) * (2 ^ (1074 - j) : Nat) := by
      rw [hvalue, hperiod, show m - k = m - (k + 1) + 1 by omega]
      push_cast
      ring
    rw [countdown_succ, ← hdiff]
    refine fsub_exact hfin hp hmag ?_
    rw [hdiff, hunits, ← Nat.cast_mul, Int.natAbs_natCast]

/-- A time of `m` periods does not cross zero at the first `m` TICKs, and does at the next. -/
theorem countdown_crosses {sr t : F64} {j m : Nat} (hsr : validSr reference sr = true)
    (hperiod : signedUnits (fdiv one sr) = (2 ^ (1074 - j) : Nat)) (hm : m < 2 ^ 53) (ht : isFinite t = true)
    (htime : signedUnits t = m * (2 ^ (1074 - j) : Nat)) :
    (∀ k, k < m → flt (countdown sr t (k + 1)) zero = false) ∧ flt (countdown sr t (m + 1)) zero = true := by
  obtain ⟨hp, hp0, -⟩ := period_bounds hsr
  constructor
  · intro k hk
    obtain ⟨hfin, hvalue⟩ := countdown_exact hp hperiod hm ht htime hk
    rw [flt_false_iff hfin isFinite_zero, signedUnits_zero, hvalue, ← Nat.cast_mul]
    exact Int.natCast_nonneg _
  · obtain ⟨hfin, hvalue⟩ := countdown_exact hp hperiod hm ht htime le_rfl
    rw [Nat.sub_self, Nat.cast_zero, zero_mul] at hvalue
    rw [countdown_succ]
    exact fsub_period_crosses hfin hvalue.ge hsr (by rwa [hvalue])

/-- The last of the whole periods leaves +0.0. -/
theorem countdown_ends {sr t : F64} {j m : Nat} (hp : isFinite (fdiv one sr) = true)
    (hperiod : signedUnits (fdiv one sr) = (2 ^ (1074 - j) : Nat)) (hm : m + 1 < 2 ^ 53) (ht : isFinite t = true)
    (htime : signedUnits t = (m + 1 : Nat) * (2 ^ (1074 - j) : Nat)) : countdown sr t (m + 1) = zero := by
  obtain ⟨hfin, hvalue⟩ := countdown_exact hp hperiod hm ht htime (Nat.le_succ m)
  rw [Nat.add_sub_cancel_left, Nat.cast_one, one_mul] at hvalue
  have hlast : countdown sr t m = fdiv one sr := eq_of_signedUnits hfin hp (hvalue.trans hperiod.symm)
    (by rw [hvalue]; exact Nat.cast_ne_zero.2 (pow_ne_zero _ two_ne_zero))
  rw [countdown_succ, hlast, fsub_self hp]

/-- A time of `m` periods, in units, from the statements' product. -/
theorem whole_periods_units {t : F64} {j m : Nat} (hj : j ≤ 24) (h : signedUnits t * 2 ^ j = m * oneUnits) :
    signedUnits t = m * (2 ^ (1074 - j) : Nat) := by
  rw [oneUnits_split hj, Nat.cast_mul, ← mul_assoc, Nat.cast_pow 2 j, Nat.cast_ofNat] at h
  exact mul_right_cancel₀ (pow_ne_zero j two_ne_zero) h

/-- Settles O58. The release's only way on is DONE, which PRUNE frees. -/
theorem releaseEndsAndIsPruned : Obligations.ReleaseEndsAndIsPruned := by
  intro c sr j m r hj hsr hrate hm ht htime hs hlive
  have hvalid : validSr reference sr = true := validSr_of_integer_rate (rate := 2 ^ j) Nat.one_le_two_pow
    (Nat.pow_le_pow_right two_pos hj) hsr (by rw [hrate]; push_cast; rfl)
  obtain ⟨hstay, hend⟩ := countdown_crosses hvalid (signedUnits_period_pow hj hsr hrate) hm ht
    (whole_periods_units hj htime)
  have htimed : r.stage.timed = true := by rw [hs]; rfl
  refine ⟨fun k hk => (afterTicks_stays htimed hstay hk).1.trans hs, fun k hk => ?_⟩
  have hdone : (afterTicks c sr k r).stage = .done := by
    have hleft := afterTicks_left (c := c) htimed hstay hend hk
    rw [hs] at hleft
    exact hleft.elim id id
  obtain ⟨k, rfl⟩ : ∃ k', k = k' + 1 := ⟨k - 1, by omega⟩
  refine ⟨hdone, ?_, pruneEffect_done ?_ hdone⟩
  · rw [afterTicks_succ_envValue, stageValue_done hdone]
  · exact (afterTicks_keeps Regs.live (voiceNext_live c sr) _ r).trans hlive

/-! ### One second at an integer rate -/

section

variable {sr : F64} {rate : Nat} (h1 : 1 ≤ rate) (h2 : rate ≤ 2 ^ 24) (hsr : isFinite sr = true)
  (hrate : signedUnits sr = rate * oneUnits)

include h1 h2 hsr hrate

/-- One period exceeds twice all the roundings of a second together: there are at most 2^24, of 2^1020 units each. -/
theorem roundings_lt_period : 2 * (rate * (2 ^ 1020 : Nat)) < signedUnits (fdiv one sr) := by
  obtain ⟨hlow, -⟩ := abs_le.1 (period_error h1 hsr hrate)
  have hroom : (2 ^ 24 * (2 * (2 ^ 24 * (2 ^ 1020 : Nat))) + 2 ^ 24 * (2 ^ 1020 : Nat) : Int) < oneUnits := by
    decide +kernel
  have h2' : (rate : Int) ≤ 2 ^ 24 := by exact_mod_cast h2
  have h1' : (1 : Int) ≤ rate := by exact_mod_cast h1
  have he : (0 : Int) ≤ (2 ^ 1020 : Nat) := Int.natCast_nonneg _
  generalize ((2 ^ 1020 : Nat) : Int) = e at *
  generalize signedUnits (fdiv one sr) = D at *
  by_contra hle
  have hscaled : rate * D ≤ rate * (2 * (rate * e)) := mul_le_mul_of_nonneg_left (not_lt.1 hle) (by omega)
  have hre : rate * e ≤ 2 ^ 24 * e := mul_le_mul_of_nonneg_right h2' he
  have hrre : rate * (2 * (rate * e)) ≤ 2 ^ 24 * (2 * (2 ^ 24 * e)) :=
    mul_le_mul h2' (by linarith) (by positivity) (by norm_num)
  linarith

/-- Over the first second the countdown from 1.0 keeps within one rounding a period of the exact time. -/
theorem countdown_second {k : Nat} (hk : k ≤ rate) :
    isFinite (countdown sr one k) = true ∧
      |signedUnits (countdown sr one k) - (oneUnits - k * signedUnits (fdiv one sr))| ≤ k * (2 ^ 1020 : Nat) := by
  obtain ⟨hp, hp0, hp1⟩ := period_bounds (validSr_of_integer_rate h1 h2 hsr hrate)
  obtain ⟨-, hup⟩ := abs_le.1 (period_error h1 hsr hrate)
  have hsmall := roundings_lt_period h1 h2 hsr hrate
  have he : (0 : Int) ≤ (2 ^ 1020 : Nat) := Int.natCast_nonneg _
  induction k with
  | zero =>
    rw [countdown_zero, signedUnits_one, Nat.cast_zero, zero_mul, zero_mul, sub_zero, sub_self, abs_zero]
    exact ⟨isFinite_one, le_rfl⟩
  | succ k ih =>
    obtain ⟨hfin, herr⟩ := ih (by omega)
    obtain ⟨hlo, hhi⟩ := abs_le.1 herr
    have hk' : (k + 1 : Int) ≤ rate := by exact_mod_cast hk
    have hrange : |signedUnits (countdown sr one k) - signedUnits (fdiv one sr)| ≤ oneUnits := by
      generalize ((2 ^ 1020 : Nat) : Int) = e at *
      generalize signedUnits (fdiv one sr) = D at *
      have hkD : (k + 1) * D ≤ rate * D := mul_le_mul_of_nonneg_right hk' hp0.le
      have hke : k * e ≤ rate * e := mul_le_mul_of_nonneg_right (by linarith) he
      have hkD0 : 0 ≤ k * D := mul_nonneg (Int.natCast_nonneg k) hp0.le
      rw [abs_le]
      constructor <;> linarith
    obtain ⟨hbelow, habove⟩ := abs_le.1 hrange
    obtain ⟨hfin', -⟩ := fsub_between (lo := fneg one) (hi := one) hfin hp (by simp) isFinite_one
      (by rw [signedUnits_fneg_one]; exact hbelow) (by rw [signedUnits_one]; exact habove)
    obtain ⟨hlo', hhi'⟩ := abs_le.1 (fsub_error hfin hp hrange)
    rw [countdown_succ]
    refine ⟨hfin', abs_le.2 ?_⟩
    rw [Nat.cast_succ]
    generalize ((2 ^ 1020 : Nat) : Int) = e at *
    constructor <;> linarith

/-- Before the last of the second's samples more than the roundings is left. -/
theorem countdown_second_stays {k : Nat} (hk : k < rate) : flt (countdown sr one k) zero = false := by
  obtain ⟨hp, hp0, -⟩ := period_bounds (validSr_of_integer_rate h1 h2 hsr hrate)
  obtain ⟨-, hup⟩ := abs_le.1 (period_error h1 hsr hrate)
  have hsmall := roundings_lt_period h1 h2 hsr hrate
  obtain ⟨hfin, herr⟩ := countdown_second h1 h2 hsr hrate hk.le
  obtain ⟨hlo, -⟩ := abs_le.1 herr
  have he : (0 : Int) ≤ (2 ^ 1020 : Nat) := Int.natCast_nonneg _
  rw [flt_false_iff hfin isFinite_zero, signedUnits_zero]
  generalize ((2 ^ 1020 : Nat) : Int) = e at *
  generalize signedUnits (fdiv one sr) = D at *
  have hk' : (k + 1 : Int) ≤ rate := by exact_mod_cast hk
  have hkD : (k + 1) * D ≤ rate * D := mul_le_mul_of_nonneg_right hk' hp0.le
  have hke : k * e ≤ rate * e := mul_le_mul_of_nonneg_right (by linarith) he
  linarith

/-- After the second's samples less than one more period is left. -/
theorem countdown_second_lt_period : signedUnits (countdown sr one rate) < signedUnits (fdiv one sr) := by
  obtain ⟨hlow, -⟩ := abs_le.1 (period_error h1 hsr hrate)
  have hsmall := roundings_lt_period h1 h2 hsr hrate
  obtain ⟨-, herr⟩ := countdown_second h1 h2 hsr hrate le_rfl
  obtain ⟨-, hhi⟩ := abs_le.1 herr
  linarith

/-- One second of time crosses zero at the TICK after the last of `rate` or `rate - 1` samples. -/
theorem countdown_second_crosses :
    ∃ n, (n = rate ∨ n + 1 = rate) ∧ (∀ k, k < n → flt (countdown sr one (k + 1)) zero = false) ∧
      flt (countdown sr one (n + 1)) zero = true := by
  cases hlast : flt (countdown sr one rate) zero with
  | true =>
    obtain ⟨n, rfl⟩ : ∃ n, rate = n + 1 := ⟨rate - 1, by omega⟩
    exact ⟨n, .inr rfl, fun k hk => countdown_second_stays h1 h2 hsr hrate (by omega), hlast⟩
  | false =>
    have hfin := (countdown_second h1 h2 hsr hrate le_rfl).1
    refine ⟨rate, .inl rfl, fun k hk => ?_, ?_⟩
    · obtain hlt | rfl := Nat.lt_or_eq_of_le (Nat.succ_le_of_lt hk)
      · exact countdown_second_stays h1 h2 hsr hrate hlt
      · exact hlast
    · rw [flt_false_iff hfin isFinite_zero, signedUnits_zero] at hlast
      rw [countdown_succ]
      exact fsub_period_crosses hfin hlast (validSr_of_integer_rate h1 h2 hsr hrate)
        (countdown_second_lt_period h1 h2 hsr hrate)

end

/-- An attack lasts until its time crosses zero, and does not come back. -/
theorem attack_lasts {c : Config} {sr : F64} {r : Regs} (hs : r.stage = .attack) {n : Nat}
    (hstay : ∀ k, k < n → flt (countdown sr r.envTimeLeft (k + 1)) zero = false)
    (hend : flt (countdown sr r.envTimeLeft (n + 1)) zero = true) :
    (∀ k, k ≤ n → (afterTicks c sr k r).stage = .attack) ∧ (∀ k, n < k → (afterTicks c sr k r).stage ≠ .attack) := by
  have htimed : r.stage.timed = true := by rw [hs]; rfl
  refine ⟨fun k hk => (afterTicks_stays htimed hstay hk).1.trans hs, fun k hk => ?_⟩
  obtain hone | htwo := afterTicks_left (c := c) htimed hstay hend hk
  · rw [hone, hs]
    decide
  · rw [htwo, hs]
    decide

theorem ease_full : ease zero one zero one = one := by decide +kernel

/-- Settles O57. At any rate the roundings of a second together stay below one period; at a rate 2^j there are none. -/
theorem attackLastsOneSecondOfSamples : Obligations.AttackLastsOneSecondOfSamples := by
  intro c rate sr r h1 h2 hsr hrate hs hatk htime
  constructor
  · obtain ⟨n, hn, hstay, hend⟩ := countdown_second_crosses h1 h2 hsr hrate
    rw [← htime] at hstay hend
    exact ⟨n, hn, attack_lasts hs hstay hend⟩
  · rintro j rfl
    have hj : j ≤ 24 := (Nat.pow_le_pow_iff_right one_lt_two).1 h2
    have hvalid := validSr_of_integer_rate h1 h2 hsr hrate
    have hperiod := signedUnits_period_pow hj hsr (by rw [hrate]; push_cast; rfl)
    have hm : 2 ^ j < 2 ^ 53 := h2.trans_lt (by norm_num)
    have hunits : signedUnits one = (2 ^ j : Nat) * (2 ^ (1074 - j) : Nat) :=
      whole_periods_units hj (by rw [signedUnits_one, mul_comm]; push_cast; rfl)
    obtain ⟨hstay, hend⟩ := countdown_crosses hvalid hperiod hm isFinite_one hunits
    rw [← htime] at hstay hend
    obtain ⟨hattack, hleft⟩ := attack_lasts (c := c) hs hstay hend
    obtain ⟨last, hlast⟩ : ∃ last, 2 ^ j = last + 1 := ⟨2 ^ j - 1, by omega⟩
    have hzero : (afterTicks c sr (2 ^ j) r).envTimeLeft = zero := by
      rw [(afterTicks_stays (by rw [hs]; rfl) hstay le_rfl).2, htime, hlast]
      rw [hlast] at hm hunits
      exact countdown_ends (period_bounds hvalid).1 hperiod hm isFinite_one hunits
    refine ⟨hattack, hleft, hzero, fun hstart => ?_⟩
    have hvalue : (afterTicks c sr (2 ^ j) r).envValue = stageValue (afterTicks c sr (2 ^ j) r) := by
      rw [hlast, afterTicks_succ_envValue]
    have htotal := (afterTicks_keeps Regs.envAttack (voiceNext_envAttack c sr) (2 ^ j) r).trans hatk
    have hbegun := (afterTicks_keeps Regs.envAtkStart (voiceNext_envAtkStart c sr) (2 ^ j) r).trans hstart
    rw [hvalue, stageValue_attack (hattack _ le_rfl), hzero, htotal, hbegun, ease_full]

end Sys2Proof.Machine
end

section
/-! PROOF. The voice's commands (42_voice.md R161 to R171): NOP, PRUNE, NOTE_ON and TICK branch by branch, and that the
oscillator and the envelope, which a TICK advances, share no register. -/

namespace Sys2Proof.Machine

open Sys2Proof.Claims

/-! ### The answer of an effect -/

theorem exec_accepts {i : Instr} {s : State} {r : Regs} {data : BitVec 64}
    (h : commandEffect reference i s.regs = .accept r data) : exec i s = .next (okAnswer s r data) := by
  rw [exec_eq, h]
  rfl

theorem exec_rejects {i : Instr} {s : State} {code : ErrorCode} (h : commandEffect reference i s.regs = .reject code) :
    exec i s = .next (errAnswer s (errorCodeBits code)) := by
  rw [exec_eq, h]
  rfl

/-- A command without operands is rejected when its operand is not zero (30_encoding.md R83, R85). -/
theorem decode_nonzero_operand {i : Instr} (hform : i.form = .none) {x : BitVec 64} (hx : x ≠ 0#64) :
    decode (opcodeOf i ++ x) = .rejected .reservedOperand := by
  rw [decode_of_opcode (opcField_append _ _), operandField_append, hform, if_neg (hx ∘ eq_zero_of_clear)]

/-! ### NOP and PRUNE (R167, R168) -/

/-- Settles O16. -/
theorem nopChangesNothing : Obligations.NopChangesNothing :=
  ⟨fun _ => exec_accepts rfl, fun _ => decode_nonzero_operand (i := .nop) rfl⟩

theorem pruneEffect_not_done {r : Regs} (h : r.live = false ∨ r.stage ≠ .done) : pruneEffect r = .accept r 0#64 := by
  obtain hfree | hstage := h
  · exact pruneEffect_free hfree
  · simp [pruneEffect, hstage]

/-- Settles O17. -/
theorem pruneFreesADoneVoice : Obligations.PruneFreesADoneVoice :=
  ⟨fun _ hlive hs => exec_accepts (pruneEffect_done hlive hs), fun _ h => exec_accepts (pruneEffect_not_done h),
    fun _ => decode_nonzero_operand (i := .prune) rfl⟩

/-! ### NOTE_ON (R161 to R164, R171) -/

theorem validEnv_iff_goodEnv (r : Regs) : validEnv r = true ↔ goodEnv r := by
  simp [validEnv, validDuration, validLevel, goodEnv, goodDuration, goodLevel, and_assoc]

section

variable {c : Config} {r : Regs}

theorem noteOnEffect_served (v : Velocity) (hlive : r.live = true) (hv : validEnv r = true) :
    noteOnEffect c r.note v r = .accept (beginAttack (retrigger (c.mtof r.note) (latchEnv r))) 0#64 := by
  simp [noteOnEffect, hlive, hv]

theorem noteOnEffect_other {n : Note} (v : Velocity) (hlive : r.live = true) (hn : n ≠ r.note) :
    noteOnEffect c n v r = .reject .voiceBusy := by
  simp [noteOnEffect, hlive, hn]

theorem noteOnEffect_invalid {n : Note} (v : Velocity) (hn : r.live = true → n = r.note) (hv : validEnv r = false) :
    noteOnEffect c n v r = .reject .badEnvParam := by
  cases hlive : r.live with
  | false => simp [noteOnEffect_free hlive, hv]
  | true => simp [noteOnEffect, hv, hn hlive]

/-- The retriggered voice written out: RAMP_FREQ is the one register that depends on the waveform (R164). -/
theorem beginAttack_retrigger_latchEnv (f : F64) (r : Regs) :
    beginAttack (retrigger f (latchEnv r)) =
      { r with
        stage := .attack, baseFreq := f, rampFreq := if r.oscSel.wave = .vibrato then r.rampFreq else f
        envAttack := r.cfgAttack, envDecay := r.cfgDecay, envSustain := r.cfgSustain, envRelease := r.cfgRelease
        envTimeLeft := r.cfgAttack, envAtkStart := r.envValue } := by
  unfold retrigger
  rw [retarget_latchEnv]
  by_cases hw : r.oscSel.wave = .vibrato
  · rw [retarget_eq_of_vibrato f hw, if_pos hw]
    rfl
  · rw [retarget_eq_of_ne_vibrato f hw, if_neg hw]
    rfl

end

/-- Settles O19. -/
theorem noteOnConstructsAVoice : Obligations.NoteOnConstructsAVoice := by
  intro s n v hfree hv
  refine exec_accepts ((noteOnEffect_free hfree n v).trans ?_)
  rw [if_pos ((validEnv_iff_goodEnv s.regs).2 hv)]
  rfl

/-- Settles O20. -/
theorem noteOnRetriggersWithContinuity : Obligations.NoteOnRetriggersWithContinuity := by
  intro s v hlive hv
  refine exec_accepts ((noteOnEffect_served v hlive ((validEnv_iff_goodEnv s.regs).2 hv)).trans ?_)
  rw [beginAttack_retrigger_latchEnv]

/-- Settles O21. The note is checked before the staged parameters. -/
theorem noteOnRejections : Obligations.NoteOnRejections := by
  refine ⟨fun s n v hlive hn => exec_rejects (i := .noteOn n v) (noteOnEffect_other v hlive hn), fun s n v hn hv => ?_⟩
  rw [← validEnv_iff_goodEnv, Bool.not_eq_true] at hv
  exact exec_rejects (i := .noteOn n v) (noteOnEffect_invalid v hn hv)

/-- Settles O22. -/
theorem velocityIsIgnored : Obligations.VelocityIsIgnored := fun _ _ _ _ => rfl

/-! ### The registers of the oscillator and of the envelope -/

/-- The registers `r` with those that the oscillator's step writes (40_oscillator.md R108) taken from `o`. -/
def Regs.withOsc (r o : Regs) : Regs :=
  { r with rampPhase := o.rampPhase, lfoPhase := o.lfoPhase, rampFreq := o.rampFreq }

/-- The registers `r` with those that the envelope's step writes (41_envelope.md R133) taken from `e`. -/
def Regs.withEnv (r e : Regs) : Regs :=
  { r with stage := e.stage, envTimeLeft := e.envTimeLeft, envValue := e.envValue }

theorem oscNext_frame (c : Config) (sr : F64) (r : Regs) : (oscNext c sr r).1 = r.withOsc (oscNext c sr r).1 := by
  unfold oscNext
  cases r.oscSel.wave <;> rfl

theorem leaveStage_frame (r : Regs) : leaveStage r = r.withEnv (leaveStage r) := by
  unfold leaveStage
  cases r.stage <;> rfl

theorem passStages_frame (fuel : Nat) (r : Regs) : passStages fuel r = r.withEnv (passStages fuel r) := by
  induction fuel generalizing r with
  | zero => rfl
  | succ fuel ih =>
    cases ho : overdue r with
    | false =>
      rw [passStages_not_overdue _ ho]
      rfl
    | true =>
      rw [passStages_overdue _ ho]
      calc passStages fuel (leaveStage r)
          = (leaveStage r).withEnv (passStages fuel (leaveStage r)) := ih _
        _ = (r.withEnv (leaveStage r)).withEnv (passStages fuel (leaveStage r)) := by rw [← leaveStage_frame]
        _ = r.withEnv (passStages fuel (leaveStage r)) := rfl

theorem envAdvance_frame (sr : F64) (r : Regs) : envAdvance sr r = r.withEnv (envAdvance sr r) := by
  cases ht : r.stage.timed with
  | false =>
    rw [envAdvance_untimed ht]
    rfl
  | true =>
    rw [envAdvance_timed ht]
    exact passStages_frame 2 (r.decremented sr)

theorem envNext_frame (sr : F64) (r : Regs) : (envNext sr r).1 = r.withEnv (envNext sr r).1 :=
  congrArg (fun r' : Regs => { r' with envValue := stageValue (envAdvance sr r) }) (envAdvance_frame sr r)

/-! ### The envelope's step does not see the oscillator's registers (R165) -/

theorem leaveStage_withOsc (r o : Regs) : leaveStage (r.withOsc o) = (leaveStage r).withOsc o := by
  cases hs : r.stage <;> simp [leaveStage, Regs.withOsc, hs]

theorem passStages_withOsc (fuel : Nat) (r o : Regs) :
    passStages fuel (r.withOsc o) = (passStages fuel r).withOsc o := by
  induction fuel generalizing r with
  | zero => rfl
  | succ fuel ih =>
    cases ho : overdue r with
    | false => rw [passStages_not_overdue _ ho, passStages_not_overdue (r := r.withOsc o) _ ho]
    | true => rw [passStages_overdue _ ho, passStages_overdue (r := r.withOsc o) _ ho, leaveStage_withOsc, ih]

theorem envAdvance_withOsc (sr : F64) (r o : Regs) : envAdvance sr (r.withOsc o) = (envAdvance sr r).withOsc o := by
  cases ht : r.stage.timed with
  | false => rw [envAdvance_untimed ht, envAdvance_untimed (r := r.withOsc o) ht]
  | true =>
    rw [envAdvance_timed ht, envAdvance_timed (r := r.withOsc o) ht]
    exact passStages_withOsc 2 (r.decremented sr) o

theorem envNext_withOsc (sr : F64) (r o : Regs) :
    envNext sr (r.withOsc o) = ((envNext sr r).1.withOsc o, (envNext sr r).2) :=
  envNext_of_advance (envAdvance_withOsc sr r o)

/-- One frame, both parts taken from the registers before it. -/
theorem voiceNext_parts (c : Config) (sr : F64) (r : Regs) :
    voiceNext c sr r =
      ((r.withEnv (envNext sr r).1).withOsc (oscNext c sr r).1, sample c (oscNext c sr r).2 (envNext sr r).2) := by
  have henv : envNext sr (oscNext c sr r).1 =
      ((r.withEnv (envNext sr r).1).withOsc (oscNext c sr r).1, (envNext sr r).2) := by
    rw [oscNext_frame, envNext_withOsc, ← envNext_frame]
    rfl
  rw [voiceNext, henv]

/-! ### TICK (R165, R166) -/

theorem tickEffect_live {c : Config} {sr : F64} {r : Regs} (hlive : r.live = true) (hsr : validSr c sr = true) :
    tickEffect c sr r = .accept (voiceNext c sr r).1 (voiceNext c sr r).2 := by
  simp [tickEffect, hlive, hsr]

theorem tickEffect_invalid {c : Config} {sr : F64} (r : Regs) (hsr : validSr c sr = false) :
    tickEffect c sr r = .reject .badSampleRate := by
  simp [tickEffect, hsr]

/-- Settles O24. The rate is checked first; a frame is `voiceNext_parts`. -/
theorem tickProducesOneFrame : Obligations.TickProducesOneFrame := by
  refine ⟨fun s sr hlive hsr => ?_, fun s sr hsr => ?_⟩
  · refine exec_accepts ((tickEffect_live hlive ((validSr_iff_goodRate sr).2 hsr)).trans ?_)
    rw [voiceNext_parts]
    rfl
  · rw [← validSr_iff_goodRate, Bool.not_eq_true] at hsr
    exact exec_rejects (i := .tick sr) (tickEffect_invalid s.regs hsr)

/-- Settles O25. A rate that is not valid is rejected LIVE or FREE, by O24. -/
theorem tickOnAFreeBlockIsSilent : Obligations.TickOnAFreeBlockIsSilent := by
  refine ⟨fun s sr hfree hsr => ?_, fun s sr _ hsr => tickProducesOneFrame.2 s sr hsr⟩
  refine exec_accepts ((tickEffect_free hfree sr).trans ?_)
  rw [if_pos ((validSr_iff_goodRate sr).2 hsr)]
  rfl

end Sys2Proof.Machine
end

section
/-! PROOF. The life of a block (42_voice.md R160) and the samples of its voice (R169). -/

namespace Sys2Proof.Machine

open Sys2Proof.Claims

/-! ### LIVE and the note served -/

/-- The two commands that change LIVE, each from one state. -/
theorem exec_changes_live {i : Instr} {s t : State} (h : exec i s = .next t) (hne : t.regs.live ≠ s.regs.live) :
    (s.regs.live = false ∧ ∃ n v, i = .noteOn n v) ∨ (s.regs.live = true ∧ s.regs.stage = .done ∧ i = .prune) := by
  obtain ⟨hsame | ⟨n, v, rfl, hfree⟩ | rfl, -⟩ := onlyTheListedCommandsWriteARegister i s t h
  · exact absurd hsame hne
  · exact .inl ⟨hfree, n, v, rfl⟩
  · by_cases hdone : s.regs.live = true ∧ s.regs.stage = .done
    · exact .inr ⟨hdone.1, hdone.2, rfl⟩
    · rw [not_and_or, Bool.not_eq_true] at hdone
      cases h.symm.trans (pruneFreesADoneVoice.2.1 s hdone)
      exact absurd rfl hne

/-- No command changes the note of a LIVE block. -/
theorem exec_live_note {i : Instr} {s t : State} (h : exec i s = .next t) (hlive : s.regs.live = true) :
    t.regs.note = s.regs.note := by
  obtain ⟨-, -, hsame | ⟨_, _, -, hfree⟩, -⟩ := onlyTheListedCommandsWriteARegister i s t h
  · exact hsame
  · rw [hlive] at hfree
    cases hfree

/-- Over a step, LIVE is set by a NOTE_ON only, and cleared by a PRUNE in DONE or by reset only. -/
theorem step_changes_live {s t : State} (h : step s = .next t) (hne : t.regs.live ≠ s.regs.live) :
    (s.regs.live = false ∧ ∃ w rest n v, s.pending = .command w :: rest ∧ decode w = .command (.noteOn n v)) ∨
      (s.regs.live = true ∧
        ((∃ w rest, s.pending = .command w :: rest ∧ decode w = .command .prune ∧ s.regs.stage = .done) ∨
          ∃ rest, s.pending = .reset :: rest)) := by
  rcases step_cases h with ⟨-, rfl⟩ | ⟨rest, hp, rfl⟩ | ⟨w, rest, i, hp, hd, -⟩ | ⟨_, _, code, -, -, rfl⟩
  · exact absurd rfl hne
  · exact .inr ⟨Bool.eq_true_of_not_eq_false hne.symm, .inr ⟨rest, hp⟩⟩
  · rw [step_command hp hd] at h
    obtain ⟨hfree, n, v, rfl⟩ | ⟨hlive, hdone, rfl⟩ := exec_changes_live h hne
    · exact .inl ⟨hfree, w, rest, n, v, hp, hd⟩
    · exact .inr ⟨hlive, .inl ⟨w, rest, hp, hd, hdone⟩⟩
  · exact absurd (recordError_live code s.regs) hne

/-- A block that stays LIVE serves the same note. -/
theorem step_live_note {s t : State} (h : step s = .next t) (hlive : s.regs.live = true) (hlive' : t.regs.live = true) :
    t.regs.note = s.regs.note := by
  rcases step_cases h with ⟨-, rfl⟩ | ⟨_, -, rfl⟩ | ⟨w, rest, i, hp, hd, -⟩ | ⟨_, _, code, -, -, rfl⟩
  · rfl
  · cases hlive'
  · rw [step_command hp hd] at h
    exact exec_live_note (s := s.accepted) h hlive
  · exact recordError_note code s.regs

/-- Settles O40. -/
theorem lifecycleOfABlock : Obligations.LifecycleOfABlock := by
  intro s t h
  refine ⟨fun hfree hlive => ?_, fun hlive hfree => ?_, step_live_note h⟩
  · obtain ⟨-, hon⟩ | ⟨hlive', -⟩ := step_changes_live h (by simp [hfree, hlive])
    · exact hon
    · simp [hfree] at hlive'
  · obtain ⟨hfree', -⟩ | ⟨-, hends⟩ := step_changes_live h (by simp [hfree, hlive])
    · simp [hlive] at hfree'
    · exact hends

/-! ### The sample -/

/-- A finite value in [-1, 1]. -/
def InBand (x : F64) : Prop := isFinite x = true ∧ |signedUnits x| ≤ oneUnits

theorem inBand_iff (x : F64) :
    InBand x ↔ isFinite x = true ∧ fle (fneg one) x = true ∧ fle x one = true := by
  unfold InBand
  refine and_congr_right fun hx => ?_
  rw [abs_le, fle_iff (by simp) hx, fle_iff hx isFinite_one, signedUnits_fneg_one, signedUnits_one]

theorem inBand_of_level {x : F64} (h : validLevel x = true) : InBand x := by
  obtain ⟨hfin, h0, h1⟩ := (validLevel_iff x).1 h
  exact ⟨hfin, by rwa [abs_of_nonneg h0]⟩

theorem inBand_of_inUnit {x : F64} (h : inUnit x = true) : InBand x := by
  obtain ⟨hfin, h0, h1⟩ := (inUnit_iff x).1 h
  exact ⟨hfin, by rw [abs_of_nonneg h0]; exact h1.le⟩

/-- The product of two values in [-1, 1], rounded, is in [-1, 1]. -/
theorem inBand_fmul {a b : F64} (ha : InBand a) (hb : InBand b) : InBand (fmul a b) := by
  obtain ⟨hafin, ha1⟩ := ha
  obtain ⟨hbfin, hb1⟩ := hb
  have hproduct : |signedUnits a * signedUnits b| ≤ oneUnits * oneUnits := by
    rw [abs_mul]
    exact mul_le_mul ha1 hb1 (abs_nonneg _) (Int.natCast_nonneg _)
  obtain ⟨hlow, hhigh⟩ := abs_le.1 hproduct
  obtain ⟨hfin, hlo, hhi⟩ := fmul_between (lo := fneg one) (hi := one) hafin hbfin (by simp) isFinite_one
    (by rw [signedUnits_fneg_one, neg_mul]; exact hlow) (by rw [signedUnits_one]; exact hhigh)
  rw [signedUnits_fneg_one] at hlo
  rw [signedUnits_one] at hhi
  exact ⟨hfin, abs_le.2 ⟨hlo, hhi⟩⟩

/-- Every output stage takes a phase in [0, 1) into [-1, 1] (40_oscillator.md R104, 00_scope.md R8). -/
theorem inBand_waveOut {c : Config} (hc : c.Admissible) (w : BaseWave) {p : F64} (hp : inUnit p = true) :
    InBand (waveOut c w p) := by
  cases w with
  | ramp => exact inBand_of_inUnit hp
  | sine =>
    obtain ⟨hfin, hlo, hhi⟩ := sineStage_bounds hc hp
    exact ⟨hfin, abs_le.2 ⟨hlo, hhi⟩⟩
  | square =>
    rw [waveOut]
    split <;> exact inBand_of_level (by decide)

/-- Whatever the waveform, the oscillator's output is that of an output stage at the advanced phase (R103). -/
theorem oscNext_output (c : Config) (sr : F64) (r : Regs) :
    ∃ w, (oscNext c sr r).2 = waveOut c w (oscNext c sr r).1.rampPhase := by
  unfold oscNext
  cases r.oscSel.wave with
  | plain w => exact ⟨w, rfl⟩
  | vibrato => exact ⟨r.oscSel.carrier, rfl⟩

/-- A voice that meets the invariant gives a sample in [-1, 1], wherever the gain is in [-1, 1]. -/
theorem inBand_voiceNext {c : Config} {r : Regs} {sr : F64} (hc : c.Admissible) (hr : refRanges c)
    (hgain : InBand c.gain) (h : VoiceInv c r) (hsr : validSr reference sr = true) : InBand (voiceNext c sr r).2 := by
  have hosc := voiceInv_oscNext hc hr h hsr
  obtain ⟨w, hw⟩ := oscNext_output c sr r
  have hout : InBand (oscNext c sr r).2 := by
    rw [hw]
    exact inBand_waveOut hc w hosc.rampPhase
  have hlevel : InBand (envNext sr (oscNext c sr r).1).2 := inBand_of_level (voiceInv_envNext hosc hsr).envValue
  exact inBand_fmul (inBand_fmul hout hlevel) hgain

theorem inBand_reference_gain : InBand reference.gain := inBand_of_level (by decide)

/-- Settles O56. A FREE block answers +0.0; a LIVE one's invariant bounds the two factors and the gain. -/
theorem samplesAreFinite : Obligations.SamplesAreFinite := by
  intro s sr hinv hrate
  have hsr := (validSr_iff_goodRate sr).2 hrate
  obtain ⟨r, data, he, hdata⟩ : ∃ r data, tickEffect reference sr s.regs = .accept r data ∧ InBand data := by
    cases hlive : s.regs.live with
    | false => exact ⟨_, _, by rw [tickEffect_free hlive, if_pos hsr], inBand_of_level (by decide)⟩
    | true =>
      exact ⟨_, _, tickEffect_live hlive hsr, inBand_voiceNext referenceConfigurationIsAdmissible ⟨rfl, rfl, rfl⟩
        inBand_reference_gain (hinv.voice hlive) hsr⟩
  exact ⟨_, _, exec_accepts he, rfl, rfl, (inBand_iff data).1 hdata⟩

end Sys2Proof.Machine
end

section
/-! PROOF. The staged writes, READ and CLR_ERR (43_registers.md R190 to R197). -/

namespace Sys2Proof.Machine

open Sys2Proof.Claims

/-! ### The staged writes (R190 to R194) -/

/-- Settles O34. -/
theorem stagedWritesStoreEveryPattern : Obligations.StagedWritesStoreEveryPattern :=
  fun _ _ => ⟨exec_accepts rfl, exec_accepts rfl, exec_accepts rfl, exec_accepts rfl⟩

/-- CARRIER's codes but 3 are those of the waveforms (10_state.md R25). -/
theorem BaseWave.exists_ofCode {k : BitVec 2} (hk : k ≠ 3#2) :
    ∃ carrier, BaseWave.ofCode k = some carrier ∧ carrier.code = k := by
  have hmap : (BaseWave.ofCode k).map BaseWave.code = some k := by
    revert k
    decide
  exact Option.map_eq_some_iff.1 hmap

theorem Wave.code_ofCode (w : BitVec 2) : (Wave.ofCode w).code = w := by
  revert w
  decide

theorem wrOscselEffect_valid {w k : BitVec 2} (hk : k ≠ 3#2) (r : Regs) :
    ∃ o : OscSel, o.wave.code = w ∧ o.carrier.code = k ∧
      wrOscselEffect w k r = .accept { r with cfgOscsel := o } 0#64 := by
  obtain ⟨carrier, hcarrier, hcode⟩ := BaseWave.exists_ofCode hk
  refine ⟨{ wave := Wave.ofCode w, carrier := carrier }, Wave.code_ofCode w, hcode, ?_⟩
  rw [wrOscselEffect, hcarrier]

/-- Settles O35. -/
theorem wrOscselStoresBothCodes : Obligations.WrOscselStoresBothCodes := by
  refine fun s w k => ⟨fun hk => ?_, fun hk => ?_⟩
  · obtain ⟨o, hwave, hcarrier, he⟩ := wrOscselEffect_valid (w := w) hk s.regs
    exact ⟨o, hwave, hcarrier, by rw [OscSel.bits, hwave, hcarrier], exec_accepts he⟩
  · subst hk
    exact exec_rejects (i := .wrOscsel w 3#2) rfl

/-! ### READ (R196) -/

/-- STATUS as a number: each field at its lowest bit (10_state.md R24). -/
theorem statusWord_eq_ofNat (r : Regs) :
    statusWord r = BitVec.ofNat 64 (r.live.toNat + 2 ^ 4 * r.stage.code.toNat + 2 ^ 8 * r.note.toNat +
      2 ^ 16 * r.err.toNat + 2 ^ 24 * r.errCode.toNat) := by
  apply BitVec.eq_of_toNat_eq
  have hlive := r.live.toNat_lt
  have hstage := r.stage.code.isLt
  have hnote := r.note.isLt
  have herr := r.err.toNat_lt
  have hcode := r.errCode.isLt
  refine (Laws.toNat_append_eq _ (BitVec.ofBool r.live)).trans ?_
  simp only [Laws.toNat_append_eq, BitVec.toNat_ofBool, BitVec.toNat_ofNat]
  omega

/-- A selector as READ shows it, as a number (10_state.md R25). -/
theorem oscSel_word_eq_ofNat (o : OscSel) :
    o.bits.setWidth 64 = BitVec.ofNat 64 (o.wave.code.toNat + 4 * o.carrier.code.toNat) := by
  apply BitVec.eq_of_toNat_eq
  have hbits : o.bits.toNat = o.carrier.code.toNat * 2 ^ 2 + o.wave.code.toNat := Laws.toNat_append_eq _ _
  rw [BitVec.toNat_setWidth, BitVec.toNat_ofNat, hbits]
  congr 1
  omega

/-- The table of the rules R22 to R25 has the registers' values in the order of their indices. -/
theorem readTable_eq_map (r : Regs) : readTable r = regsByIndex.map (regValue reference r) := by
  unfold readTable
  rw [← statusWord_eq_ofNat, ← oscSel_word_eq_ofNat, ← oscSel_word_eq_ofNat]
  rfl

theorem readEffect_of_index {c : Config} {i : RegIndex} {name : RegName} (h : RegName.ofIndex i = some name)
    (r : Regs) : readEffect c i r = .accept r (regValue c r name) := by
  rw [readEffect, h]

theorem readEffect_reserved {c : Config} {i : RegIndex} (h : RegName.ofIndex i = none) (r : Regs) :
    readEffect c i r = .reject .badRegIndex := by
  rw [readEffect, h]

/-- Settles O36. -/
theorem readReturnsTheRegister : Obligations.ReadReturnsTheRegister := by
  intro s i
  have hlength : regsByIndex.length = 0x15 := rfl
  rw [readTable_eq_map]
  refine ⟨fun v hv => ?_, fun hi => ?_, fun hi => ?_⟩
  · rw [List.getElem?_map] at hv
    obtain ⟨name, hname, rfl⟩ := Option.map_eq_some_iff.1 hv
    exact exec_accepts (readEffect_of_index hname s.regs)
  · exact ⟨_, List.getElem?_eq_getElem (by rw [List.length_map]; omega)⟩
  · exact exec_rejects (i := .read i) (readEffect_reserved (List.getElem?_eq_none (by omega)) s.regs)

/-! ### CLR_ERR (R197) -/

/-- Settles O37. -/
theorem clrErrClearsTheStickyError : Obligations.ClrErrClearsTheStickyError :=
  ⟨fun _ => exec_accepts rfl, fun _ _ _ hx h =>
    step_rejected_eq_errAnswer h (decode_nonzero_operand (i := .clrErr) rfl hx)⟩

end Sys2Proof.Machine
end

section
/-! PROOF. The staged registers act only at NOTE_ON (43_registers.md R195): every operation but NOTE_ON's and READ does
not see them, so it comes to the same on registers that differ in them, and leaves them as they were. -/

namespace Sys2Proof.Machine

open Sys2Proof.Claims

/-- The registers `r` with the staged registers, CFG_OSCSEL to CFG_RELEASE, of `w`. -/
def Regs.withStaged (r w : Regs) : Regs :=
  { r with
    cfgOscsel := w.cfgOscsel, cfgAttack := w.cfgAttack, cfgDecay := w.cfgDecay, cfgSustain := w.cfgSustain,
    cfgRelease := w.cfgRelease }

theorem sameUnstaged_iff (r r' : Regs) : sameUnstaged r r' ↔ ∃ w, r' = r.withStaged w := by
  constructor
  · intro h
    exact ⟨r', h.symm⟩
  · rintro ⟨w, rfl⟩
    rfl

/-! ### The operations do not see the staged registers -/

theorem recordError_withStaged (code : ErrorCode) (r w : Regs) :
    recordError code (r.withStaged w) = (recordError code r).withStaged w := by
  cases herr : r.err <;> simp [recordError, Regs.withStaged, herr]

theorem retarget_withStaged (f : F64) (r w : Regs) :
    retarget f (r.withStaged w) = (retarget f r).withStaged w := by
  cases hw : r.oscSel.wave <;> simp [retarget, Regs.withStaged, hw]

theorem oscNext_withStaged (c : Config) (sr : F64) (r w : Regs) :
    oscNext c sr (r.withStaged w) = ((oscNext c sr r).1.withStaged w, (oscNext c sr r).2) := by
  cases hw : r.oscSel.wave with
  | plain b => rw [oscNext_plain c sr hw, oscNext_plain (r := r.withStaged w) c sr hw]; rfl
  | vibrato => rw [oscNext_vibrato c sr hw, oscNext_vibrato (r := r.withStaged w) c sr hw]; rfl

theorem leaveStage_withStaged (r w : Regs) : leaveStage (r.withStaged w) = (leaveStage r).withStaged w := by
  cases hs : r.stage <;> simp [leaveStage, Regs.withStaged, hs]

theorem passStages_withStaged (fuel : Nat) (r w : Regs) :
    passStages fuel (r.withStaged w) = (passStages fuel r).withStaged w := by
  induction fuel generalizing r with
  | zero => rfl
  | succ fuel ih =>
    cases ho : overdue r with
    | false => rw [passStages_not_overdue _ ho, passStages_not_overdue (r := r.withStaged w) _ ho]
    | true => rw [passStages_overdue _ ho, passStages_overdue (r := r.withStaged w) _ ho, leaveStage_withStaged, ih]

theorem envAdvance_withStaged (sr : F64) (r w : Regs) :
    envAdvance sr (r.withStaged w) = (envAdvance sr r).withStaged w := by
  cases ht : r.stage.timed with
  | false => rw [envAdvance_untimed ht, envAdvance_untimed (r := r.withStaged w) ht]
  | true =>
    rw [envAdvance_timed ht, envAdvance_timed (r := r.withStaged w) ht]
    exact passStages_withStaged 2 (r.decremented sr) w

theorem envNext_withStaged (sr : F64) (r w : Regs) :
    envNext sr (r.withStaged w) = ((envNext sr r).1.withStaged w, (envNext sr r).2) :=
  envNext_of_advance (envAdvance_withStaged sr r w)

theorem voiceNext_withStaged (c : Config) (sr : F64) (r w : Regs) :
    voiceNext c sr (r.withStaged w) = ((voiceNext c sr r).1.withStaged w, (voiceNext c sr r).2) := by
  simp only [voiceNext, oscNext_withStaged, envNext_withStaged]

theorem releaseVoice_withStaged (r w : Regs) : releaseVoice (r.withStaged w) = (releaseVoice r).withStaged w := by
  cases hs : r.stage <;> simp [releaseVoice, beginRelease, Regs.withStaged, hs]

/-! ### The commands -/

/-- An effect with the staged registers of `w` in the registers it leaves. -/
def Effect.withStaged (w : Regs) : Effect → Effect
  | .accept r data => .accept (r.withStaged w) data
  | .reject code => .reject code

section

variable (c : Config) (r w : Regs)

theorem setFreqEffect_withStaged (f : F64) :
    setFreqEffect c f (r.withStaged w) = (setFreqEffect c f r).withStaged w := by
  simp only [setFreqEffect, apply_ite (Effect.withStaged w), retarget_withStaged]
  rfl

theorem noteOffEffect_withStaged (n : Note) : noteOffEffect n (r.withStaged w) = (noteOffEffect n r).withStaged w := by
  simp only [noteOffEffect, apply_ite (Effect.withStaged w), releaseVoice_withStaged]
  rfl

theorem tickEffect_withStaged (sr : F64) :
    tickEffect c sr (r.withStaged w) = (tickEffect c sr r).withStaged w := by
  simp only [tickEffect, apply_ite (Effect.withStaged w), voiceNext_withStaged]
  rfl

theorem pruneEffect_withStaged : pruneEffect (r.withStaged w) = (pruneEffect r).withStaged w := by
  simp only [pruneEffect, apply_ite (Effect.withStaged w)]
  rfl

end

/-- Two effects alike but for staged registers: the same rejection, or the same data and registers that differ in the
staged ones only. -/
inductive Effect.SameUnstaged : Effect → Effect → Prop
  | rejected (code : ErrorCode) : SameUnstaged (.reject code) (.reject code)
  | accepted {r r' : Regs} (data : BitVec 64) (hsame : sameUnstaged r r') :
    SameUnstaged (.accept r data) (.accept r' data)

theorem Effect.SameUnstaged.of_eq_withStaged {e e' : Effect} {w : Regs} (h : e' = e.withStaged w) :
    e.SameUnstaged e' := by
  subst h
  cases e with
  | accept r data => exact .accepted data rfl
  | reject code => exact .rejected code

theorem wrOscselEffect_sameUnstaged (wave carrier : BitVec 2) (r w : Regs) :
    (wrOscselEffect wave carrier r).SameUnstaged (wrOscselEffect wave carrier (r.withStaged w)) := by
  unfold wrOscselEffect
  split
  · exact .rejected _
  · exact .accepted _ rfl

theorem commandEffect_sameUnstaged {i : Instr} (hon : ∀ n v, i ≠ .noteOn n v) (hread : ∀ x, i ≠ .read x)
    (c : Config) (r w : Regs) : (commandEffect c i r).SameUnstaged (commandEffect c i (r.withStaged w)) := by
  cases i with
  | setFreq f => exact .of_eq_withStaged (setFreqEffect_withStaged c r w f)
  | noteOn n v => exact absurd rfl (hon n v)
  | noteOff n => exact .of_eq_withStaged (noteOffEffect_withStaged r w n)
  | tick sr => exact .of_eq_withStaged (tickEffect_withStaged c r w sr)
  | prune => exact .of_eq_withStaged (pruneEffect_withStaged r w)
  | wrOscsel wave carrier => exact wrOscselEffect_sameUnstaged wave carrier r w
  | read x => exact absurd rfl (hread x)
  | nop | clrErr => exact .accepted _ rfl
  | wrAttack x | wrDecay x | wrSustain x | wrRelease x => exact .accepted _ rfl

/-- Settles O43. What a WR_ command stores is O34's and O35's; two effects alike but for staged registers are answered
alike. -/
theorem stagedRegistersActOnlyAtNoteOn : Obligations.StagedRegistersActOnlyAtNoteOn := by
  refine ⟨fun s t x w k hk h => ?_, fun i s s' hon hread hsame => ?_⟩
  · obtain ⟨hattack, hdecay, hsustain, hrelease⟩ := stagedWritesStoreEveryPattern s x
    obtain ⟨o, -, -, -, hoscsel⟩ := (wrOscselStoresBothCodes s w k).1 hk
    rw [hattack, hdecay, hsustain, hrelease, hoscsel] at h
    obtain h | h | h | h | h := h <;> cases h <;> rfl
  · obtain ⟨w, hw⟩ := (sameUnstaged_iff _ _).1 hsame
    have halike := commandEffect_sameUnstaged hon hread reference s.regs w
    rw [exec_eq, exec_eq, hw]
    generalize commandEffect reference i s.regs = e, commandEffect reference i (s.regs.withStaged w) = e' at halike ⊢
    cases halike with
    | rejected code =>
      refine ⟨_, _, rejection code, rfl, rfl, ?_, rfl, rfl⟩
      rw [State.answer_reject_regs, State.answer_reject_regs, hw, recordError_withStaged]
      rfl
    | accepted data hsame' => exact ⟨_, _, acceptance data, rfl, rfl, hsame', rfl, rfl⟩

end Sys2Proof.Machine
end

section
/-! PROOF. Exceptions (60_exceptions.md R222, R224, R227): every step answers, a rejected word changes only the sticky
error, and the first error code stays. -/

namespace Sys2Proof.Machine

open Sys2Proof.Claims

/-- Settles O11. No branch of a step faults or refuses, and every command is answered. -/
theorem everyStepAnswersANextState : Obligations.EveryStepAnswersANextState := by
  intro s
  cases hp : s.pending with
  | nil => exact ⟨s, step_idle hp⟩
  | cons p rest =>
    cases p with
    | reset => exact ⟨_, step_reset hp⟩
    | command w =>
      cases hd : decode w with
      | command i => exact ⟨_, (step_command hp hd).trans (exec_eq i s.accepted)⟩
      | rejected code => exact ⟨_, step_rejected hp hd⟩

/-- A step on a command word accepts the decoded command or rejects the word; a failed decoding check and a command
that rejects itself are answered alike (30_encoding.md R85, 60_exceptions.md R222). -/
theorem step_command_answer {s t : State} {w : Command} {rest : List PortInput} (hp : s.pending = .command w :: rest)
    (h : step s = .next t) :
    (∃ i r data, decode w = .command i ∧ commandEffect reference i s.regs = .accept r data ∧
      t = okAnswer (taken s rest) r data) ∨
    (∃ code, t = errAnswer (taken s rest) (errorCodeBits code)) := by
  cases hd : decode w with
  | command i =>
    rw [stepRunsTheDecodedCommand s w rest i hp hd] at h
    cases he : commandEffect reference i s.regs with
    | accept r data =>
      cases h.symm.trans (exec_accepts (s := taken s rest) he)
      exact .inl ⟨i, r, data, rfl, he, rfl⟩
    | reject code =>
      cases h.symm.trans (exec_rejects (s := taken s rest) he)
      exact .inr ⟨code, rfl⟩
  | rejected code =>
    cases h.symm.trans (step_rejected_eq_errAnswer hp hd)
    exact .inr ⟨code, rfl⟩

/-- Settles O13. The status code tells a rejection from an accepted command, and a rejection is `errAnswer`. -/
theorem rejectionChangesOnlyTheStickyError : Obligations.RejectionChangesOnlyTheStickyError := by
  intro s t w rest p ps hp h hresp hcode
  obtain ⟨_, _, _, -, -, rfl⟩ | ⟨code, rfl⟩ := step_command_answer hp h
  · cases hresp
    exact absurd rfl hcode
  · cases hresp
    exact ⟨rfl, rfl, rfl, rfl⟩

/-- Settles O15. An accepted command other than CLR_ERR leaves the sticky error, and a rejection that finds ERR = 1
records nothing. -/
theorem firstErrorCodeIsKept : Obligations.FirstErrorCodeIsKept := by
  intro s t herr h
  rcases hp : s.pending with _ | ⟨w | _, rest⟩
  case nil =>
    cases h.symm.trans (step_idle hp)
    exact .inl ⟨herr, rfl⟩
  case cons.command =>
    obtain ⟨i, r, _, hd, he, rfl⟩ | ⟨code, rfl⟩ := step_command_answer hp h
    · obtain ⟨hsame, hcode⟩ | ⟨rfl, -⟩ := commandEffect_accept_error he
      · exact .inl ⟨hsame.trans herr, hcode⟩
      · exact .inr (.inl ⟨w, rest, rfl, hd⟩)
    · have hkept : (errAnswer (taken s rest) (errorCodeBits code)).regs = s.regs := if_pos herr
      rw [hkept]
      exact .inl ⟨herr, rfl⟩
  case cons.reset => exact .inr (.inr ⟨rest, rfl⟩)

end Sys2Proof.Machine
end

section
/-! PROOF. What an assertion of reset does to the registers (10_state.md R32, 70_reset_and_hazards.md R250). -/

namespace Sys2Proof.Machine

/-- Settles O8. The step answers the state that `State.resetRegs` gives, whose registers are `Regs.reset`, and the
statement's record is R32's table, as `Regs.reset` has it. -/
theorem resetSetsEveryRegister : Obligations.ResetSetsEveryRegister := by
  intro s rest hp
  exact ⟨s.accepted.resetRegs, step_reset hp, State.resetRegs_regs s.accepted⟩

end Sys2Proof.Machine
end

section
/-! PROOF. What a step does with nothing presented on the port (70_reset_and_hazards.md section 5, log entry 1). -/

namespace Sys2Proof.Machine

/-- Settles O10. This is the branch of `step` for a port that presents nothing, stated once by `step_idle`. -/
theorem idleBlockKeepsItsState : Obligations.IdleBlockKeepsItsState := by
  intro s hp
  exact step_idle hp

end Sys2Proof.Machine
end
